-- ==== Sys2Proof/Word.lean ====
section
/-! DEFINITION. The two word types of the companion bus (spec/00_scope.md R7, R9): a ring word or command word is 32 bits, a bus transaction carries 16. -/

namespace Sys2Proof

/-- A 32-bit value: a ring word, a command word, a companion bus address (R7 WORD_BYTES, ADDR_BITS; R70). -/
abbrev Word := BitVec 32

/-- A 16-bit value: what one bus transaction carries (R7 BUS_DATA_BITS; R84). -/
abbrev Half := BitVec 16

end Sys2Proof
end

