-- ==== Sys2Proof/Syntax.lean ====
section
/-! DEFINITION. The instructions of the block as syntax: the five commands and the two bus transactions of spec/opcode_table.json (R122, R129), and the packets that spell them (R120). -/

namespace Sys2Proof

/-- One constructor per row of spec/opcode_table.json. Channel fields are the four bits of CH and CH2 (R121). -/
inductive Instr where
  /-- Q_INIT (R205): channel CH. -/
  | qInit (ch : BitVec 4)
  /-- Q_READ (R210): channel CH, at most COUNT words. -/
  | qRead (ch : BitVec 4) (count : BitVec 16)
  /-- Q_WRITE (R220): channel CH and the payload words; COUNT is their number (R126). -/
  | qWrite (ch : BitVec 4) (words : List Word)
  /-- OPEN (R226): transmit channel CH, receive channel CH2, and the payload word `context`. -/
  | openPair (tx rx : BitVec 4) (ctx : Word)
  /-- SHUTDOWN (R230). -/
  | shutdown
  /-- BUS_RD16 (R150): one bus read of the half-word at `addr`. -/
  | busRd16 (addr : Word)
  /-- BUS_WR16 (R151): one bus write of `data` to `addr`. -/
  | busWr16 (addr : Word) (data : Half)
  deriving DecidableEq, Repr

/-- The bus request record (MODE, ADDR, DATA) of R129. -/
structure BusRec where
  /-- MODE: false is 0, a read; true is 1, a write. -/
  write : Bool
  addr : Word
  /-- DATA sent by a write; a read sends none and the field is 0. -/
  data : Half
  deriving DecidableEq, Repr

/-- What spells an instruction (R120): a command word with its payload words, or a bus record. -/
inductive Packet where
  | command (cmd : Word) (payload : List Word)
  | bus (r : BusRec)
  deriving DecidableEq, Repr

end Sys2Proof
end

