-- ==== Sys2Proof/Config.lean ====
section
/-! DEFINITION. What an implementation fixes (the parameters of spec/00_scope.md R7), the environment's choices as plain data (R310, R320, R87, R101), and the free value that stands for a choice nobody has written down. -/

namespace Sys2Proof

/-- The implementation parameters of R7. `none` and `false` are the reference behaviours.
POLL_INTERVAL and SPIN_DELAY are timing only, and BUS_FRAME_FORMAT is unobservable (R366, R78): none of them is here. -/
structure Params where
  /-- N_CH -/
  nCh : Nat
  /-- DESC_TABLE_BASE -/
  descTableBase : Word
  /-- REG_STATUS -/
  regStatus : Word
  /-- REG_H2C_MBOX -/
  regH2C : Word
  /-- REG_C2H_MBOX -/
  regC2H : Word
  /-- BUSY_BIT -/
  busyBit : Fin 16
  /-- IRQ_BIT -/
  irqBit : Fin 16
  /-- IDLE_MAX_POLLS -/
  idleMaxPolls : Option Nat
  /-- LOCK_TIMEOUT -/
  lockTimeout : Bool
  /-- REENABLE_TIMEOUT -/
  reenableTimeout : Bool
  /-- MAX_FRAME_WORDS -/
  maxFrameWords : Option Nat
  /-- FRAME_DEADLINE -/
  frameDeadline : Bool
  /-- N_CLIENTS -/
  nClients : Nat
  deriving DecidableEq, Repr

/-- The test configuration TC of R8: the spec's illustration, used by the vectors of spec/95_test_vectors.md.
DESIGN CHOICE (log 1, unsafe): State.reset uses it, since the spec leaves the parameters OPEN. -/
def Config.tc : Params where
  nCh := 6
  descTableBase := 0x1000
  regStatus := 0x100
  regH2C := 0x104
  regC2H := 0x108
  busyBit := 0
  irqBit := 1
  idleMaxPolls := none
  lockTimeout := false
  reenableTimeout := false
  maxFrameWords := none
  frameDeadline := false
  nClients := 2

/-- A command port's name (R29): client p, or H, the handler context's port. -/
inductive PortId where
  | client (p : Nat)
  | handler
  deriving DecidableEq, Repr, Inhabited

/-- Who may ask for the transport lock (R23): a command port or the worker. -/
inductive Requester where
  | port (p : PortId)
  | worker
  deriving DecidableEq, Repr, Inhabited

/-- The companion's actions (R320), one atomic step each. -/
inductive CompAct where
  /-- `c_mem(a, v)`: a half-word of companion memory, even address outside the three registers. -/
  | mem (a : Word) (v : Half)
  /-- `c_set_c2h(m)` -/
  | setC2H (m : Half)
  /-- `c_irq`: the interrupt input step of R287. -/
  | irq
  /-- `c_busy(b)` -/
  | busy (b : Bool)
  /-- `c_reenable` -/
  | reenable
  /-- `c_consume_irq`: no effect on the block. -/
  | consumeIrq
  deriving DecidableEq, Repr, Inhabited

/-- What chance decides about one atomic step of the block: the draws of R87, the open bits a status read returns
(R33), and whether a wait's deadline has passed at this step (R161). -/
structure Draw where
  /-- `draw_fail()` -/
  fail : Bool
  /-- `draw_took_effect()`, used when a write fails. -/
  landed : Bool
  /-- The bits of a status read other than BUSY. -/
  noise : Half
  /-- The timeout step of a ReenableWait is taken (only where REENABLE_TIMEOUT allows one). -/
  timeout : Bool
  deriving DecidableEq, Repr, Inhabited

/-- One coming atomic step of the command that holds the lock: the companion's steps that fall before it (R90),
then the step with its draws. -/
structure Turn where
  before : List CompAct
  draw : Draw
  deriving DecidableEq, Repr, Inhabited

/-- A draw in which nothing goes wrong. -/
def Draw.good : Draw := { fail := false, landed := false, noise := 0, timeout := false }

/-- A turn in which the companion does nothing and nothing goes wrong. -/
def Turn.quiet : Turn := { before := [], draw := Draw.good }

/-- As `Turn.quiet`, after the companion's `c_reenable`. -/
def Turn.reenabled : Turn := { before := [.reenable], draw := Draw.good }

/-- A step of some agent (R310). Which one comes next is the environment's choice (R90, R101). -/
inductive Event where
  /-- A client or the handler presents a command word with its payload on its port. -/
  | present (p : PortId) (cmd : Word) (payload : List Word)
  /-- A client or the handler takes its response. -/
  | take (p : PortId)
  /-- The accept step of R130. -/
  | accept (p : PortId)
  /-- The grant of R100 to `q`, and the command's atomic steps that follow it before any agent but the companion moves. -/
  | grant (q : Requester) (turns : List Turn)
  /-- Atomic steps of the command that holds the lock. -/
  | turns (ts : List Turn)
  /-- The lock timeout of R105. -/
  | lockTimeout (q : Requester)
  /-- The worker's pass start (R290). -/
  | passStart
  /-- One step of the worker's pass: a bus transaction of its locked phase, a scan step, or the pass end. -/
  | worker (d : Draw)
  /-- The handler's return step (R296): true is ok, false is fail. -/
  | handlerReturn (ok : Bool)
  /-- The fallback timer fires (R287). -/
  | timerFire
  /-- A companion step (R320). -/
  | companion (a : CompAct)
  /-- Client-side: start `frame.write` (R254). -/
  | frameWrite (p : PortId) (ch : BitVec 4) (grp typ : BitVec 8) (words : List Word)
  /-- Client-side: start `frame.read` (R255). -/
  | frameRead (p : PortId) (ch : BitVec 4)
  /-- Client-side: start `q.write_retry` (R134). -/
  | writeRetry (p : PortId) (ch : BitVec 4) (words : List Word)
  /-- Client-side: the pseudo-instruction in progress on `p` goes on (it issues its next command or ends). -/
  | progress (p : PortId)
  /-- Client-side: `frame.read`'s deadline passes (R255, FRAME_DEADLINE). -/
  | frameDeadline (p : PortId)
  /-- The platform's reset step (R340); the new bus connection's handle. -/
  | reset (bus : Nat)
  deriving DecidableEq, Repr, Inhabited

/-- The free value of this model: the k-th choice the environment makes when no input is written down. It has no body,
so no proof can know it (log 2): scheduling, grants, companion steps, bus failures and client commands are open. -/
opaque Config.freeEvent : Nat → Event

end Sys2Proof
end

