-- ==== Sys2Proof/WellFormed.lean ====
section
/-! DEFINITION. Which parameters, instructions and bus records are well formed (spec/00_scope.md R7, spec/20_memory.md R76, spec/30_encoding.md R123, R126, R129). -/

namespace Sys2Proof

/-- The half-word addresses of the descriptor table: `D(i) .. D(i)+14` for every channel (R36, R73, R76). -/
def Params.descriptorHalves (p : Params) : List Word :=
  (List.range (8 * p.nCh)).map fun j => p.descTableBase + BitVec.ofNat 32 (2 * j)

/-- The constraints on the parameters of R7, R76 and R156: 1 ≤ N_CH ≤ 16, even addresses, three distinct registers
outside the descriptor blocks, IDLE_MAX_POLLS ≥ 1, at least one client. -/
def Params.wf (p : Params) : Bool :=
  decide (1 ≤ p.nCh) && decide (p.nCh ≤ 16) && decide (1 ≤ p.nClients)
    && !p.descTableBase.getLsbD 0 && !p.regStatus.getLsbD 0 && !p.regH2C.getLsbD 0 && !p.regC2H.getLsbD 0
    && decide (p.regStatus ≠ p.regH2C) && decide (p.regStatus ≠ p.regC2H) && decide (p.regH2C ≠ p.regC2H)
    && !p.descriptorHalves.contains p.regStatus && !p.descriptorHalves.contains p.regH2C
    && !p.descriptorHalves.contains p.regC2H
    && decide (p.idleMaxPolls ≠ some 0)

/-- An instruction whose fields fit its encoding: a Q_WRITE has at most 65535 payload words, the most COUNT can say (R121, R126). -/
def Instr.encodable : Instr → Bool
  | .qInit _ => true
  | .qRead _ _ => true
  | .qWrite _ words => decide (words.length < 65536)
  | .openPair _ _ _ => true
  | .shutdown => true
  | .busRd16 _ => true
  | .busWr16 _ _ => true

/-- A well-formed instruction (R123, R129): channels below N_CH, COUNT 1..65535 for Q_READ and Q_WRITE, an even bus address. -/
def Instr.wf (p : Params) : Instr → Bool
  | .qInit c => decide (c.toNat < p.nCh)
  | .qRead c n => decide (c.toNat < p.nCh) && decide (n ≠ 0)
  | .qWrite c words => decide (c.toNat < p.nCh) && decide (1 ≤ words.length) && decide (words.length < 65536)
  | .openPair tx rx _ => decide (tx.toNat < p.nCh) && decide (rx.toNat < p.nCh)
  | .shutdown => true
  | .busRd16 a => !a.getLsbD 0
  | .busWr16 a _ => !a.getLsbD 0

/-- A bus record as the block issues it (R129): ADDR even, and no DATA sent by a read. -/
def BusRec.wf (r : BusRec) : Bool := !r.addr.getLsbD 0 && (r.write || decide (r.data = 0))

end Sys2Proof
end

