-- ==== Sys2Proof/Decode.lean ====
section
/-! DEFINITION. From command words and bus records to instructions and back (spec/30_encoding.md R120-R132, R136), the host's numbering of an instruction's bits, and the assembler text of R133 and R135. -/

namespace Sys2Proof

/-- Why a packet spells no instruction. The first three are R130's checks 1 and 2, each the fault ILLEGAL_COMMAND; the last
is a packet no port can present (R126). -/
inductive DecodeError where
  /-- OP is 0x0 or 0x6..0xF. -/
  | illegalOpcode
  /-- RSV is not zero. -/
  | reservedBits
  /-- A field that R123 marks 0 is not zero. -/
  | fieldNotZero
  /-- The payload is shorter or longer than the command word says (R132). -/
  | payloadLength
  deriving DecidableEq, Repr

/-- CMD.OP (R121). -/
def cmdOp (w : Word) : BitVec 4 := w.extractLsb' 28 4
/-- CMD.CH (R121). -/
def cmdCh (w : Word) : BitVec 4 := w.extractLsb' 24 4
/-- CMD.CH2 (R121). -/
def cmdCh2 (w : Word) : BitVec 4 := w.extractLsb' 20 4
/-- CMD.RSV (R121). -/
def cmdRsv (w : Word) : BitVec 4 := w.extractLsb' 16 4
/-- CMD.COUNT (R121). -/
def cmdCount (w : Word) : BitVec 16 := w.extractLsb' 0 16

/-- A CMD word from its fields (R121). -/
def mkCmd (op ch ch2 rsv : BitVec 4) (count : BitVec 16) : Word := op ++ ch ++ ch2 ++ rsv ++ count

/-- How many payload words follow a command word (R132): COUNT for Q_WRITE, 1 for OPEN, none for any other. -/
def payloadLength (w : Word) : Nat :=
  if cmdOp w = 3 then (cmdCount w).toNat else if cmdOp w = 4 then 1 else 0

/-- Whether a list has exactly `n` entries. -/
def hasLength {α : Type} : Nat → List α → Bool
  | 0, [] => true
  | n + 1, _ :: l => hasLength n l
  | 0, _ :: _ => false
  | _ + 1, [] => false

/-- A command with a short or long payload cannot be presented (R126). -/
def payloadFits (w : Word) (payload : List Word) : Bool := hasLength (payloadLength w) payload

/-- The instruction a command word spells with a payload (R130 checks 1 and 2, in their order; R122, R123). -/
def decodeCommand (w : Word) (payload : List Word) : Except DecodeError Instr :=
  if cmdOp w = 0 ∨ 6 ≤ (cmdOp w).toNat then .error .illegalOpcode
  else if cmdRsv w ≠ 0 then .error .reservedBits
  else if cmdOp w = 1 then
    if cmdCh2 w ≠ 0 ∨ cmdCount w ≠ 0 then .error .fieldNotZero else .ok (.qInit (cmdCh w))
  else if cmdOp w = 2 then
    if cmdCh2 w ≠ 0 then .error .fieldNotZero else .ok (.qRead (cmdCh w) (cmdCount w))
  else if cmdOp w = 3 then
    if cmdCh2 w ≠ 0 then .error .fieldNotZero else .ok (.qWrite (cmdCh w) payload)
  else if cmdOp w = 4 then
    if cmdCount w ≠ 0 then .error .fieldNotZero
    else match payload with
      | ctx :: _ => .ok (.openPair (cmdCh w) (cmdCh2 w) ctx)
      | [] => .error .payloadLength
  else
    if cmdCh w ≠ 0 ∨ cmdCh2 w ≠ 0 ∨ cmdCount w ≠ 0 then .error .fieldNotZero else .ok .shutdown

/-- The instruction a bus record spells (R129): MODE 0 reads, MODE 1 writes. -/
def decodeBus (r : BusRec) : Instr := if r.write then .busWr16 r.addr r.data else .busRd16 r.addr

/-- Decoding, total on every packet. -/
def decode : Packet → Except DecodeError Instr
  | .command w payload =>
    match decodeCommand w payload with
    | .error e => .error e
    | .ok i => if payloadFits w payload then .ok i else .error .payloadLength
  | .bus r => .ok (decodeBus r)

/-- The packet of an instruction (R121-R123, R126, R129). -/
def encode : Instr → Packet
  | .qInit c => .command (mkCmd 1 c 0 0 0) []
  | .qRead c n => .command (mkCmd 2 c 0 0 n) []
  | .qWrite c words => .command (mkCmd 3 c 0 0 (BitVec.ofNat 16 words.length)) words
  | .openPair tx rx ctx => .command (mkCmd 4 tx rx 0 0) [ctx]
  | .shutdown => .command (mkCmd 5 0 0 0 0) []
  | .busRd16 a => .bus { write := false, addr := a, data := 0 }
  | .busWr16 a v => .bus { write := true, addr := a, data := v }

/-- The packet whose bits the host numbers as spec/opcode_table.json does. 32 bits: a command word, its payload words all
zero. The table gives the two bus rows no bits; the model numbers their record MODE 0, ADDR 32..1, DATA 48..33, in 7 bytes
(DESIGN CHOICE, log 24, safe: no rule reads it). -/
def tablePacket (nbits w : Nat) : Option Packet :=
  if nbits = 32 then
    let cmd := BitVec.ofNat 32 w
    some (.command cmd (List.replicate (payloadLength cmd) 0))
  else if nbits = 56 then
    some (.bus { write := w.testBit 0, addr := BitVec.ofNat 32 (w / 2), data := BitVec.ofNat 16 (w / 2 ^ 33) })
  else none

/-- The host's question: what the decoder reads from an instruction whose bits are `w`. -/
def decodeTableWord (nbits w : Nat) : Option Instr :=
  match tablePacket nbits w with
  | none => none
  | some pk =>
    match decode pk with
    | .ok i => some i
    | .error _ => none

/-- A list of words as assembler text. -/
def asmWords : List Word → String
  | [] => ""
  | [w] => toString w.toNat
  | w :: rest => toString w.toNat ++ "," ++ asmWords rest

/-- The assembler text of an instruction: R133 for the commands, R135 for the bus transactions. -/
def Instr.asm : Instr → String
  | .qInit c => "q.init " ++ toString c.toNat
  | .qRead c n => "q.read " ++ toString c.toNat ++ ", " ++ toString n.toNat
  | .qWrite c ws => "q.write " ++ toString c.toNat ++ ", " ++ toString ws.length ++ ", [" ++ asmWords ws ++ "]"
  | .openPair tx rx ctx => "q.open " ++ toString tx.toNat ++ ", " ++ toString rx.toNat ++ ", " ++ toString ctx.toNat
  | .shutdown => "q.shutdown"
  | .busRd16 a => "bus.rd16 " ++ toString a.toNat
  | .busWr16 a v => "bus.wr16 " ++ toString a.toNat ++ ", " ++ toString v.toNat

end Sys2Proof
end

