-- ==== Sys2Proof/Machine/State.lean ====
section
/-! DEFINITION. Everything the spec gives the machine, as plain data (spec/10_state.md), the state after reset (spec/70_reset_and_hazards.md R341), and the reasons a step can stop. -/

namespace Sys2Proof.Machine

/-- Response status codes (R270). Codes 0x8-0xF are never produced, so they have no constructor. -/
inductive Status where
  | ok
  | busError
  | invalidChannel
  | wouldBlock
  | timeout
  | protocolError
  | channelUnavailable
  | noSession
  deriving DecidableEq, Repr

/-- Fault codes (R280). `none` is 0x0, no fault; codes 0x6-0xF are never produced. -/
inductive FaultCode where
  | none
  | illegalCommand
  | zeroCount
  | channelRange
  | channelNotOpen
  | misalignedBusAddress
  deriving DecidableEq, Repr

/-- The direction of a channel (R24): DIR 0 and DIR 1. -/
inductive Dir where
  | hostToCompanion
  | companionToHost
  deriving DecidableEq, Repr

/-- One channel descriptor `Ch[i]` (R24). Sizes and offsets are the integers of the ring rules (R9, log 22). -/
structure Chan where
  valid : Bool
  inUse : Bool
  dir : Dir
  /-- `S`, the declared size. -/
  size : Nat
  base : Word
  rd : Nat
  wr : Nat
  cbValid : Bool
  cbClient : PortId
  cbCtx : Word
  deriving DecidableEq, Repr

/-- ZeroDesc: every field at its reset value (R24, R341). -/
def Chan.zero : Chan where
  valid := false
  inUse := false
  dir := .hostToCompanion
  size := 0
  base := 0
  rd := 0
  wr := 0
  cbValid := false
  cbClient := .client 0
  cbCtx := 0

/-- The session (R22). -/
structure Session where
  /-- `Sess.open`: true is Open, false is Closed. -/
  isOpen : Bool
  wedged : Bool
  lock : Option Requester
  /-- The opaque bus handle; no rule reads it. -/
  bus : Nat
  lastC2H : Half
  deriving DecidableEq, Repr

/-- `Wk.state` (R27). -/
inductive WkState where
  | idle
  | dispatching
  deriving DecidableEq, Repr

/-- `Wk.phase` (R27). `clearMbox m` carries the bitmap just read, the pseudocode's local `m` (R290). -/
inductive Phase where
  | idle
  | lock
  | readMbox
  | clearMbox (m : Half)
  | scan (k : Nat)
  | await (k : Nat)
  deriving DecidableEq, Repr

/-- The worker (R27). -/
structure Worker where
  state : WkState
  pending : Bool
  phase : Phase
  bitmap : Half
  deriving DecidableEq, Repr

/-- `Port[p].state` (R29). An executing port keeps the words it presented (log 13). -/
inductive PortState where
  | empty
  | requested (cmd : Word) (payload : List Word)
  | executing (cmd : Word) (payload : List Word)
  | responded (resp : Word) (data : List Word)
  deriving DecidableEq, Repr

/-- The client-side pseudo-instruction in progress on a port (R134, R255); the client's state, not the block's (log 20).
`ready` is true between two commands of the loop: a response has been taken and the next command not presented. -/
inductive Prog where
  | idle
  /-- `frame.read c`: the words got so far. -/
  | reading (ch : BitVec 4) (got : List Word) (ready : Bool)
  /-- `q.write_retry c, words`. -/
  | retrying (ch : BitVec 4) (words : List Word) (ready : Bool)
  /-- The pseudo-instruction's result. -/
  | done (st : Status) (got : List Word)
  deriving DecidableEq, Repr

/-- A command port with its client-side program. -/
structure Port where
  state : PortState
  prog : Prog
  deriving DecidableEq, Repr

def Port.reset : Port := { state := .empty, prog := .idle }

/-- The fault record (R30). -/
structure FaultRecord where
  code : FaultCode
  port : PortId
  cmd : Word
  deriving DecidableEq, Repr

/-- `Seq.step` with `Seq.locals` (R31): the next pseudocode step of the command that holds the lock, each label with the
locals alive there. `second` is true in OPEN's second Q_INIT body. -/
inductive Label where
  /-- No command is executing. -/
  | off
  /-- The lock is granted; the pseudocode has not begun. -/
  | entry
  /-- WaitIdle, about to poll (R156). -/
  | poll (second : Bool) (polls : Nat)
  /-- Q_INIT's descriptor reads (R205): the fields read so far; the low half of the next. -/
  | descLow (second : Bool) (fields : List Word)
  /-- The high half of that field. -/
  | descHigh (second : Bool) (fields : List Word) (lo : Half)
  /-- The refresh of the other offset (R210, R220): its low half. -/
  | offLow
  | offHigh (lo : Half)
  /-- Q_READ's slot reads: slots to read, words read, the offset after them. -/
  | getLow (slots : List Nat) (out : List Word) (r : Nat)
  | getHigh (slots : List Nat) (out : List Word) (r : Nat) (lo : Half)
  /-- Q_WRITE's slot writes: slots with their words, the offset after them. -/
  | putLow (todo : List (Nat × Word)) (w : Nat)
  | putHigh (todo : List (Nat × Word)) (w : Nat)
  /-- The write-back of the command's own offset; the response's count and data follow the command to its end. -/
  | backLow (off : Nat) (n : Nat) (out : List Word)
  | backHigh (off : Nat) (n : Nat) (out : List Word)
  /-- Doorbell (R163): the ReenableWait hold, then its three writes. -/
  | hold (n : Nat) (out : List Word)
  | bellSet (n : Nat) (out : List Word)
  | bellClear (n : Nat) (out : List Word)
  | bellIrq (n : Nat) (out : List Word)
  /-- `return Status(st, n)`: the response step (R124). -/
  | respond (st : Status) (n : Nat) (data : List Word)
  deriving DecidableEq, Repr

/-- The sequencer (R31). -/
structure Seq where
  owner : Option Requester
  cmd : Word
  step : Label
  deriving DecidableEq, Repr

/-- One half-word of companion memory at an even address; the spec never splits it (R78, log 8). -/
abbrev Cell := Nat × Half

/-- The companion-side state (R32-R38). -/
structure Comp where
  /-- `Comp.STATUS[BUSY_BIT]` (R33). -/
  busy : Bool
  h2c : Half
  c2h : Half
  irqFromHost : Nat
  /-- Half-words by address, in the canonical form of `Memory.wf`. -/
  mem : List Cell
  deriving DecidableEq, Repr

/-- What an unlisted half-word reads as. The spec leaves companion memory unspecified at reset (R341);
DESIGN CHOICE 0x0000 (log 7, unsafe). -/
def Memory.unlisted : Half := 0

/-- The canonical form: addresses strictly rising, no entry equal to what an unlisted address reads as. -/
def Memory.wf : List Cell → Bool
  | [] => true
  | [(_, v)] => decide (v ≠ Memory.unlisted)
  | (a, v) :: (b, u) :: rest => decide (a < b) && decide (v ≠ Memory.unlisted) && Memory.wf ((b, u) :: rest)

/-- Kinds of log event (R300). -/
inductive LogKind where
  | skipNotInUse
  | skipNoCallback
  | callbackFailed
  | workerBusError
  deriving DecidableEq, Repr

/-- `Log(kind, ch)` (R41); the channel is `none` for WORKER_BUS_ERROR. -/
structure LogEvent where
  kind : LogKind
  ch : Option Nat
  deriving DecidableEq, Repr

/-- A receive event handed to the handler (R295). -/
structure RxEvent where
  client : PortId
  ch : Nat
  ctx : Word
  deriving DecidableEq, Repr

/-- What the last bus transaction answered (R150, R151; the model's field, log 27). -/
inductive BusResult where
  /-- No transaction yet. -/
  | idle
  /-- `OK(v)` of a read. -/
  | value (v : Half)
  /-- `OK` of a write. -/
  | written
  /-- BUS_ERROR. -/
  | busError
  deriving DecidableEq, Repr

/-- The machine: the block, the companion's interface state, its parameters, and the model's own record of the
environment's choices (log 2, log 3, log 10). -/
structure State where
  cfg : Params
  sess : Session
  /-- `Arb.waiting` (R23). -/
  waiting : List Requester
  /-- `Ch[0..N_CH-1]` (R24). -/
  ch : List Chan
  wk : Worker
  /-- `Tm.armed` (R28). -/
  armed : Bool
  /-- Ports 0..N_CLIENTS-1 (R29). -/
  clients : List Port
  /-- Port H (R29). -/
  handlerPort : Port
  flt : FaultRecord
  seq : Seq
  comp : Comp
  /-- The receive event the handler is running on. -/
  rx : Option RxEvent
  /-- The log output, oldest first (R41). -/
  log : List LogEvent
  /-- The model's own: the answer of the last bus transaction. -/
  busResult : BusResult
  /-- The model's own: the draws of the coming atomic step. -/
  draw : Draw
  /-- The model's own: the coming atomic steps of the command that holds the lock. -/
  turns : List Turn
  /-- The model's own: the environment's coming steps. -/
  inputs : List Event
  /-- The model's own: how many free choices have been taken. -/
  clock : Nat
  deriving DecidableEq, Repr

/-- The machine right after reset, with given parameters (R341). Fields the table of R341 does not name hold the values
the assumption log names (log 7, 11, 12, 19, 20, 27). -/
def State.resetWith (p : Params) : State where
  cfg := p
  sess := { isOpen := true, wedged := false, lock := none, bus := 0, lastC2H := 0 }
  waiting := []
  ch := List.replicate p.nCh Chan.zero
  wk := { state := .idle, pending := false, phase := .idle, bitmap := 0 }
  armed := true
  clients := List.replicate p.nClients Port.reset
  handlerPort := Port.reset
  flt := { code := .none, port := .client 0, cmd := 0 }
  seq := { owner := none, cmd := 0, step := .off }
  comp := { busy := false, h2c := 0, c2h := 0, irqFromHost := 0, mem := [] }
  rx := none
  log := []
  busResult := .idle
  draw := Draw.good
  turns := []
  inputs := []
  clock := 0

/-- The machine right after reset. DESIGN CHOICE: the parameters are those of R8 (log 1). -/
def State.reset : State := State.resetWith Config.tc

/-- Why the model stops where no run of the block goes. The faults of the SPEC are not these: they are next states with
`flt` written (R280). -/
inductive Fault where
  /-- Raised by every meaning when the state shows no lock holder to run it for (R103: every command step and every bus
  transaction is the lock holder's). Safe: no run reaches it through `step`. -/
  | notGranted
  /-- Raised by every meaning when `Flt.code ≠ 0` (R281: no command step is enabled). Safe: `step` takes no block step then. -/
  | halted
  /-- Raised by a grant or a turn for a port that holds no decodable command. Safe: accept lets only decoded commands wait (R130). -/
  | noCommand
  deriving DecidableEq, Repr

/-- Why the model gives no meaning. -/
inductive Refusal where
  /-- Raised by an arm of exec whose instruction has no meaning yet. Safe. -/
  | notModelled (mnemonic : String)
  deriving DecidableEq, Repr

end Sys2Proof.Machine
end

