-- ==== Sys2Proof/Machine/Flags.lean ====
section
/-! DEFINITION. The block's flag-like computations: status and fault codes, the response word, empty and full, the BUSY bit of a status read (spec/30_encoding.md R124, spec/60_exceptions.md R270, R280, spec/41_queue_engine.md R191-R193, spec/10_state.md R33, R37, R39). -/

namespace Sys2Proof.Machine

/-- RESP.STATUS codes (R270). -/
def Status.bits : Status → BitVec 4
  | .ok => 0
  | .busError => 1
  | .invalidChannel => 2
  | .wouldBlock => 3
  | .timeout => 4
  | .protocolError => 5
  | .channelUnavailable => 6
  | .noSession => 7

/-- The status a response word carries (R270); 0x8-0xF are never produced. -/
def Status.ofBits (b : BitVec 4) : Option Status :=
  match b.toNat with
  | 0 => some .ok
  | 1 => some .busError
  | 2 => some .invalidChannel
  | 3 => some .wouldBlock
  | 4 => some .timeout
  | 5 => some .protocolError
  | 6 => some .channelUnavailable
  | 7 => some .noSession
  | _ => none

/-- Flt.code values (R280). -/
def FaultCode.bits : FaultCode → BitVec 4
  | .none => 0
  | .illegalCommand => 1
  | .zeroCount => 2
  | .channelRange => 3
  | .channelNotOpen => 4
  | .misalignedBusAddress => 5

/-- The RESP word (R124): STATUS [31:28], 0 in [27:16], COUNT [15:0]. -/
def respWord (st : Status) (n : Nat) : Word := st.bits ++ (0 : BitVec 12) ++ BitVec.ofNat 16 n

/-- RESP.STATUS (R124). -/
def respStatus (resp : Word) : Option Status := Status.ofBits (resp.extractLsb' 28 4)

/-- `used(r, w, S) = (w - r + S) mod S` (R191), for offsets below S. -/
def used (r w S : Nat) : Nat := (w + S - r) % S

/-- `free(r, w, S) = S - 1 - used(r, w, S)` (R192). -/
def free (r w S : Nat) : Nat := S - 1 - used r w S

/-- `r = w` means empty, never full (R193). -/
def ringEmpty (r w : Nat) : Bool := r == w

/-- The ring is full exactly when `free = 0`; `r = w` is never full (R193). -/
def ringFull (r w S : Nat) : Bool := free r w S == 0 && !(r == w)

/-- A status read (R33, R150): BUSY_BIT shows BUSY, every other bit is the draw's. -/
def statusRead (p : Params) (busy : Bool) (noise : Half) : Half :=
  let bit : Half := 1#16 <<< p.busyBit.val
  if busy then noise ||| bit else noise &&& ~~~bit

/-- Whether a status value read shows BUSY (R156). -/
def busySeen (p : Params) (v : Half) : Bool := v.getLsbD p.busyBit.val

/-- Whether a value written to REG_STATUS asserts the interrupt (R33, R151). -/
def irqWritten (p : Params) (v : Half) : Bool := v.getLsbD p.irqBit.val

/-- FLAGS.IN_USE, bit 0 (R37). -/
def flagsInUse (f : Word) : Bool := f.getLsbD 0

/-- FLAGS.DIR, bit 1 (R37). -/
def flagsDir (f : Word) : Dir := if f.getLsbD 1 then .companionToHost else .hostToCompanion

/-- FLAGS.NUM_WORDS, bits 31..16 (R37). -/
def flagsSize (f : Word) : Nat := (f.extractLsb' 16 16).toNat

/-- Whether the block is halted (R281): `Flt.code ≠ 0`. -/
def State.halted (s : State) : Bool := decide (s.flt.code ≠ .none)

end Sys2Proof.Machine
end

