-- ==== Sys2Proof/Machine/Operands.lean ====
section
/-! DEFINITION. Every operand form: the checks on channel and count operands (spec/30_encoding.md R128, R130), the companion addresses a command computes (spec/20_memory.md R74, R75), the halves of a 32-bit value (R77), and the ring spans (spec/41_queue_engine.md R195, R196). -/

namespace Sys2Proof.Machine

/-- Checks 3 and 4 of R130, in their order: a channel index out of range, then a count of zero. Bus records are not client commands. -/
def operandFault (p : Params) : Instr → Option FaultCode
  | .qInit c => if p.nCh ≤ c.toNat then some .channelRange else none
  | .qRead c n => if p.nCh ≤ c.toNat then some .channelRange else if n = 0 then some .zeroCount else none
  | .qWrite c words =>
    if p.nCh ≤ c.toNat then some .channelRange
    else match words with
      | [] => some .zeroCount
      | _ :: _ => none
  | .openPair tx rx _ => if p.nCh ≤ tx.toNat ∨ p.nCh ≤ rx.toNat then some .channelRange else none
  | .shutdown => none
  | .busRd16 _ => none
  | .busWr16 _ _ => none

/-- `v[15:0]` (R77). -/
def lowHalf (v : Word) : Half := v.extractLsb' 0 16

/-- `v[31:16]` (R77). -/
def highHalf (v : Word) : Half := v.extractLsb' 16 16

/-- `hi ++ lo` (R153). -/
def joinHalves (lo hi : Half) : Word := hi ++ lo

/-- An odd companion address (R80). -/
def oddAddress (a : Word) : Bool := a.getLsbD 0

/-- `D(c) = DESC_TABLE_BASE + 16·c` (R75). -/
def descAddr (p : Params) (c : BitVec 4) : Word := p.descTableBase + BitVec.ofNat 32 (16 * c.toNat)

/-- The k-th field of descriptor c: FLAGS, BASE, RD_OFF, WR_OFF at +0, +4, +8, +12 (R75). -/
def descField (p : Params) (c : BitVec 4) (k : Nat) : Word := descAddr p c + BitVec.ofNat 32 (4 * k)

/-- RD_OFF of channel c (R75). -/
def rdOffAddr (p : Params) (c : BitVec 4) : Word := descField p c 2

/-- WR_OFF of channel c (R75). -/
def wrOffAddr (p : Params) (c : BitVec 4) : Word := descField p c 3

/-- `slot(i, j) = Ch[i].base + 4·j`, modulo 2^32 (R74). -/
def slotAddr (base : Word) (j : Nat) : Word := base + BitVec.ofNat 32 (4 * j)

/-- The doorbell bit of a channel, `1 << ch` (R163). -/
def bellMask (c : BitVec 4) : Half := 1#16 <<< c.toNat

/-- The value TRIGGER_IRQ writes, `1 << IRQ_BIT` (R162). -/
def irqMask (p : Params) : Half := 1#16 <<< p.irqBit.val

/-- `norm(v, S)` (R195); `none` is PROTOCOL_ERROR. -/
def norm (v S : Nat) : Option Nat := if v < S then some v else if v = S then some 0 else none

/-- `readSpans(r, w, S, max)` (R196): the slots read, in order, and the new read offset. -/
def readSpans (r w S max : Nat) : List Nat × Nat :=
  let k1 := if r > w then min max (S - r) else 0
  let l1 := List.range' r k1
  let r1 := if r + k1 = S ∧ r > w then 0 else r + k1
  if k1 < max ∧ r1 ≤ w then
    let k2 := min (max - k1) (w - r1)
    (l1 ++ List.range' r1 k2, r1 + k2)
  else (l1, r1)

/-- `writeSpans(r, w, S, N)` (R196): the slots written, in order, and the new write offset. Q_WRITE calls it only with
`N ≤ free(r, w, S)`. -/
def writeSpans (r w S N : Nat) : List Nat × Nat :=
  let stop := if r = 0 then S - 1 else S
  let k1 := if w ≥ r then min N (stop - w) else 0
  let l1 := List.range' w k1
  let w1 := if w ≥ r ∧ w + k1 = S then 0 else w + k1
  if k1 < N then
    (l1 ++ List.range' w1 (N - k1), w1 + (N - k1))
  else (l1, w1)

end Sys2Proof.Machine
end

