-- ==== Sys2Proof/Machine/Ops.lean ====
section
/-! DEFINITION. The named operations over memory, descriptors, ports, the lock and the log; one bus transaction (spec/40_bus_driver.md R150, R151); raising a fault and the reset step, which are the block's exception entry and the only way back from it (spec/60_exceptions.md R280-R282, spec/70_reset_and_hazards.md R340); the response step (spec/30_encoding.md R124). -/

namespace Sys2Proof.Machine

/-! ### Companion memory -/

/-- The half-word at an address (R70). -/
def Memory.read : List Cell → Nat → Half
  | [], _ => Memory.unlisted
  | (b, v) :: rest, a => if a = b then v else Memory.read rest a

/-- Memory with the half-word at `a` set to `v`, in the canonical form. -/
def Memory.write : List Cell → Nat → Half → List Cell
  | [], a, v => if v = Memory.unlisted then [] else [(a, v)]
  | (b, u) :: rest, a, v =>
    if a < b then (if v = Memory.unlisted then (b, u) :: rest else (a, v) :: (b, u) :: rest)
    else if a = b then (if v = Memory.unlisted then rest else (a, v) :: rest)
    else (b, u) :: Memory.write rest a v

/-- The half-word of companion memory at a bus address. -/
def State.half (s : State) (a : Word) : Half := Memory.read s.comp.mem a.toNat

/-- The 32-bit word of companion memory at a bus address: low half at `a`, high half at `a+2` (R77). -/
def State.word (s : State) (a : Word) : Word := joinHalves (s.half a) (s.half (a + 2))

/-- `Comp.read16(a)` (R150): the registers first, then memory. -/
def Comp.read16 (p : Params) (noise : Half) (a : Word) (c : Comp) : Half :=
  if a = p.regStatus then statusRead p c.busy noise
  else if a = p.regH2C then c.h2c
  else if a = p.regC2H then c.c2h
  else Memory.read c.mem a.toNat

/-- `Comp.write16(a, v)` (R151): the interrupt trigger, the doorbell register, write-1-to-clear, or memory. -/
def Comp.write16 (p : Params) (a : Word) (v : Half) (c : Comp) : Comp :=
  if a = p.regStatus then (if irqWritten p v then { c with irqFromHost := c.irqFromHost + 1 } else c)
  else if a = p.regH2C then { c with h2c := v }
  else if a = p.regC2H then { c with c2h := c.c2h &&& ~~~v }
  else { c with mem := Memory.write c.mem a.toNat v }

/-! ### Descriptors, ports, sequencer -/

/-- `Ch[i]`; no channel at or above N_CH is ever valid (R293). -/
def State.chan (s : State) (i : Nat) : Chan := s.ch.getD i Chan.zero

/-- `Ch[i] <- d`. -/
def State.setChan (s : State) (i : Nat) (d : Chan) : State := { s with ch := s.ch.set i d }

/-- A descriptor as a Q_INIT that ends with any status but OK leaves it (R205, R39, D28): `valid` 0 and no callback. What only a
body, a read or a write stores stays. -/
def Chan.invalidated (d : Chan) : Chan := { d with valid := false, cbValid := false }

/-- A command port with its client-side program; a port that does not exist reads as empty. -/
def State.port (s : State) : PortId → Port
  | .client p => s.clients.getD p Port.reset
  | .handler => s.handlerPort

/-- Whether the block has this port (R29). -/
def State.hasPort (s : State) : PortId → Bool
  | .client p => decide (p < s.clients.length)
  | .handler => true

def State.setPort (s : State) (p : PortId) (v : Port) : State :=
  match p with
  | .client p => { s with clients := s.clients.set p v }
  | .handler => { s with handlerPort := v }

/-- `Port[p].state <- st`. -/
def State.setPortState (s : State) (p : PortId) (st : PortState) : State :=
  s.setPort p { s.port p with state := st }

/-- The client-side program on port `p`. -/
def State.setProg (s : State) (p : PortId) (g : Prog) : State :=
  s.setPort p { s.port p with prog := g }

/-- Whether a pseudo-instruction is in progress on the client's side of a port (R134, R255). -/
def Prog.active : Prog → Bool
  | .reading _ _ _ => true
  | .retrying _ _ _ => true
  | .idle => false
  | .done _ _ => false

/-- `Seq.step <- l`. -/
def State.goto (s : State) (l : Label) : State := { s with seq := { s.seq with step := l } }

/-- `Sess.wedged <- 1` (R275). -/
def State.wedge (s : State) : State := { s with sess := { s.sess with wedged := true } }

/-- `emit Log(kind, ch)` (R300). -/
def State.emit (s : State) (k : LogKind) (c : Option Nat) : State := { s with log := s.log ++ [{ kind := k, ch := c }] }

/-- `Arb.waiting ∪ {q}` (R100). -/
def State.addWaiting (s : State) (q : Requester) : State :=
  if s.waiting.contains q then s else { s with waiting := s.waiting ++ [q] }

/-- `Arb.waiting \ {q}` (R100). -/
def State.dropWaiting (s : State) (q : Requester) : State := { s with waiting := s.waiting.filter (fun x => x ≠ q) }

/-- The port whose command is executing. A worker's transaction has none; its register addresses are even, so it raises no
fault (R76), and `Flt.port` would show port 0 (log 21). -/
def State.commandPort (s : State) : PortId :=
  match s.seq.owner with
  | some (.port p) => p
  | _ => .client 0

/-! ### Fault entry and the return from it -/

/-- `raise Fault(code)` for a command word presented on port `p` (R280, R302): the fault record is written, and the block is
halted from here on. The lock stays held (R102). -/
def State.raiseOn (s : State) (code : FaultCode) (p : PortId) (cmd : Word) : State :=
  { s with flt := { code := code, port := p, cmd := cmd } }

/-- `raise Fault(code)` by the executing command (R280). -/
def State.raise (s : State) (code : FaultCode) : State := s.raiseOn code s.commandPort s.seq.cmd

/-- The platform's reset step (R340, R341): every piece of block state at its reset value, every port empty and its command
dropped. The companion is untouched (R343), the log is not erased. `bus` is the new connection's handle. -/
def State.resetStep (bus : Nat) (s : State) : State :=
  let f := State.resetWith s.cfg
  { f with sess := { f.sess with bus := bus }, comp := s.comp, log := s.log, inputs := s.inputs, clock := s.clock }

/-! ### Lock release and response -/

/-- `Sess.lock <- none; Seq.owner <- none` (R102). -/
def State.release (s : State) : State :=
  { s with sess := { s.sess with lock := none }, seq := { s.seq with owner := none, step := .off } }

/-- The response step (R124): the port gets its RESP word and data, the lock is released, Seq.owner is none. -/
def State.respond (s : State) (st : Status) (n : Nat) (data : List Word) : State :=
  (s.setPortState s.commandPort (.responded (respWord st n) data)).release

/-! ### One bus transaction -/

/-- BUS_RD16 (R150): an odd address faults before any transaction; a failed one answers BUS_ERROR; else the value the
companion holds there. A read changes nothing at the companion. -/
def State.busRead (a : Word) (s : State) : State :=
  if oddAddress a then s.raise .misalignedBusAddress
  else if s.draw.fail then { s with busResult := .busError }
  else { s with busResult := .value (s.comp.read16 s.cfg s.draw.noise a) }

/-- BUS_WR16 (R151): as for a read; a failed write took full effect or none, as drawn (R87). -/
def State.busWrite (a : Word) (v : Half) (s : State) : State :=
  if oddAddress a then s.raise .misalignedBusAddress
  else if s.draw.fail then
    { s with comp := if s.draw.landed then s.comp.write16 s.cfg a v else s.comp, busResult := .busError }
  else { s with comp := s.comp.write16 s.cfg a v, busResult := .written }

/-- The transaction of a bus record (R129). -/
def State.transact (r : BusRec) (s : State) : State :=
  match decodeBus r with
  | .busWr16 a v => s.busWrite a v
  | .busRd16 a => s.busRead a
  | _ => s

/-- The record of a 16-bit read (R129). -/
def rd16 (a : Word) : BusRec := { write := false, addr := a, data := 0 }

/-- The record of a 16-bit write (R129). -/
def wr16 (a : Word) (v : Half) : BusRec := { write := true, addr := a, data := v }

/-- One poll of WAIT_IDLE (R156). -/
def pollRecord (p : Params) : BusRec := rd16 p.regStatus

/-- MBOX_H2C_WRITE (R158). -/
def mboxH2CWrite (p : Params) (m : Half) : BusRec := wr16 p.regH2C m

/-- MBOX_C2H_READ (R159). -/
def mboxC2HRead (p : Params) : BusRec := rd16 p.regC2H

/-- MBOX_C2H_CLEAR (R160). -/
def mboxC2HClear (p : Params) (m : Half) : BusRec := wr16 p.regC2H m

/-- TRIGGER_IRQ (R162). -/
def triggerIrq (p : Params) : BusRec := wr16 p.regStatus (irqMask p)

/-- The first half of RD32 (R153): the low half-word. -/
def rd32Low (a : Word) : BusRec := rd16 a

/-- The second half of RD32 (R153): the high half-word, at `a+2` modulo 2^32. -/
def rd32High (a : Word) : BusRec := rd16 (a + 2)

/-- The first half of WR32 (R154). -/
def wr32Low (a v : Word) : BusRec := wr16 a (lowHalf v)

/-- The second half of WR32 (R154). -/
def wr32High (a v : Word) : BusRec := wr16 (a + 2) (highHalf v)

/-! ### Companion steps -/

/-- The interrupt input step (R287). -/
def State.interruptInput (s : State) : State :=
  if s.sess.isOpen ∧ s.halted = false then { s with wk := { s.wk with pending := true } } else s

/-- `c_reenable` ends a ReenableWait: the hold returns OK and the doorbell's first write comes next (R161, R163). It is
enabled only while a command is in the wait (R320). -/
def State.reenable (s : State) : State :=
  if s.halted then s
  else match s.seq.step with
    | .hold n out => s.goto (.bellSet n out)
    | _ => s

/-- One companion step (R320). -/
def State.companionStep (s : State) : CompAct → State
  | .mem a v =>
    if oddAddress a ∨ a = s.cfg.regStatus ∨ a = s.cfg.regH2C ∨ a = s.cfg.regC2H then s
    else { s with comp := { s.comp with mem := Memory.write s.comp.mem a.toNat v } }
  | .setC2H m => { s with comp := { s.comp with c2h := s.comp.c2h ||| m } }
  | .irq => s.interruptInput
  | .busy b => { s with comp := { s.comp with busy := b } }
  | .reenable => s.reenable
  | .consumeIrq => s

/-- Companion steps one after another. -/
def State.companionSteps (s : State) (acts : List CompAct) : State := acts.foldl State.companionStep s

end Sys2Proof.Machine
end

