-- ==== Sys2Proof/Machine/Sequencer.lean ====
section
/-! DEFINITION. What every command shares: the state checks at grant (spec/41_queue_engine.md R200), the idle-wait (spec/40_bus_driver.md R156), the doorbell (R161-R163), early ends (R197), and running a command through its atomic steps (spec/00_scope.md R12). -/

namespace Sys2Proof.Machine

/-- The channel whose `valid` bit the grant checks: Q_READ's and Q_WRITE's (R200). -/
def checkedChannel : Instr → Option (BitVec 4)
  | .qRead c _ => some c
  | .qWrite c _ => some c
  | _ => none

/-- A Q_INIT that ends with any status but OK leaves its channel with `valid` 0 and no callback (R205, R39, D28), also where it ends
before its body. The body's `Ch[c] <- ZeroDesc` has not run there, so size, base and offsets stay (R24, R25): a command that runs
on the channel goes on with them. No other command's descriptors change there: an OPEN has not begun a body either (R200, R226).
The step in which this happens is DEDUCED (log 33). -/
def State.failInit (i : Instr) (s : State) : State :=
  match i with
  | .qInit c => s.setChan c.toNat (s.chan c.toNat).invalidated
  | .openPair _ _ _ => s
  | .qRead _ _ => s
  | .qWrite _ _ => s
  | .shutdown => s
  | .busRd16 _ => s
  | .busWr16 _ _ => s

/-- A state check of R200 ends the command with `st`, without bus access. -/
def State.turnedAway (i : Instr) (st : Status) (s : State) : State := (s.failInit i).goto (.respond st 0 [])

/-- The beginning of a granted command, up to its first bus transaction: the operand checks (already made at accept, R130;
made again so that no other operands have a meaning, log 17), the state checks of R200 in their order, then `body`. -/
def State.enter (i : Instr) (body : State → State) (s : State) : State :=
  match operandFault s.cfg i with
  | some code => s.raise code
  | none =>
    if s.sess.isOpen = false then s.turnedAway i .noSession
    else if s.sess.wedged ∧ i ≠ .shutdown then s.turnedAway i .timeout
    else match checkedChannel i with
      | some c => if (s.chan c.toNat).valid then body s else s.raise .channelNotOpen
      | none => body s

/-- After one poll of WaitIdle (R156): idle goes on to `next`; busy polls again, or at IDLE_MAX_POLLS wedges the session and
ends the command TIMEOUT. -/
def State.afterPoll (second : Bool) (polls : Nat) (v : Half) (next : Label) (s : State) : State :=
  if busySeen s.cfg v = false then s.goto next
  else match s.cfg.idleMaxPolls with
    | none => s.goto (.poll second (polls + 1))
    | some m =>
      if m ≤ polls + 1 then s.wedge.goto (.respond .timeout 0 []) else s.goto (.poll second (polls + 1))

/-- The command ends early with `st` (R197): before the commit COUNT is 0 and there is no data; in the doorbell, after the
commit, the response keeps the words moved. -/
def State.endEarly (st : Status) (s : State) : State :=
  match s.seq.step with
  | .hold n out => s.goto (.respond st n out)
  | .bellSet n out => s.goto (.respond st n out)
  | .bellClear n out => s.goto (.respond st n out)
  | .bellIrq n out => s.goto (.respond st n out)
  | _ => s.goto (.respond st 0 [])

/-- The bus record of a doorbell step (R163, R158, R162). -/
def bellRecord (p : Params) (c : BitVec 4) : Label → Option BusRec
  | .bellSet _ _ => some (mboxH2CWrite p (bellMask c))
  | .bellClear _ _ => some (mboxH2CWrite p 0)
  | .bellIrq _ _ => some (triggerIrq p)
  | _ => none

/-- What follows a doorbell write that succeeded (R163). -/
def State.afterBell (s : State) : State :=
  match s.seq.step with
  | .bellSet n out => s.goto (.bellClear n out)
  | .bellClear n out => s.goto (.bellIrq n out)
  | .bellIrq n out => s.goto (.respond .ok n out)
  | _ => s

/-- The response step (R124), where that is what comes next. -/
def State.respondTurn (s : State) : State :=
  match s.seq.step with
  | .respond st n data => s.respond st n data
  | _ => s

/-- An atomic step that is no bus transaction: the response step, or a moment of the ReenableWait hold, which only
`c_reenable` or a timeout ends (R161). -/
def State.localTurn (s : State) : State :=
  match s.seq.step with
  | .hold n out => if s.cfg.reenableTimeout ∧ s.draw.timeout then s.wedge.goto (.respond .timeout n out) else s
  | _ => s.respondTurn

/-- One atomic step of a command: the bus transaction its position asks for and the local computation that follows it
(R12), or a local step. A faulting transaction ends the step; BUS_ERROR ends the command (R11, R87). -/
def State.turnWith (record : Option BusRec) (onValue : Half → State → State) (onWritten : State → State) (s : State) : State :=
  match record with
  | none => s.localTurn
  | some r =>
    let t := s.transact r
    if t.halted then t
    else match t.busResult with
      | .busError => t.endEarly .busError
      | .value v => onValue v t
      | .written => onWritten t
      | .idle => t

/-- Whether the command has ended: responded, or the block is halted. -/
def State.ended (s : State) : Bool := s.halted || decide (s.seq.step = .off)

/-- Running a command: for each coming turn the companion's steps, then one atomic step of the command (R90). Turns left
when it has ended are steps that never come. -/
def State.runTurns (turn : State → State) : List Turn → State → State
  | [], s => s
  | t :: ts, s =>
    if s.ended then s
    else State.runTurns turn ts (turn { s.companionSteps t.before with draw := t.draw })

/-- A command's meaning: if it has just been granted, its beginning (the grant's own atomic step, R200); then its turns.
A position that belongs to another command has no step: nothing moves. -/
def State.runCommand (begin' turn : State → State) (s : State) : Host.Outcome State Fault Refusal :=
  match s.seq.owner with
  | some (.port _) =>
    if s.halted then .fault .halted
    else if s.seq.step = .off then .fault .notGranted
    else
      let s1 := if s.seq.step = .entry then begin' s else s
      .next (State.runTurns turn s.turns { s1 with turns := [] })
  | _ => .fault .notGranted

end Sys2Proof.Machine
end

