-- ==== Sys2Proof/Machine/BusDriver.lean ====
section
/-! DEFINITION. The bus family: the meanings of BUS_RD16 and BUS_WR16 (spec/40_bus_driver.md R150, R151). -/

namespace Sys2Proof.Machine

/-- A bus transaction is issued by the lock holder, and by none while the block is halted (R103, R281). -/
def State.asLockHolder (f : State → State) (s : State) : Host.Outcome State Fault Refusal :=
  match s.seq.owner with
  | none => .fault .notGranted
  | some _ => if s.halted then .fault .halted else .next (f s)

/-- BUS_RD16 (R150). -/
def execBusRd16 (addr : Word) (s : State) : Host.Outcome State Fault Refusal := s.asLockHolder (State.busRead addr)

/-- BUS_WR16 (R151). -/
def execBusWr16 (addr : Word) (data : Half) (s : State) : Host.Outcome State Fault Refusal :=
  s.asLockHolder (State.busWrite addr data)

end Sys2Proof.Machine
end

