-- ==== Sys2Proof/Machine/Queue.lean ====
section
/-! DEFINITION. The ring-buffer queue engine: Q_INIT, Q_READ, Q_WRITE, OPEN and SHUTDOWN (spec/41_queue_engine.md R205-R230). For each command, the bus record of each pseudocode step and what follows its success. -/

namespace Sys2Proof.Machine

/-! ### The Q_INIT body (R205), shared by OPEN (R226) -/

/-- The body's start: `Ch[c] <- ZeroDesc`, then WaitIdle. -/
def State.startBody (second : Bool) (c : BitVec 4) (s : State) : State :=
  (s.setChan c.toNat Chan.zero).goto (.poll second 0)

/-- The body's transactions: the polls, then FLAGS, BASE, RD_OFF, WR_OFF, low half first. -/
def bodyRecord (p : Params) (c : BitVec 4) : Label → Option BusRec
  | .poll _ _ => some (pollRecord p)
  | .descLow _ fields => some (rd32Low (descField p c fields.length))
  | .descHigh _ fields _ => some (rd32High (descField p c fields.length))
  | _ => none

/-- The four failure conditions of R205 (D27 the fourth). -/
def descInvalid (f b rv wv : Word) : Bool :=
  decide (b = 0) || decide (f = 0) || decide (rv ≠ 0) || decide (wv ≠ 0) || decide (flagsSize f = 0)

/-- The descriptor a successful body stores (R205). -/
def descLoaded (f b : Word) : Chan where
  valid := true
  inUse := flagsInUse f
  dir := flagsDir f
  size := flagsSize f
  base := b
  rd := 0
  wr := 0
  cbValid := false
  cbClient := .client 0
  cbCtx := 0

/-- The body's end, once the four fields are read. -/
def State.finishBody (c : BitVec 4) (onOk : State → State) (bad : Status) (fields : List Word) (s : State) : State :=
  match fields with
  | [f, b, rv, wv] =>
    if descInvalid f b rv wv then s.goto (.respond bad 0 []) else onOk (s.setChan c.toNat (descLoaded f b))
  | _ => s

/-- What follows a read of the body: another poll, the next half, or the end. `bad` is the status of an invalid descriptor. -/
def State.bodyValue (c : BitVec 4) (onOk : State → State) (bad : Status) (v : Half) (s : State) : State :=
  match s.seq.step with
  | .poll second n => s.afterPoll second n v (.descLow second [])
  | .descLow second fields => s.goto (.descHigh second fields v)
  | .descHigh second fields lo =>
    let fields := fields ++ [joinHalves lo v]
    if fields.length < 4 then s.goto (.descLow second fields) else s.finishBody c onOk bad fields
  | _ => s

/-! ### Q_INIT (R205) -/

/-- One atomic step of Q_INIT. -/
def initTurn (c : BitVec 4) (s : State) : State :=
  s.turnWith (bodyRecord s.cfg c s.seq.step)
    (State.bodyValue c (fun t => t.goto (.respond .ok 0 [])) .invalidChannel) (fun t => t)

/-- Q_INIT (R205). -/
def execQInit (c : BitVec 4) (s : State) : Host.Outcome State Fault Refusal :=
  s.runCommand (State.enter (.qInit c) (State.startBody false c)) (initTurn c)

/-! ### Q_READ (R210) -/

/-- After the slots: the next slot read, or the write-back of the read offset. -/
def afterGet (slots : List Nat) (out : List Word) (r : Nat) : Label :=
  match slots with
  | [] => .backLow r out.length out
  | _ :: _ => .getLow slots out r

/-- Q_READ's transactions (R210): the poll, WR_OFF, the slots, RD_OFF, the doorbell. -/
def readRecord (p : Params) (c : BitVec 4) (base : Word) : Label → Option BusRec
  | .poll _ _ => some (pollRecord p)
  | .offLow => some (rd32Low (wrOffAddr p c))
  | .offHigh _ => some (rd32High (wrOffAddr p c))
  | .getLow (j :: _) _ _ => some (rd32Low (slotAddr base j))
  | .getHigh (j :: _) _ _ _ => some (rd32High (slotAddr base j))
  | .backLow off _ _ => some (wr32Low (rdOffAddr p c) (BitVec.ofNat 32 off))
  | .backHigh off _ _ => some (wr32High (rdOffAddr p c) (BitVec.ofNat 32 off))
  | l => bellRecord p c l

/-- The refresh of the cached write offset and the choice of slots (R210, R195, R196). -/
def State.readRefreshed (c : BitVec 4) (max : Nat) (wv : Word) (s : State) : State :=
  let d := s.chan c.toNat
  match norm wv.toNat d.size with
  | none => s.goto (.respond .protocolError 0 [])
  | some w =>
    let (slots, r) := readSpans d.rd w d.size max
    (s.setChan c.toNat { d with wr := w }).goto (afterGet slots [] r)

/-- What follows a read of Q_READ. -/
def State.readValue (c : BitVec 4) (max : Nat) (v : Half) (s : State) : State :=
  match s.seq.step with
  | .poll second n => s.afterPoll second n v .offLow
  | .offLow => s.goto (.offHigh v)
  | .offHigh lo => s.readRefreshed c max (joinHalves lo v)
  | .getLow slots out r => s.goto (.getHigh slots out r v)
  | .getHigh (_ :: slots) out r lo => s.goto (afterGet slots (out ++ [joinHalves lo v]) r)
  | _ => s

/-- What follows a write of Q_READ: after the write-back the read offset is committed (R197). -/
def State.readWritten (c : BitVec 4) (s : State) : State :=
  match s.seq.step with
  | .backLow off n out => s.goto (.backHigh off n out)
  | .backHigh off n out => (s.setChan c.toNat { s.chan c.toNat with rd := off }).goto (.hold n out)
  | _ => s.afterBell

/-- One atomic step of Q_READ. -/
def readTurn (c : BitVec 4) (max : Nat) (s : State) : State :=
  s.turnWith (readRecord s.cfg c (s.chan c.toNat).base s.seq.step) (State.readValue c max) (State.readWritten c)

/-- Q_READ (R210). -/
def execQRead (c : BitVec 4) (count : BitVec 16) (s : State) : Host.Outcome State Fault Refusal :=
  s.runCommand (State.enter (.qRead c count) (fun t => t.goto (.poll false 0))) (readTurn c count.toNat)

/-! ### Q_WRITE (R220) -/

/-- After the slots: the next slot write, or the publication of the write offset. -/
def afterPut (todo : List (Nat × Word)) (w n : Nat) : Label :=
  match todo with
  | [] => .backLow w n []
  | _ :: _ => .putLow todo w

/-- Q_WRITE's transactions (R220): the poll, RD_OFF, the slots, WR_OFF, the doorbell. -/
def writeRecord (p : Params) (c : BitVec 4) (base : Word) : Label → Option BusRec
  | .poll _ _ => some (pollRecord p)
  | .offLow => some (rd32Low (rdOffAddr p c))
  | .offHigh _ => some (rd32High (rdOffAddr p c))
  | .putLow ((j, v) :: _) _ => some (wr32Low (slotAddr base j) v)
  | .putHigh ((j, v) :: _) _ => some (wr32High (slotAddr base j) v)
  | .backLow off _ _ => some (wr32Low (wrOffAddr p c) (BitVec.ofNat 32 off))
  | .backHigh off _ _ => some (wr32High (wrOffAddr p c) (BitVec.ofNat 32 off))
  | l => bellRecord p c l

/-- The refresh of the cached read offset, the free-space check, and the choice of slots (R220, R195, R196). -/
def State.writeRefreshed (c : BitVec 4) (words : List Word) (rv : Word) (s : State) : State :=
  let d := s.chan c.toNat
  match norm rv.toNat d.size with
  | none => s.goto (.respond .protocolError 0 [])
  | some r =>
    let t := s.setChan c.toNat { d with rd := r }
    if free r d.wr d.size < words.length then t.goto (.respond .wouldBlock 0 [])
    else
      let (slots, w) := writeSpans r d.wr d.size words.length
      t.goto (afterPut (slots.zip words) w words.length)

/-- What follows a read of Q_WRITE. -/
def State.writeValue (c : BitVec 4) (words : List Word) (v : Half) (s : State) : State :=
  match s.seq.step with
  | .poll second n => s.afterPoll second n v .offLow
  | .offLow => s.goto (.offHigh v)
  | .offHigh lo => s.writeRefreshed c words (joinHalves lo v)
  | _ => s

/-- What follows a write of Q_WRITE: after the publication the write offset is committed (R197). -/
def State.writeWritten (c : BitVec 4) (words : List Word) (s : State) : State :=
  match s.seq.step with
  | .putLow todo w => s.goto (.putHigh todo w)
  | .putHigh (_ :: todo) w => s.goto (afterPut todo w words.length)
  | .backLow off n out => s.goto (.backHigh off n out)
  | .backHigh off n out => (s.setChan c.toNat { s.chan c.toNat with wr := off }).goto (.hold n out)
  | _ => s.afterBell

/-- One atomic step of Q_WRITE. -/
def writeTurn (c : BitVec 4) (words : List Word) (s : State) : State :=
  s.turnWith (writeRecord s.cfg c (s.chan c.toNat).base s.seq.step) (State.writeValue c words) (State.writeWritten c words)

/-- Q_WRITE (R220). -/
def execQWrite (c : BitVec 4) (words : List Word) (s : State) : Host.Outcome State Fault Refusal :=
  s.runCommand (State.enter (.qWrite c words) (fun t => t.goto (.poll false 0))) (writeTurn c words)

/-! ### OPEN (R226) -/

/-- Whether OPEN is in its second body. -/
def inSecondBody : Label → Bool
  | .poll second _ => second
  | .descLow second _ => second
  | .descHigh second _ _ => second
  | _ => false

/-- The callback registration of one channel (R226): the issuing port names the callback. -/
def State.register (x : BitVec 4) (ctx : Word) (s : State) : State :=
  s.setChan x.toNat { s.chan x.toNat with cbValid := true, cbClient := s.commandPort, cbCtx := ctx }

/-- After a body of OPEN succeeds: the second body on `rx`, or both registrations and OK. -/
def State.openNext (tx rx : BitVec 4) (ctx : Word) (second : Bool) (s : State) : State :=
  if second then ((s.register tx ctx).register rx ctx).goto (.respond .ok 0 []) else s.startBody true rx

/-- One atomic step of OPEN. -/
def openTurn (tx rx : BitVec 4) (ctx : Word) (s : State) : State :=
  let second := inSecondBody s.seq.step
  let c := if second then rx else tx
  s.turnWith (bodyRecord s.cfg c s.seq.step)
    (State.bodyValue c (State.openNext tx rx ctx second) .channelUnavailable) (fun t => t)

/-- OPEN (R226). -/
def execOpenPair (tx rx : BitVec 4) (ctx : Word) (s : State) : Host.Outcome State Fault Refusal :=
  s.runCommand (State.enter (.openPair tx rx ctx) (State.startBody false tx)) (openTurn tx rx ctx)

/-! ### SHUTDOWN (R230) -/

/-- SHUTDOWN's effects, all in the grant's step since it makes no transaction (R200, R230). -/
def State.shutDown (s : State) : State :=
  ({ s with
      ch := s.ch.map (fun _ => Chan.zero)
      sess := { s.sess with isOpen := false, lastC2H := 0 }
      armed := false
      wk := { s.wk with pending := false } } : State).goto (.respond .ok 0 [])

/-- SHUTDOWN (R230). -/
def execShutdown (s : State) : Host.Outcome State Fault Refusal :=
  s.runCommand (State.enter .shutdown State.shutDown) State.respondTurn

end Sys2Proof.Machine
end

