-- ==== Sys2Proof/Machine/Dispatch.lean ====
section
/-! DEFINITION. One arm per instruction. -/

namespace Sys2Proof.Machine

open Sys2Proof

def exec (i : Instr) (s : State) : Host.Outcome State Fault Refusal :=
  match i with
  | .qInit ch => Sys2Proof.Machine.execQInit ch s
  | .qRead ch count => Sys2Proof.Machine.execQRead ch count s
  | .qWrite ch words => Sys2Proof.Machine.execQWrite ch words s
  | .openPair tx rx ctx => Sys2Proof.Machine.execOpenPair tx rx ctx s
  | .shutdown => Sys2Proof.Machine.execShutdown s
  | .busRd16 addr => Sys2Proof.Machine.execBusRd16 addr s
  | .busWr16 addr data => Sys2Proof.Machine.execBusWr16 addr data s

end Sys2Proof.Machine
end

