-- ==== Sys2Proof/Machine/Ports.lean ====
section
/-! DEFINITION. The client side: presenting a command and taking a response (spec/10_state.md R29, spec/30_encoding.md R124), the accept step (R130), and the client-side pseudo-instructions q.write_retry, frame.write and frame.read (R134, spec/42_framing.md R250-R257). -/

namespace Sys2Proof.Machine

/-- A client or the handler presents a command and its payload as one unit on an empty port (R29, R126). A payload of
another length cannot be presented. -/
def State.present (p : PortId) (cmd : Word) (payload : List Word) (s : State) : State :=
  if s.hasPort p ∧ (s.port p).state = .empty ∧ payloadFits cmd payload then
    s.setPortState p (.requested cmd payload)
  else s

/-- A client presents a command of its own choice; a client inside a pseudo-instruction presents only that one's commands. -/
def State.clientPresent (p : PortId) (cmd : Word) (payload : List Word) (s : State) : State :=
  if (s.port p).prog.active then s else s.present p cmd payload

/-- Presenting an instruction's own packet. -/
def State.presentInstr (p : PortId) (i : Instr) (s : State) : State :=
  match encode i with
  | .command cmd payload => s.present p cmd payload
  | .bus _ => s

/-- The fault the accept step finds, in the order of R130. -/
def acceptFault (p : Params) (cmd : Word) (payload : List Word) : Option FaultCode :=
  match decodeCommand cmd payload with
  | .error _ => some .illegalCommand
  | .ok i => operandFault p i

/-- The accept step (R130). A faulting command's port stays Requested. -/
def State.accept (p : PortId) (s : State) : State :=
  if s.halted then s
  else match (s.port p).state with
    | .requested cmd payload =>
      match acceptFault s.cfg cmd payload with
      | some code => s.raiseOn code p cmd
      | none => (s.setPortState p (.executing cmd payload)).addWaiting (.port p)
    | _ => s

/-- The frame header (R251): TYPE, GRP, LEN from high to low. -/
def frameHeader (len : BitVec 16) (grp typ : BitVec 8) : Word := typ ++ grp ++ len

/-- LEN of a header word (R251, R253). -/
def frameLen (hdr : Word) : Nat := (hdr.extractLsb' 0 16).toNat

/-- FRAME_WRITE's expansion (R254): one Q_WRITE of the header and the payload words. -/
def frameWriteInstr (c : BitVec 4) (grp typ : BitVec 8) (words : List Word) : Instr :=
  .qWrite c (frameHeader (BitVec.ofNat 16 (1 + words.length)) grp typ :: words)

/-- What `frame.read` does next with the words got so far (R255): read again, or end with a status. -/
inductive FrameNext where
  | read (count : Nat)
  | finish (st : Status)
  deriving DecidableEq, Repr

/-- The loop of R255: the header first, then the checks on LEN, then the rest. -/
def frameNext (p : Params) (got : List Word) : FrameNext :=
  match got with
  | [] => .read 1
  | hdr :: _ =>
    let len := frameLen hdr
    if len = 0 then .finish .protocolError
    else match p.maxFrameWords with
      | some m =>
        if m < len then .finish .protocolError
        else if got.length < len then .read (len - got.length) else .finish .ok
      | none => if got.length < len then .read (len - got.length) else .finish .ok

/-- Whether the client on `p` may start a pseudo-instruction: its port is empty and none is in progress. -/
def State.clientFree (s : State) (p : PortId) : Bool :=
  s.hasPort p && decide ((s.port p).state = .empty) && !(s.port p).prog.active

/-- A client starts `frame.write` on an empty port; at most 65534 payload words (R254). -/
def State.frameWrite (p : PortId) (c : BitVec 4) (grp typ : BitVec 8) (words : List Word) (s : State) : State :=
  if words.length ≤ 65534 ∧ s.clientFree p then s.presentInstr p (frameWriteInstr c grp typ words) else s

/-- A client starts `frame.read` (R255). -/
def State.frameRead (p : PortId) (c : BitVec 4) (s : State) : State :=
  if s.clientFree p then s.setProg p (.reading c [] false) else s

/-- A client starts `q.write_retry` (R134). -/
def State.writeRetry (p : PortId) (c : BitVec 4) (words : List Word) (s : State) : State :=
  if s.clientFree p ∧ words.length < 65536 then s.setProg p (.retrying c words false) else s

/-- The pseudo-instruction in progress on `p` goes on: it presents its next command or ends (R134, R255). -/
def State.progress (p : PortId) (s : State) : State :=
  if s.hasPort p ∧ (s.port p).state = .empty then
    match (s.port p).prog with
    | .reading c got _ =>
      match frameNext s.cfg got with
      | .read n => (s.setProg p (.reading c got false)).presentInstr p (.qRead c (BitVec.ofNat 16 n))
      | .finish st => s.setProg p (.done st got)
    | .retrying c words _ => (s.setProg p (.retrying c words false)).presentInstr p (.qWrite c words)
    | _ => s
  else s

/-- `frame.read`'s deadline passes between two of its reads (R255, FRAME_DEADLINE). The session is not wedged. -/
def State.frameDeadline (p : PortId) (s : State) : State :=
  if s.cfg.frameDeadline ∧ (s.port p).state = .empty then
    match (s.port p).prog with
    | .reading _ got true => s.setProg p (.done .timeout got)
    | _ => s
  else s

/-- What a response means to the pseudo-instruction that waited for it (R134, R255). -/
def progAfter (g : Prog) (resp : Word) (data : List Word) : Prog :=
  match g with
  | .reading c got ready =>
    match respStatus resp with
    | some .ok => .reading c (got ++ data) true
    | some st => .done st got
    | none => .reading c got ready
  | .retrying c words ready =>
    match respStatus resp with
    | some .wouldBlock => .retrying c words true
    | some st => .done st []
    | none => .retrying c words ready
  | g => g

/-- The client takes the response, which empties the port (R124). -/
def State.take (p : PortId) (s : State) : State :=
  match (s.port p).state with
  | .responded resp data => s.setPort p { state := .empty, prog := progAfter (s.port p).prog resp data }
  | _ => s

end Sys2Proof.Machine
end

