-- ==== Sys2Proof/Machine/Worker.lean ====
section
/-! DEFINITION. The cross-domain interrupt controller: the timer, the worker's pass, the dispatch of receive events and the callback return (spec/60_exceptions.md R287-R300). -/

namespace Sys2Proof.Machine

/-- The timer fire step (R287). -/
def State.timerFire (s : State) : State :=
  if s.armed ∧ s.sess.isOpen ∧ s.halted = false then
    { s with armed := false, wk := { s.wk with pending := true } }
  else s

/-- The pass start step (R290). -/
def State.passStart (s : State) : State :=
  if s.wk.state = .idle ∧ s.wk.pending ∧ s.halted = false then
    { s with wk := { s.wk with pending := false, state := .dispatching, phase := .lock } }.addWaiting .worker
  else s

/-- Pass end (R297), one atomic step. -/
def State.passEnd (s : State) : State :=
  { s with
    armed := if s.sess.isOpen then true else s.armed
    wk := { s.wk with state := .idle, phase := .idle, bitmap := 0 } }

/-- Nothing is left to dispatch: the worker's next step is the pass end (log 6). -/
def State.noDispatch (s : State) : State := { s with wk := { s.wk with phase := .scan 0, bitmap := 0 } }

/-- The start of the locked phase, in the worker's grant (R290): a Closed session ends the pass without rearming, a wedged
one ends it without bus access, else the mailbox read is next. -/
def State.lockedPhase (s : State) : State :=
  if s.sess.isOpen = false then
    let t := s.release
    { t with wk := { t.wk with state := .idle, phase := .idle, bitmap := 0 } }
  else if s.sess.wedged then s.release.noDispatch
  else { s with wk := { s.wk with phase := .readMbox } }

/-- A BUS_ERROR in the locked phase (R290, R292): logged, nothing dispatched. -/
def State.workerBusError (s : State) : State := (s.emit .workerBusError none).release.noDispatch

/-- What follows the mailbox read (R290 step 2). -/
def State.afterMboxRead (s : State) : State :=
  match s.busResult with
  | .value m =>
    let t := { s with sess := { s.sess with lastC2H := m } }
    if m = 0 then t.release.noDispatch else { t with wk := { t.wk with phase := .clearMbox m } }
  | .busError => s.workerBusError
  | _ => s

/-- What follows the mailbox clear (R290 steps 3 and 4): the lock is released before any handler is invoked. -/
def State.afterMboxClear (m : Half) (s : State) : State :=
  match s.busResult with
  | .written =>
    let t := s.release
    { t with wk := { t.wk with bitmap := m, phase := .scan 0 } }
  | .busError => s.workerBusError
  | _ => s

/-- The lowest set bit of a bitmap at or above `k`. -/
def lowestBit (b : Half) (k : Nat) : Option Nat := (List.range 16).find? fun j => decide (k ≤ j) && b.getLsbD j

/-- The scan of one set bit (R293): logged and skipped, skipped silently (R294), or delivered to the handler (R295). -/
def State.scanBit (j : Nat) (s : State) : State :=
  let d := s.chan j
  let next := { s with wk := { s.wk with phase := .scan (j + 1) } }
  if s.cfg.nCh ≤ j ∨ d.valid = false ∨ d.inUse = false then next.emit .skipNotInUse (some j)
  else if d.dir = .hostToCompanion then next
  else if d.cbValid = false then next.emit .skipNoCallback (some j)
  else
    { s with
      wk := { s.wk with phase := .await j }
      rx := some { client := d.cbClient, ch := j, ctx := d.cbCtx } }

/-- One step of the worker's pass (R290, R293, R297): a bus transaction of the locked phase with what follows it, the next
set bit of the scan, or the pass end. -/
def State.workerStep (d : Draw) (s : State) : State :=
  if s.halted ∨ s.wk.state = .idle then s
  else match s.wk.phase with
    | .readMbox =>
      if s.seq.owner = some .worker then
        let t := { s with draw := d }.transact (mboxC2HRead s.cfg)
        if t.halted then t else t.afterMboxRead
      else s
    | .clearMbox m =>
      if s.seq.owner = some .worker then
        let t := { s with draw := d }.transact (mboxC2HClear s.cfg m)
        if t.halted then t else t.afterMboxClear m
      else s
    | .scan k =>
      match lowestBit s.wk.bitmap k with
      | some j => s.scanBit j
      | none => s.passEnd
    | _ => s

/-- The callback return (R296): `fail` is logged, and the scan goes on with the next set bit in the same step. Where no bit
is left the pass end is the next step (R297). Its effect is the worker's, so a halted block does not take it (log 15). While a
FRAME_READ the handler runs on port H has not returned, neither does the callback: the pass is held up (R256). The same holds
of a q.write_retry (DEDUCED, log 34). -/
def State.handlerReturn (ok : Bool) (s : State) : State :=
  if s.halted ∨ s.handlerPort.prog.active then s
  else match s.wk.phase with
    | .await k =>
      let t := { s with wk := { s.wk with phase := .scan (k + 1) }, rx := none }
      let t := if ok then t else t.emit .callbackFailed (some k)
      match lowestBit t.wk.bitmap (k + 1) with
      | some j => t.scanBit j
      | none => t
    | _ => s

end Sys2Proof.Machine
end

