-- ==== Sys2Proof/Machine/Events.lean ====
section
/-! DEFINITION. One step of each agent (spec/60_exceptions.md R310): which command a port holds, the arbiter's grant and timeout (spec/20_memory.md R100, R105), the choice of the next event, and placing an instruction for the next step. -/

namespace Sys2Proof.Machine

/-- The instruction a port's executing command spells. -/
def State.portInstr (s : State) (p : PortId) : Option Instr :=
  match (s.port p).state with
  | .executing cmd payload =>
    match decodeCommand cmd payload with
    | .ok i => some i
    | .error _ => none
  | _ => none

/-- The command word a port is executing. -/
def State.portCmd (s : State) (p : PortId) : Word :=
  match (s.port p).state with
  | .executing cmd _ => cmd
  | _ => 0

/-- Whether the arbiter may grant the lock to `q` (R100). -/
def State.canGrant (s : State) (q : Requester) : Bool :=
  decide (s.sess.lock = none) && s.waiting.contains q && !s.halted

/-- The grant's own assignments (R100): the requester leaves the waiting set and holds the lock. -/
def State.granted (q : Requester) (s : State) : State :=
  let t := s.dropWaiting q
  { t with sess := { t.sess with lock := some q }, seq := { t.seq with owner := some q } }

/-- The state a granted command begins in: the lock held, the sequencer at the command's entry, its coming turns set. -/
def State.grantedPort (p : PortId) (ts : List Turn) (s : State) : State :=
  let t := s.granted (.port p)
  { t with seq := { t.seq with cmd := s.portCmd p, step := .entry }, turns := ts }

/-- A grant (R100): a command begins, or the worker's locked phase (R290). -/
def State.grant (q : Requester) (ts : List Turn) (s : State) : Host.Outcome State Fault Refusal :=
  if s.canGrant q then
    match q with
    | .worker => .next (s.granted .worker).lockedPhase
    | .port p =>
      match s.portInstr p with
      | some i => exec i (s.grantedPort p ts)
      | none => .fault .noCommand
  else .next s

/-- Further atomic steps of the command that holds the lock. -/
def State.takeTurns (ts : List Turn) (s : State) : Host.Outcome State Fault Refusal :=
  match s.seq.owner with
  | some (.port p) =>
    if s.halted then .next s
    else match s.portInstr p with
      | some i => exec i { s with turns := ts }
      | none => .fault .noCommand
  | _ => .next s

/-- The lock timeout of a waiting requester (R105): the session is wedged; a port gets TIMEOUT, the worker's pass ends. A Q_INIT
that ends so leaves its channel with `valid` 0 and no callback, as any non-OK outcome does (R205, D28; log 33); the rest of the
descriptor, which a command that holds the lock may be working on, stays (R25). DESIGN CHOICE (log 36): R105 makes no
exception of any command, so a waiting SHUTDOWN gets TIMEOUT too, although R270 and R230 name no TIMEOUT for it. -/
def State.lockTimeout (q : Requester) (s : State) : State :=
  if s.cfg.lockTimeout ∧ s.waiting.contains q ∧ s.halted = false then
    let t := (s.dropWaiting q).wedge
    match q with
    | .port p =>
      let t := match s.portInstr p with
        | some i => t.failInit i
        | none => t
      t.setPortState p (.responded (respWord .timeout 0) [])
    | .worker => t.noDispatch
  else s

/-- One step of the agent an event names. A step that is not enabled does not happen: the state stays (log 4). -/
def State.perform (e : Event) (s : State) : Host.Outcome State Fault Refusal :=
  match e with
  | .present p cmd payload => .next (s.clientPresent p cmd payload)
  | .take p => .next (s.take p)
  | .accept p => .next (s.accept p)
  | .grant q ts => s.grant q ts
  | .turns ts => s.takeTurns ts
  | .lockTimeout q => .next (s.lockTimeout q)
  | .passStart => .next s.passStart
  | .worker d => .next (s.workerStep d)
  | .handlerReturn ok => .next (s.handlerReturn ok)
  | .timerFire => .next s.timerFire
  | .companion a => .next (s.companionStep a)
  | .frameWrite p c grp typ words => .next (s.frameWrite p c grp typ words)
  | .frameRead p c => .next (s.frameRead p c)
  | .writeRetry p c words => .next (s.writeRetry p c words)
  | .progress p => .next (s.progress p)
  | .frameDeadline p => .next (s.frameDeadline p)
  | .reset bus => .next (s.resetStep bus)

/-- The event that comes next: the first input, or the next free choice where none is written down (log 2). -/
def State.nextEvent (s : State) : Event × State :=
  match s.inputs with
  | e :: rest => (e, { s with inputs := rest })
  | [] => (Config.freeEvent s.clock, { s with clock := s.clock + 1 })

/-- One step of the machine: the next event's agent takes its step. -/
def State.advance (s : State) : Host.Outcome State Fault Refusal :=
  let (e, t) := s.nextEvent
  t.perform e

/-- Turns enough for any command to end when the companion does nothing but re-enable and nothing fails: every turn offers
the re-enable step, which is no step outside the hold (R320). -/
def placedTurns : List Turn := List.replicate 40 Turn.reenabled

/-- An instruction placed so that the very next step runs it (log 25). A command: client 0 is executing it and its grant
comes next. A bus record, which only a command or the worker issues (R164): client 0 is in a Q_READ or Q_WRITE of channel 0,
at the slot whose low half is the record's address, and one turn comes next. -/
def State.place (pk : Packet) (s : State) : State :=
  match pk with
  | .command cmd payload =>
    let t := s.setPortState (.client 0) (.executing cmd payload)
    let t := t.addWaiting (.port (.client 0))
    { t with
      flt := { t.flt with code := .none }
      sess := { t.sess with lock := none }
      seq := { t.seq with owner := none, step := .off }
      inputs := .grant (.port (.client 0)) placedTurns :: t.inputs }
  | .bus r =>
    let v : Word := r.data.setWidth 32
    let cmd := if r.write then mkCmd 3 0 0 0 1 else mkCmd 2 0 0 0 1
    let t := s.setPortState (.client 0) (.executing cmd (if r.write then [v] else []))
    let t := t.setChan 0 { Chan.zero with valid := true, size := 2, base := r.addr }
    { t with
      flt := { t.flt with code := .none }
      sess := { t.sess with lock := some (.port (.client 0)) }
      seq := { owner := some (.port (.client 0)), cmd := cmd
               step := if r.write then .putLow [(0, v)] 1 else .getLow [0] [] 1 }
      inputs := .turns [Turn.quiet] :: t.inputs }

/-- `State.place` of the packet the host's numbering gives; a numbering that names none places nothing. -/
def State.placeWord (nbits w : Nat) (s : State) : State :=
  match tablePacket nbits w with
  | some pk => s.place pk
  | none => s

end Sys2Proof.Machine
end

