-- ==== Sys2Proof/Machine/Step.lean ====
section
/-! DEFINITION. The step of the machine, and where the host places an instruction to be run next. -/

namespace Sys2Proof.Machine

/-- One step: the next event's agent takes its step (spec/00_scope.md R12, spec/60_exceptions.md R310). -/
def step (s : State) : Host.Outcome State Fault Refusal := s.advance

/-- `s` with an instruction placed for the very next step (log 25). -/
def State.withFetchWord (s : State) (nbits w : Nat) : State := s.placeWord nbits w

end Sys2Proof.Machine
end

