-- ==== Sys2Proof/Machine/Trace.lean ====
section
/-! DEFINITION. The atomic steps inside a step of the machine (spec/00_scope.md R12, spec/20_memory.md R90): each as a step of its own, with the states before and after it. The premises on the environment in Sys2Proof/Safety.lean speak of these, so that a burst hides nothing from them. -/

namespace Sys2Proof.Machine

/-! ### A command's parts -/

/-- Whether an instruction is a client command, and no bus transaction. -/
def isCommand : Instr → Bool
  | .qInit _ => true
  | .qRead _ _ => true
  | .qWrite _ _ => true
  | .openPair _ _ _ => true
  | .shutdown => true
  | .busRd16 _ => false
  | .busWr16 _ _ => false

/-- A command's pseudocode after the state checks, up to its first transaction. -/
def commandBody : Instr → State → State
  | .qInit c => State.startBody false c
  | .qRead _ _ => fun t => t.goto (.poll false 0)
  | .qWrite _ _ => fun t => t.goto (.poll false 0)
  | .openPair tx _ _ => State.startBody false tx
  | .shutdown => State.shutDown
  | .busRd16 _ => id
  | .busWr16 _ _ => id

/-- One atomic step of a command. -/
def commandTurn : Instr → State → State
  | .qInit c => initTurn c
  | .qRead c n => readTurn c n.toNat
  | .qWrite c words => writeTurn c words
  | .openPair tx rx ctx => openTurn tx rx ctx
  | .shutdown => State.respondTurn
  | .busRd16 _ => id
  | .busWr16 _ _ => id

/-- The bus transaction a command's next atomic step makes. -/
def turnRecord (i : Instr) (s : State) : Option BusRec :=
  match i with
  | .qInit c => bodyRecord s.cfg c s.seq.step
  | .qRead c _ => readRecord s.cfg c (s.chan c.toNat).base s.seq.step
  | .qWrite c _ => writeRecord s.cfg c (s.chan c.toNat).base s.seq.step
  | .openPair tx rx _ => bodyRecord s.cfg (if inSecondBody s.seq.step then rx else tx) s.seq.step
  | .shutdown => none
  | .busRd16 _ => none
  | .busWr16 _ _ => none

/-- The state a command is in once its coming turns have been taken off: begun, where the lock has just been granted. -/
def State.begun (i : Instr) (s : State) : State :=
  { (if s.seq.step = .entry then s.enter i (commandBody i) else s) with turns := [] }

/-- The instruction the lock holder's port is executing. -/
def State.currentInstr (s : State) : Option Instr :=
  match s.seq.owner with
  | some (.port p) => s.portInstr p
  | _ => none

/-! ### Moments -/

/-- One atomic step: the state before it, the event that names it, the state after it. A grant's moment is the grant's own
step, with no turns; a command's is one turn before which the companion does nothing. -/
structure Moment where
  before : State
  event : Event
  after : State
  deriving DecidableEq, Repr

/-- Companion steps, one moment each (R320). -/
def companionMoments : List CompAct → State → List Moment
  | [], _ => []
  | a :: rest, s => { before := s, event := .companion a, after := s.companionStep a } :: companionMoments rest (s.companionStep a)

/-- The moments of a run of turns: for each turn the companion's steps, then the command's. -/
def turnMoments (turn : State → State) : List Turn → State → List Moment
  | [], _ => []
  | t :: ts, s =>
    if s.ended then []
    else
      let u := s.companionSteps t.before
      let v := turn { u with draw := t.draw }
      companionMoments t.before s ++
        { before := u, event := .turns [{ before := [], draw := t.draw }], after := v } :: turnMoments turn ts v

/-- The moments of an event's step. An event whose step is not enabled has none, or one that changes nothing (log 4). -/
def State.momentsOf (e : Event) (s : State) : List Moment :=
  match e with
  | .grant (.port p) ts =>
    if s.canGrant (.port p) then
      match s.portInstr p with
      | some i =>
        let u := (s.grantedPort p ts).begun i
        { before := s, event := .grant (.port p) [], after := u } :: turnMoments (commandTurn i) ts u
      | none => []
    else []
  | .turns ts =>
    if s.halted then []
    else match s.currentInstr with
      | some i => turnMoments (commandTurn i) ts s
      | none => []
  | e =>
    match s.perform e with
    | .next t => [{ before := s, event := e, after := t }]
    | _ => []

/-- The event taken at a state. -/
def State.event (s : State) : Event := s.nextEvent.1

/-- The moments of the machine's next step. -/
def State.moments (s : State) : List Moment := s.nextEvent.2.momentsOf s.event

/-- The states the machine's next step goes through: where it starts, and the state after each moment. -/
def State.stages (s : State) : List State := s :: s.moments.map Moment.after

end Sys2Proof.Machine
end

