-- ==== Sys2Proof/Safety.lean ====
section
/-! DEFINITION. The terms claims use: the invariants of the machine, the placement premises of spec/20_memory.md R76, the companion's duties (spec/60_exceptions.md R322) and the liveness premises (spec/70_reset_and_hazards.md R367). -/

namespace Sys2Proof.Machine

/-! ### Invariants -/

/-- The bounds of R26 on one descriptor. -/
def Chan.bounded (d : Chan) : Prop := 1 ≤ d.size ∧ d.size ≤ 65535 ∧ d.rd < d.size ∧ d.wr < d.size

/-- The companion's memory is in its canonical form. -/
def State.MemInv (s : State) : Prop := Memory.wf s.comp.mem = true

/-- Whether a label lies between a Q_READ's or Q_WRITE's state checks and its commit. -/
def beforeCommit : Label → Bool
  | .poll _ _ => true
  | .offLow => true
  | .offHigh _ => true
  | .getLow _ _ _ => true
  | .getHigh _ _ _ _ => true
  | .putLow _ _ => true
  | .putHigh _ _ => true
  | .backLow _ _ _ => true
  | .backHigh _ _ _ => true
  | _ => false

/-- The new offset a label carries to the command's commit. -/
def carriedOffset : Label → Option Nat
  | .getLow _ _ r => some r
  | .getHigh _ _ r _ => some r
  | .putLow _ w => some w
  | .putHigh _ w => some w
  | .backLow off _ _ => some off
  | .backHigh off _ _ => some off
  | _ => none

/-- Whether the lock holder's command is a Q_READ or Q_WRITE of channel `c` that has not committed. -/
def State.accessing (s : State) (c : BitVec 4) : Bool :=
  match s.currentInstr with
  | some i => decide (checkedChannel i = some c) && beforeCommit s.seq.step
  | none => false

/-- R26, with what keeps it: every valid descriptor is bounded, and a Q_READ or Q_WRITE that has not committed works on a bounded
descriptor and carries an offset below its size. Its channel is valid, but with LOCK_TIMEOUT a Q_INIT that times out may take
`valid`, and only that and the callback, from under it (R105, R205; log 33). -/
structure State.RingInv (s : State) : Prop where
  bounded : ∀ i, (s.chan i).valid = true → (s.chan i).bounded
  running : ∀ c, s.accessing c = true →
    (s.cfg.lockTimeout = false → (s.chan c.toNat).valid = true) ∧ (s.chan c.toNat).bounded ∧
      ∀ off, carriedOffset s.seq.step = some off → off < (s.chan c.toNat).size

/-- R103 and the worker's coherence (R27, R290, R298): one lock holder, who is the sequencer's owner; a command has a
position exactly while it holds the lock; the worker waits in phase Lock, holds the lock exactly in ReadMbox and ClearMbox, and
is Idle exactly outside a pass, with no bitmap left. -/
structure State.LockInv (s : State) : Prop where
  holder : s.sess.lock = s.seq.owner
  position : s.seq.step = .off ↔ ∀ p, s.seq.owner ≠ some (.port p)
  once : s.waiting.Nodup
  holderLeft : ∀ q, s.sess.lock = some q → q ∉ s.waiting
  idle : s.wk.state = .idle ↔ s.wk.phase = .idle
  idleBitmap : s.wk.state = .idle → s.wk.bitmap = 0
  waits : s.wk.phase = .lock ↔ Requester.worker ∈ s.waiting
  holds : s.seq.owner = some .worker ↔ s.wk.phase = .readMbox ∨ ∃ m, s.wk.phase = .clearMbox m

/-- The command ports' coherence (R29, R126, R130): a presented payload has its length; an executing command is one the
accept step let through; who waits or holds the lock is executing, the holder the command the sequencer shows. -/
structure State.PortInv (s : State) : Prop where
  presented : ∀ p cmd payload, (s.port p).state = .requested cmd payload → payloadFits cmd payload = true
  accepted : ∀ p cmd payload, (s.port p).state = .executing cmd payload →
    payloadFits cmd payload = true ∧ acceptFault s.cfg cmd payload = none
  waiting : ∀ p, Requester.port p ∈ s.waiting → ∃ cmd payload, (s.port p).state = .executing cmd payload
  holding : ∀ p, s.seq.owner = some (.port p) → ∃ payload, (s.port p).state = .executing s.seq.cmd payload

/-- The channel whose Q_INIT body (R205) a command is in at a label: Q_INIT's own, OPEN's `tx` or `rx` (R226). -/
def bodyChannel (i : Instr) (l : Label) : Option (BitVec 4) :=
  let inBody : Bool :=
    match l with
    | .poll _ _ => true
    | .descLow _ _ => true
    | .descHigh _ _ _ => true
    | _ => false
  match i with
  | .qInit c => if inBody then some c else none
  | .openPair tx rx _ => if inBody then some (if inSecondBody l then rx else tx) else none
  | .qRead _ _ => none
  | .qWrite _ _ => none
  | .shutdown => none
  | .busRd16 _ => none
  | .busWr16 _ _ => none

/-- R205: while a Q_INIT body runs, the channel it initialises is ZeroDesc. -/
def State.BodyInv (s : State) : Prop :=
  ∀ i c, s.currentInstr = some i → bodyChannel i s.seq.step = some c → s.chan c.toNat = Chan.zero

/-- R24: the table has N_CH descriptors. -/
def State.TableInv (s : State) : Prop := s.ch.length = s.cfg.nCh

/-- The machine's invariant. -/
structure State.Inv (s : State) : Prop where
  mem : s.MemInv
  table : s.TableInv
  body : s.BodyInv
  ring : s.RingInv
  lock : s.LockInv
  ports : s.PortInv

/-- While the session is Closed no timer is armed and no pass is pending (R230, R287). -/
def State.ClosedInv (s : State) : Prop := s.sess.isOpen = false → s.armed = false ∧ s.wk.pending = false

/-! ### Where a command stands, and what it leaves alone -/

/-- A command of port `p` has just been granted the lock (R100): its pseudocode begins next. -/
structure State.AtEntry (s : State) (p : PortId) : Prop where
  owner : s.seq.owner = some (.port p)
  entry : s.seq.step = .entry
  running : s.halted = false
  port : s.hasPort p = true

/-- The session serves commands (R200): Open and not wedged. -/
structure State.Serving (s : State) : Prop where
  isOpen : s.sess.isOpen = true
  wedged : s.sess.wedged = false

/-- Parameters and table in order, and the companion not busy. -/
structure State.Ready (s : State) : Prop where
  cfg : s.cfg.wf = true
  table : s.ch.length = s.cfg.nCh
  idle : s.comp.busy = false

/-- `t` shows port `p`'s response and the lock released (R124, R102). -/
structure State.Answered (t : State) (p : PortId) (st : Status) (n : Nat) (data : List Word) : Prop where
  response : (t.port p).state = .responded (respWord st n) data
  lock : t.sess.lock = none
  owner : t.seq.owner = none

/-- What no Q_INIT, Q_READ, Q_WRITE or OPEN changes: parameters, arbiter, worker, timer, log, handler's event, inputs, the
session but `wedged` and `lock`, the sequencer's command, every other port, every port's client program, BUSY, and the fault
record unless the command faulted. -/
structure State.SameOutside (s t : State) : Prop where
  cfg : t.cfg = s.cfg
  waiting : t.waiting = s.waiting
  wk : t.wk = s.wk
  armed : t.armed = s.armed
  rx : t.rx = s.rx
  log : t.log = s.log
  inputs : t.inputs = s.inputs
  clock : t.clock = s.clock
  isOpen : t.sess.isOpen = s.sess.isOpen
  bus : t.sess.bus = s.sess.bus
  lastC2H : t.sess.lastC2H = s.sess.lastC2H
  wedged : s.sess.wedged = true → t.sess.wedged = true
  lock : t.sess.lock = s.sess.lock ∨ t.sess.lock = none
  owner : t.seq.owner = s.seq.owner ∨ t.seq.owner = none
  cmd : t.seq.cmd = s.seq.cmd
  flt : t.halted = false → t.flt = s.flt
  otherPorts : ∀ q, s.seq.owner ≠ some (.port q) → t.port q = s.port q
  progs : ∀ q, (t.port q).prog = (s.port q).prog
  busy : t.comp.busy = s.comp.busy

/-- The half-words a Q_WRITE has still to store to, from where it stands: the slots it will write, then WR_OFF. -/
def State.writeStores (s : State) (c : BitVec 4) (words : List Word) : List Word :=
  let d := s.chan c.toNat
  let slots (rv : Word) : List Nat :=
    match norm rv.toNat d.size with
    | none => []
    | some r => (writeSpans r d.wr d.size words.length).1
  let todo : List Nat :=
    match s.seq.step with
    | .entry => slots (s.word (rdOffAddr s.cfg c))
    | .poll _ _ => slots (s.word (rdOffAddr s.cfg c))
    | .offLow => slots (s.word (rdOffAddr s.cfg c))
    | .offHigh lo => slots (joinHalves lo (s.half (rdOffAddr s.cfg c + 2)))
    | .putLow todo _ => todo.map Prod.fst
    | .putHigh todo _ => todo.map Prod.fst
    | _ => []
  todo.flatMap (fun j => [slotAddr d.base j, slotAddr d.base j + 2]) ++ [wrOffAddr s.cfg c, wrOffAddr s.cfg c + 2]

/-! ### Premises on the environment -/

/-- The registers and the descriptor table (R76). -/
def reservedAddrs (p : Params) : List Word := [p.regStatus, p.regH2C, p.regC2H] ++ p.descriptorHalves

/-- The ring of a descriptor lies in plain companion memory: BASE even, no half of a slot a register or a descriptor field
(R38, R76, R350). -/
def ringPlaced (p : Params) (d : Chan) : Bool :=
  !oddAddress d.base &&
    (List.range d.size).all fun j =>
      !(reservedAddrs p).contains (slotAddr d.base j) && !(reservedAddrs p).contains (slotAddr d.base j + 2)

/-- Every coming turn goes well: no transaction fails, and the companion does nothing but re-enable. -/
def State.smooth (s : State) : Bool := s.turns.all fun t => !t.draw.fail && decide (t.before = [.reenable])

/-- In the coming turns the companion takes no step but `c_reenable`, whatever fails. -/
def State.companionSilent (s : State) : Bool := s.turns.all fun t => t.before.all fun a => decide (a = .reenable)

/-! ### Places in a run -/

/-- A run of the machine. -/
def IsRun (r : Nat → State) : Prop := ∀ n, step (r n) = .next (r (n + 1))

/-- A place in a run: a step of the machine, and a place among the atomic steps inside it. -/
structure Place where
  step : Nat
  inner : Nat
  deriving DecidableEq, Repr

/-- One place comes before another. -/
def Place.before (a b : Place) : Prop := a.step < b.step ∨ a.step = b.step ∧ a.inner < b.inner

/-- The atomic step taken at a place. -/
def momentAt (r : Nat → State) (a : Place) : Option Moment := (r a.step).moments[a.inner]?

/-- The state at a place, before the atomic step taken there. -/
def stageAt (r : Nat → State) (a : Place) : Option State := (r a.step).stages[a.inner]?

/-- Something holds at every stage of the run from its n-th step on. -/
def Always (r : Nat → State) (n : Nat) (P : State → Prop) : Prop := ∀ m, n ≤ m → ∀ s ∈ (r m).stages, P s

/-- An atomic step of a kind is taken in the n-th step of the run or later. -/
def Eventually (r : Nat → State) (n : Nat) (P : Moment → Prop) : Prop := ∃ m, n ≤ m ∧ ∃ x ∈ (r m).moments, P x

/-! ### The companion's duties (R322)

What the companion does inside before it acts (it has read the slots it passes) is not in the model (log 31). -/

/-- A freshly reset descriptor (R322, R350): FLAGS ≠ 0 with NUM_WORDS ≥ 1, BASE ≠ 0 and even, both offsets 0. -/
def State.freshDescriptor (s : State) (c : BitVec 4) : Prop :=
  s.word (descField s.cfg c 0) ≠ 0 ∧ 1 ≤ flagsSize (s.word (descField s.cfg c 0)) ∧
    s.word (descField s.cfg c 1) ≠ 0 ∧ oddAddress (s.word (descField s.cfg c 1)) = false ∧
    s.word (rdOffAddr s.cfg c) = 0 ∧ s.word (wrOffAddr s.cfg c) = 0

/-- The channels an instruction initialises: Q_INIT's, and both of OPEN's. -/
def initChannels : Instr → List (BitVec 4)
  | .qInit c => [c]
  | .openPair tx rx _ => [tx, rx]
  | .qRead _ _ => []
  | .qWrite _ _ => []
  | .shutdown => []
  | .busRd16 _ => []
  | .busWr16 _ _ => []

/-- A Q_INIT or OPEN of channel `c` begins at this place: the grant of a port whose command it is. -/
def beginsInit (r : Nat → State) (c : BitVec 4) (a : Place) : Prop :=
  ∃ x p ts i, momentAt r a = some x ∧ x.event = .grant (.port p) ts ∧ x.before.portInstr p = some i ∧ c ∈ initChannels i

/-- COMP_FRESH (R322) for channel `c`: every Q_INIT or OPEN of it begins on a fresh descriptor, and from there FLAGS and BASE
do not change until the next one begins, the reads of the command itself included (R359). -/
def compFresh (r : Nat → State) (c : BitVec 4) : Prop :=
  ∀ a s, beginsInit r c a → stageAt r a = some s →
    s.freshDescriptor c ∧
    ∀ b t, a.before b → stageAt r b = some t → (∀ x, a.before x → x.before b → ¬ beginsInit r c x) →
      t.word (descField t.cfg c 0) = s.word (descField s.cfg c 0) ∧
      t.word (descField t.cfg c 1) = s.word (descField s.cfg c 1)

/-- The half-words of slot j. -/
def slotHalves (d : Chan) (j : Nat) : List Word := [slotAddr d.base j, slotAddr d.base j + 2]

/-- Whether the lock holder's command initialises channel `c`: from its grant (R100) to its response (R124). -/
def State.initialising (s : State) (c : BitVec 4) : Prop :=
  s.seq.step ≠ .off ∧ ∃ i, s.currentInstr = some i ∧ c ∈ initChannels i

/-- Whether the block uses the descriptor of channel `c`: it is valid, or a Q_READ or Q_WRITE of it has not committed, from under
which a lock timeout may have taken `valid` (log 33). -/
def State.usesDescriptor (s : State) (c : BitVec 4) : Bool := (s.chan c.toNat).valid || s.accessing c

/-- When the companion is held to a channel's duties: while the block uses its descriptor, and while a Q_INIT or OPEN of it runs,
from its grant on. Outside, the companion may set the descriptor up anew (R350, R351, R360; log 35). -/
def State.inService (s : State) (c : BitVec 4) : Prop := s.usesDescriptor c = true ∨ s.initialising c

/-- The ring the duties of a channel speak of: its descriptor's while the block uses it, or what the companion's FLAGS and BASE say
where the block has not taken them over yet. -/
def State.ring (s : State) (c : BitVec 4) : Chan :=
  if s.usesDescriptor c then s.chan c.toNat
  else descLoaded (s.word (descField s.cfg c 0)) (s.word (descField s.cfg c 1))

/-- What COMP_CONSUMER (R322) allows the companion on channel `c`: it writes only RD_OFF, and moves it only forward over queued
words. -/
def State.consumerStep (s : State) (c : BitVec 4) : CompAct → Prop
  | .mem a v =>
    let d := s.ring c
    let r := (s.word (rdOffAddr s.cfg c)).toNat
    let w := (s.word (wrOffAddr s.cfg c)).toNat
    (∀ j, j < d.size → a ∉ slotHalves d j) ∧
      (∀ k, k ≠ 2 → k < 4 → a ≠ descField s.cfg c k ∧ a ≠ descField s.cfg c k + 2) ∧
      (a = rdOffAddr s.cfg c + 2 → v = 0) ∧
      (a = rdOffAddr s.cfg c → v.toNat < d.size ∧ used r v.toNat d.size ≤ used r w d.size)
  | _ => True

/-- What COMP_PRODUCER (R322) allows the companion on channel `c`: it writes only WR_OFF, forward and never past `used = S - 1`,
as a value at most S, and free slots, which a published WR_OFF no longer leaves free. -/
def State.producerStep (s : State) (c : BitVec 4) : CompAct → Prop
  | .mem a v =>
    let d := s.ring c
    let r := (s.word (rdOffAddr s.cfg c)).toNat
    let w := (s.word (wrOffAddr s.cfg c)).toNat
    (∀ j, j < d.size → a ∈ slotHalves d j → used w j d.size < free r w d.size) ∧
      (∀ k, k < 3 → a ≠ descField s.cfg c k ∧ a ≠ descField s.cfg c k + 2) ∧
      (a = wrOffAddr s.cfg c + 2 → v = 0) ∧
      (a = wrOffAddr s.cfg c → v.toNat ≤ d.size ∧ used w (v.toNat % d.size) d.size ≤ free r w d.size)
  | _ => True

/-- Every companion step of the run taken while channel `c` is in service in this direction is an allowed one. -/
def compKeeps (r : Nat → State) (c : BitVec 4) (dir : Dir) (allowed : State → CompAct → Prop) : Prop :=
  ∀ n, ∀ x ∈ (r n).moments, ∀ act, x.event = .companion act →
    x.before.inService c → (x.before.ring c).dir = dir → allowed x.before act

/-- COMP_CONSUMER (R322) for channel `c`. -/
def compConsumer (r : Nat → State) (c : BitVec 4) : Prop :=
  compKeeps r c .hostToCompanion fun s act => s.consumerStep c act

/-- COMP_PRODUCER (R322) for channel `c`. -/
def compProducer (r : Nat → State) (c : BitVec 4) : Prop :=
  compKeeps r c .companionToHost fun s act => s.producerStep c act

/-- The companion publishes new data on channel `c`: a step of its own moves WR_OFF of a companion→host channel in service forward
over free slots, by at least one, so that more words are queued. Setting a descriptor's offsets back to 0 is no such move. -/
def Moment.publishes (x : Moment) (c : BitVec 4) : Prop :=
  let d := x.before.ring c
  let r := (x.before.word (rdOffAddr x.before.cfg c)).toNat
  let w := (x.before.word (wrOffAddr x.before.cfg c)).toNat
  let w' := (x.after.word (wrOffAddr x.after.cfg c)).toNat
  (∃ a v, x.event = .companion (.mem a v)) ∧ x.before.inService c ∧ d.dir = .companionToHost ∧ w' ≤ d.size ∧
    1 ≤ used w (w' % d.size) d.size ∧ used w (w' % d.size) d.size ≤ free r w d.size

/-- COMP_SIGNAL (R322) for channel `c`: after publishing new data the companion takes `c_set_c2h(1 << c)` and then `c_irq`. -/
def compSignal (r : Nat → State) (c : BitVec 4) : Prop :=
  ∀ a x, momentAt r a = some x → x.publishes c →
    ∃ b y, a.before b ∧ momentAt r b = some y ∧ y.event = .companion (.setC2H (bellMask c)) ∧
      ∃ d z, b.before d ∧ momentAt r d = some z ∧ z.event = .companion .irq

/-- COMP_IDLE_LIVE (R322, R367): BUSY is not 1 forever. DESIGN CHOICE (log 37): these are the rules' own words, and a companion that
is idle only between the polls of a WaitIdle meets them; that each WaitIdle ends (R367's 'every accepted command responds') needs
more of the companion than this premise says. -/
def compIdleLive (r : Nat → State) : Prop := ∀ n, ¬ Always r n fun s => s.comp.busy = true

/-- Whether a command is in its ReenableWait (R161). -/
def Label.holding : Label → Bool
  | .hold _ _ => true
  | _ => false

/-- COMP_REENABLE_LIVE (R322, R367): every ReenableWait is ended by a `c_reenable` of the companion, and by nothing before it. -/
def compReenableLive (r : Nat → State) : Prop :=
  ∀ a s, stageAt r a = some s → s.seq.step.holding = true →
    ∃ b x, (b = a ∨ a.before b) ∧ momentAt r b = some x ∧ x.event = .companion .reenable ∧ x.before.seq.step.holding = true ∧
      x.after.seq.step.holding = false ∧
      ∀ d t, a.before d → d.before b → stageAt r d = some t → t.seq.step.holding = true

/-! ### Liveness premises (R367)

Draws, companion steps and waits are no part of a step's being enabled: fairness to the block forces none of them (log 35). -/

/-- The bus transaction an atomic step issues (R103): a command's or the worker's, at an even address (R80). -/
def Moment.transaction (x : Moment) : Option BusRec :=
  let record : Option BusRec :=
    if x.before.halted then none
    else match x.event, x.before.seq.owner with
      | .turns _, some (.port p) => (x.before.portInstr p).bind fun i => turnRecord i x.before
      | .worker _, some .worker =>
        match x.before.wk.state, x.before.wk.phase with
        | .dispatching, .readMbox => some (mboxC2HRead x.before.cfg)
        | .dispatching, .clearMbox m => some (mboxC2HClear x.before.cfg m)
        | _, _ => none
      | _, _ => none
  record.filter fun b => !oddAddress b.addr

/-- BUS_LIVE (R367): where transactions are issued forever, not every one from some point on fails. -/
def busLive (r : Nat → State) : Prop :=
  ∀ n, (∀ m, n ≤ m → Eventually r m fun x => x.transaction.isSome = true) →
    Eventually r n fun x => x.transaction.isSome = true ∧ x.after.busResult ≠ .busError

/-- ARB_FAIR (R101, R367): a requester that waits while the lock is free infinitely often is granted. -/
def arbFair (r : Nat → State) : Prop :=
  ∀ q n, (∀ m, n ≤ m → ¬ Always r m fun s => s.sess.lock ≠ none) → Always r n (fun s => q ∈ s.waiting) →
    Eventually r n fun x => ∃ ts, x.event = .grant q ts ∧ x.before.canGrant q = true

/-- TIMER_FAIR (R367): an armed timer whose fire stays enabled eventually fires. -/
def timerFair (r : Nat → State) : Prop :=
  ∀ n, Always r n (fun s => s.armed = true ∧ s.sess.isOpen = true ∧ s.halted = false) →
    Eventually r n fun x => x.event = .timerFire

/-- HANDLER_RETURNS (R367): every receive event delivered to the handler is returned, by a return step the handler may take. -/
def handlerReturns (r : Nat → State) : Prop :=
  ∀ a s j, stageAt r a = some s → s.wk.phase = .await j →
    ∃ b x ok, (b = a ∨ a.before b) ∧ momentAt r b = some x ∧ x.event = .handlerReturn ok ∧ x.before.wk.phase = .await j ∧
      x.before.handlerPort.prog.active = false ∧
      ∀ d t, a.before d → d.before b → stageAt r d = some t → t.wk.phase = .await j

/-- The steps of the block that STEP_FAIR names (R367). A grant is ARB_FAIR's, the timer's fire TIMER_FAIR's; a timeout is no
step that has to be taken. -/
inductive BlockStep where
  /-- The accept step of a port (R130). -/
  | accept (p : PortId)
  /-- The bus transaction or the response that comes next in the command that holds the lock. -/
  | command
  /-- The worker's pass start (R290). -/
  | passStart
  /-- The bus transaction, scan step or pass end that comes next in the worker's pass. -/
  | worker
  deriving DecidableEq, Repr

/-- Whether a step of the block is enabled (R281, R130, R103, R290). In a ReenableWait the command has none: that is the
companion's to end. -/
def State.enabled (s : State) (b : BlockStep) : Bool :=
  !s.halted &&
    match b with
    | .accept p =>
      match (s.port p).state with
      | .requested _ _ => true
      | _ => false
    | .command => s.currentInstr.isSome && decide (s.seq.step ≠ .off) && !s.seq.step.holding
    | .passStart => decide (s.wk.state = .idle) && s.wk.pending
    | .worker =>
      decide (s.wk.state = .dispatching) &&
        match s.wk.phase with
        | .readMbox => decide (s.seq.owner = some .worker)
        | .clearMbox _ => decide (s.seq.owner = some .worker)
        | .scan _ => true
        | _ => false

/-- Whether an atomic step is this step of the block, whatever is drawn with it. -/
def Moment.takes (x : Moment) (b : BlockStep) : Bool :=
  x.before.enabled b &&
    match b, x.event with
    | .accept p, .accept q => decide (p = q)
    | .command, .turns _ => true
    | .passStart, .passStart => true
    | .worker, .worker _ => true
    | _, _ => false

/-- STEP_FAIR (R367): every step of the block that stays enabled is eventually taken. -/
def stepFair (r : Nat → State) : Prop :=
  ∀ b n, Always r n (fun s => s.enabled b = true) → Eventually r n fun x => x.takes b = true

/-- NO_RESET (R340, R367). -/
def noReset (r : Nat → State) : Prop := ∀ n b, (r n).event ≠ .reset b

end Sys2Proof.Machine
end

