-- ==== Sys2Proof/Certificates/Slice0/Obligations.lean ====
section
/-! DEFINITION. The statements about the machine. Each docstring names the rules of spec/ it formalises. Where a statement speaks of `step { s with inputs := e :: s.inputs }`, `e` is the event the environment takes next at `s`. -/

open Sys2Proof Sys2Proof.Machine

/-! ### Encoding -/

/-- R121-R123, R126, R129: decoding the packet of an instruction gives it back, with every operand at every value its field can hold. -/
def Obligations.DecodeEncodeRoundTrip : Prop :=
  ∀ i : Instr, i.encodable = true → decode (encode i) = .ok i

/-- R121-R123: a command word with its payload has one meaning: the instruction it decodes to is encoded by that word and payload. -/
def Obligations.CommandWordHasOneMeaning : Prop :=
  ∀ w payload i, decode (.command w payload) = .ok i → encode i = .command w payload

/-- R136 and R133 of spec/30_encoding.md, R129: words written out from the spec decode to what they stand for. -/
def Obligations.SpecWordsDecode : Prop :=
  decode (.command 0x15000000 []) = .ok (.qInit 5) ∧
  decode (.command 0x2200FFFF []) = .ok (.qRead 2 0xFFFF) ∧
  decode (.command 0x30000005 [1, 2, 3, 4, 5]) = .ok (.qWrite 0 [1, 2, 3, 4, 5]) ∧
  decode (.command 0x41200000 [0xCAFE]) = .ok (.openPair 1 2 0xCAFE) ∧
  decode (.command 0x50000000 []) = .ok .shutdown ∧
  decode (.bus { write := false, addr := 0x108, data := 0 }) = .ok (.busRd16 0x108) ∧
  decode (.bus { write := true, addr := 0x108, data := 5 }) = .ok (.busWr16 0x108 5)

/-- R130: the accept step's checks, in their order, over the fields of the word; a command that passes becomes Executing and
joins the waiting set. -/
def Obligations.AcceptChecksInOrder : Prop :=
  ∀ (s : State) (p : PortId) (cmd : Word) (payload : List Word),
    s.halted = false → (s.port p).state = .requested cmd payload → payloadFits cmd payload = true →
    let op := (cmd.extractLsb' 28 4).toNat
    let ch := (cmd.extractLsb' 24 4).toNat
    let ch2 := (cmd.extractLsb' 20 4).toNat
    let count := (cmd.extractLsb' 0 16).toNat
    step { s with inputs := .accept p :: s.inputs } = .next (
      if op < 1 ∨ 5 < op then s.raiseOn .illegalCommand p cmd
      else if cmd.extractLsb' 16 4 ≠ 0 then s.raiseOn .illegalCommand p cmd
      else if op ≤ 3 ∧ ch2 ≠ 0 then s.raiseOn .illegalCommand p cmd
      else if (op = 1 ∨ op = 4) ∧ count ≠ 0 then s.raiseOn .illegalCommand p cmd
      else if op = 5 ∧ cmd.extractLsb' 0 28 ≠ 0 then s.raiseOn .illegalCommand p cmd
      else if op ≤ 4 ∧ s.cfg.nCh ≤ ch then s.raiseOn .channelRange p cmd
      else if op = 4 ∧ s.cfg.nCh ≤ ch2 then s.raiseOn .channelRange p cmd
      else if (op = 2 ∨ op = 3) ∧ count = 0 then s.raiseOn .zeroCount p cmd
      else (s.setPortState p (.executing cmd payload)).addWaiting (.port p))

/-- R132, R126: a port takes a command exactly with the number of payload words its first word gives. -/
def Obligations.OnlyFittingPayloadIsPresented : Prop :=
  ∀ (s : State) (p : PortId) (cmd : Word) (payload : List Word),
    s.hasPort p = true → (s.port p).state = .empty → (s.port p).prog.active = false →
    let op := (cmd.extractLsb' 28 4).toNat
    let n := if op = 3 then (cmd.extractLsb' 0 16).toNat else if op = 4 then 1 else 0
    step { s with inputs := .present p cmd payload :: s.inputs } =
      .next (if payload.length = n then s.setPortState p (.requested cmd payload) else s)

/-! ### A step runs the decoded instruction -/

/-- R100, R200: when the arbiter grants the lock to a waiting port whose command decodes to `i`, the step is exec of `i`, in the
state that shows the requester gone from the waiting set, the lock and the sequencer held by the port, the command word, the
pseudocode's entry, and the turns that follow. -/
def Obligations.GrantRunsTheDecodedCommand : Prop :=
  ∀ (s : State) (p : PortId) (ts : List Turn) (cmd : Word) (payload : List Word) (i : Instr),
    s.sess.lock = none → s.waiting.contains (.port p) = true → s.halted = false →
    (s.port p).state = .executing cmd payload → decode (.command cmd payload) = .ok i →
    step { s with inputs := .grant (.port p) ts :: s.inputs } =
      exec i { s with
        waiting := s.waiting.filter (fun x => x ≠ .port p)
        sess := { s.sess with lock := some (.port p) }
        seq := { owner := some (.port p), cmd := cmd, step := .entry }
        turns := ts }

/-- R12, R90: further atomic steps of the command that holds the lock are exec of the instruction its port's words decode to. -/
def Obligations.TurnsRunTheDecodedCommand : Prop :=
  ∀ (s : State) (p : PortId) (ts : List Turn) (cmd : Word) (payload : List Word) (i : Instr),
    s.seq.owner = some (.port p) → s.halted = false →
    (s.port p).state = .executing cmd payload → decode (.command cmd payload) = .ok i →
    step { s with inputs := .turns ts :: s.inputs } = exec i { s with turns := ts }

/-- R290, R159, R160: in its locked phase the worker's step is exec of the bus instruction, with what follows the transaction. -/
def Obligations.WorkerRunsBusInstructions : Prop :=
  ∀ (s : State) (d : Draw), s.halted = false → s.wk.state = .dispatching → s.seq.owner = some .worker →
    (s.wk.phase = .readMbox →
      step { s with inputs := .worker d :: s.inputs } =
        match exec (.busRd16 s.cfg.regC2H) { s with draw := d } with
        | .next t => .next (if t.halted then t else t.afterMboxRead)
        | o => o) ∧
    (∀ m, s.wk.phase = .clearMbox m →
      step { s with inputs := .worker d :: s.inputs } =
        match exec (.busWr16 s.cfg.regC2H m) { s with draw := d } with
        | .next t => .next (if t.halted then t else t.afterMboxClear m)
        | o => o)

/-! ### The two bus transactions -/

/-- R150, R33: a read at an even address answers BUS_ERROR if the transfer fails, else the value the companion holds there: the
registers' values, memory, or for REG_STATUS a value that shows BUSY at BUSY_BIT and the draw's bits elsewhere; nothing else changes. -/
def Obligations.BusReadResult : Prop :=
  ∀ (s : State) (q : Requester) (a : Word), s.seq.owner = some q → s.halted = false → oddAddress a = false →
    ∃ v : Half,
      exec (.busRd16 a) s = .next { s with busResult := (if s.draw.fail then .busError else .value v) } ∧
      (if a = s.cfg.regStatus then
        v.getLsbD s.cfg.busyBit.val = s.comp.busy ∧
          ∀ k, k < 16 → k ≠ s.cfg.busyBit.val → v.getLsbD k = s.draw.noise.getLsbD k
       else if a = s.cfg.regH2C then v = s.comp.h2c
       else if a = s.cfg.regC2H then v = s.comp.c2h
       else v = s.half a)

/-- R151, R87, R35, R33: a write at an even address takes effect at the companion if it succeeds, and if it fails exactly when
the draw says so; REG_STATUS counts an interrupt for IRQ_BIT, REG_H2C_MBOX is replaced, REG_C2H_MBOX is cleared by the bits
written, any other address is memory. -/
def Obligations.BusWriteResult : Prop :=
  ∀ (s : State) (q : Requester) (a : Word) (v : Half),
    s.seq.owner = some q → s.halted = false → oddAddress a = false → s.MemInv →
    ∃ t, exec (.busWr16 a v) s = .next t ∧
      t.busResult = (if s.draw.fail then .busError else .written) ∧
      (if s.draw.fail = true ∧ s.draw.landed = false then t.comp = s.comp
       else if a = s.cfg.regStatus then
        t.comp = { s.comp with irqFromHost := s.comp.irqFromHost + (if v.getLsbD s.cfg.irqBit.val then 1 else 0) }
       else if a = s.cfg.regH2C then t.comp = { s.comp with h2c := v }
       else if a = s.cfg.regC2H then t.comp = { s.comp with c2h := s.comp.c2h &&& ~~~v }
       else t.half a = v)

/-- R80, R280: a bus access at an odd address raises MISALIGNED_BUS_ADDRESS before any transaction, for a read and a write, whoever
holds the lock; a command's fault shows its port and its command word. That a fault of the worker's would show the last command
word is the model's choice (log 21). -/
def Obligations.OddAddressFaults : Prop :=
  ∀ (s : State) (q : Requester) (a : Word) (v : Half),
    s.seq.owner = some q → s.halted = false → oddAddress a = true →
    ∃ f : FaultRecord, f.code = .misalignedBusAddress ∧ f.cmd = s.seq.cmd ∧ (∀ p, q = .port p → f.port = p) ∧
      exec (.busRd16 a) s = .next { s with flt := f } ∧ exec (.busWr16 a v) s = .next { s with flt := f }

/-- R86, R150: a bus read changes nothing but its own answer and the fault record, no half-word of memory among it. -/
def Obligations.BusReadFrame : Prop :=
  ∀ (s t : State) (a : Word), exec (.busRd16 a) s = .next t →
    { t with busResult := s.busResult, flt := s.flt } = s ∧ ∀ x, t.half x = s.half x

/-- R151: what a bus write leaves alone: everything but the companion and the fault record; BUSY; of the companion, every register
and every half-word of memory but what its address names. -/
def Obligations.BusWriteFrame : Prop :=
  ∀ (s t : State) (a : Word) (v : Half), exec (.busWr16 a v) s = .next t →
    { t with busResult := s.busResult, flt := s.flt, comp := s.comp } = s ∧ t.comp.busy = s.comp.busy ∧
    (a ≠ s.cfg.regStatus → t.comp.irqFromHost = s.comp.irqFromHost) ∧
    (a ≠ s.cfg.regH2C → t.comp.h2c = s.comp.h2c) ∧ (a ≠ s.cfg.regC2H → t.comp.c2h = s.comp.c2h) ∧
    ∀ x, x ≠ a ∨ a = s.cfg.regStatus ∨ a = s.cfg.regH2C ∨ a = s.cfg.regC2H → t.half x = s.half x

/-! ### Ring arithmetic -/

/-- R191, R192, R193, R195, spec/95_test_vectors.md V-R1: used and free words of a ring sum to S - 1; used is 0 exactly for equal
offsets, which is empty and never full; free is 0 exactly when the write offset stands one slot before the read offset, modulo S,
which is full unless the offsets are equal (S = 1, V-R1); an offset the companion holds normalises to itself below S, to 0 at S, and
to nothing above. -/
def Obligations.RingOffsetArithmetic : Prop :=
  (∀ r w S, r < S → w < S →
    used r w S + free r w S = S - 1 ∧ (used r w S = 0 ↔ r = w) ∧ (ringEmpty r w = true ↔ r = w) ∧
    (free r w S = 0 ↔ (w + 1) % S = r) ∧ (ringFull r w S = true ↔ (w + 1) % S = r ∧ r ≠ w)) ∧
  ∀ v S, 1 ≤ S → (v < S → norm v S = some v) ∧ (v = S → norm v S = some 0) ∧ (S < v → norm v S = none)

/-- R196, R211: readSpans lists min(max, used) slots, the queued ones from the read offset on, modulo S, and its new read offset follows them. -/
def Obligations.ReadSpansLaw : Prop :=
  ∀ r w S max, r < S → w < S →
    let n := min max (used r w S)
    (readSpans r w S max).1 = (List.range n).map (fun j => (r + j) % S) ∧ (readSpans r w S max).2 = (r + n) % S

/-- R196, R221, R194: writeSpans lists N slots from the write offset on, modulo S, all of them free, its new write offset follows
them, and the ring then holds N more words, at most S - 1. -/
def Obligations.WriteSpansLaw : Prop :=
  ∀ r w S N, r < S → w < S → N ≤ free r w S →
    (writeSpans r w S N).1 = (List.range N).map (fun j => (w + j) % S) ∧ (writeSpans r w S N).2 = (w + N) % S ∧
    used r ((w + N) % S) S = used r w S + N ∧ used r w S + N ≤ S - 1

/-! ### The commands' results -/

/-- R205: Q_INIT on an idle companion, all transactions succeeding: INVALID_CHANNEL and ZeroDesc if BASE or FLAGS is 0, an offset
is not 0, or NUM_WORDS is 0; else OK and the descriptor read. No companion state changes, nor any other channel. -/
def Obligations.InitResult : Prop :=
  ∀ (s : State) (p : PortId) (c : BitVec 4),
    s.AtEntry p → s.Serving → s.Ready → c.toNat < s.cfg.nCh → s.smooth = true → 10 ≤ s.turns.length →
    let f := s.word (descField s.cfg c 0)
    let b := s.word (descField s.cfg c 1)
    let rv := s.word (descField s.cfg c 2)
    let wv := s.word (descField s.cfg c 3)
    let bad := b = 0 ∨ f = 0 ∨ rv ≠ 0 ∨ wv ≠ 0 ∨ f.extractLsb' 16 16 = 0
    ∃ t, exec (.qInit c) s = .next t ∧
      (bad → t.Answered p .invalidChannel 0 [] ∧ t.chan c.toNat = Chan.zero) ∧
      (¬ bad → t.Answered p .ok 0 [] ∧
        t.chan c.toNat = { valid := true, inUse := f.getLsbD 0,
                           dir := if f.getLsbD 1 then .companionToHost else .hostToCompanion,
                           size := (f.extractLsb' 16 16).toNat, base := b, rd := 0, wr := 0,
                           cbValid := false, cbClient := .client 0, cbCtx := 0 }) ∧
      t.comp = s.comp ∧ ∀ i, i ≠ c.toNat → t.chan i = s.chan i

/-- R210, R211, R127: Q_READ on an idle companion, all transactions succeeding: the refreshed write offset is stored, the
response is OK with n = min(max, used) words of the slots from the read offset on, the read offset moves past them in the
descriptor and at the companion, and the doorbell is rung: H2C ends 0 and one interrupt is counted. -/
def Obligations.ReadResult : Prop :=
  ∀ (s : State) (p : PortId) (c : BitVec 4) (count : BitVec 16) (w : Nat),
    s.AtEntry p → s.Serving → s.Ready → s.MemInv → c.toNat < s.cfg.nCh → count ≠ 0 →
    (s.chan c.toNat).valid = true → (s.chan c.toNat).bounded → ringPlaced s.cfg (s.chan c.toNat) = true →
    norm (s.word (wrOffAddr s.cfg c)).toNat (s.chan c.toNat).size = some w →
    let d := s.chan c.toNat
    let n := min count.toNat (used d.rd w d.size)
    s.smooth = true → 9 + 2 * n ≤ s.turns.length →
    ∃ t, exec (.qRead c count) s = .next t ∧
      t.Answered p .ok n ((List.range n).map fun j => s.word (slotAddr d.base ((d.rd + j) % d.size))) ∧
      t.chan c.toNat = { d with wr := w, rd := (d.rd + n) % d.size } ∧
      t.word (rdOffAddr s.cfg c) = BitVec.ofNat 32 ((d.rd + n) % d.size) ∧
      t.comp.h2c = 0 ∧ t.comp.irqFromHost = s.comp.irqFromHost + 1 ∧ t.sess.wedged = false ∧ t.flt = s.flt

/-- R220, R221: Q_WRITE of N ≤ free words on an idle companion, all transactions succeeding: word j is in slot (w0 + j) mod S, the
write offset moves past them in the descriptor and at the companion, the doorbell is rung, and the response is OK with COUNT N. -/
def Obligations.WriteResult : Prop :=
  ∀ (s : State) (p : PortId) (c : BitVec 4) (words : List Word) (r : Nat),
    s.AtEntry p → s.Serving → s.Ready → s.MemInv → c.toNat < s.cfg.nCh → words ≠ [] → words.length < 65536 →
    (s.chan c.toNat).valid = true → (s.chan c.toNat).bounded → ringPlaced s.cfg (s.chan c.toNat) = true →
    norm (s.word (rdOffAddr s.cfg c)).toNat (s.chan c.toNat).size = some r →
    let d := s.chan c.toNat
    let n := words.length
    n ≤ free r d.wr d.size → s.smooth = true → 9 + 2 * n ≤ s.turns.length →
    ∃ t, exec (.qWrite c words) s = .next t ∧
      t.Answered p .ok n [] ∧
      t.chan c.toNat = { d with rd := r, wr := (d.wr + n) % d.size } ∧
      (∀ j, j < n → t.word (slotAddr d.base ((d.wr + j) % d.size)) = words.getD j 0) ∧
      t.word (wrOffAddr s.cfg c) = BitVec.ofNat 32 ((d.wr + n) % d.size) ∧
      t.comp.h2c = 0 ∧ t.comp.irqFromHost = s.comp.irqFromHost + 1 ∧ t.sess.wedged = false ∧ t.flt = s.flt

/-- R220 (all or nothing): with more words than free the response is WOULD_BLOCK with COUNT 0, nothing is written to the companion
and no doorbell is rung; only the refreshed read offset changes. -/
def Obligations.WriteWouldBlock : Prop :=
  ∀ (s : State) (p : PortId) (c : BitVec 4) (words : List Word) (r : Nat),
    s.AtEntry p → s.Serving → s.Ready → c.toNat < s.cfg.nCh → words ≠ [] →
    (s.chan c.toNat).valid = true →
    norm (s.word (rdOffAddr s.cfg c)).toNat (s.chan c.toNat).size = some r →
    let d := s.chan c.toNat
    free r d.wr d.size < words.length → s.smooth = true → 4 ≤ s.turns.length →
    ∃ t, exec (.qWrite c words) s = .next t ∧ t.Answered p .wouldBlock 0 [] ∧
      t.chan c.toNat = { d with rd := r } ∧ t.comp = s.comp ∧ ∀ i, i ≠ c.toNat → t.chan i = s.chan i

/-- R195, R276: a refreshed offset above S ends a Q_READ or Q_WRITE with PROTOCOL_ERROR and no state change: no descriptor, no
companion state, no fault record and of the session nothing but the lock, which the response releases. -/
def Obligations.OffsetAboveSizeIsProtocolError : Prop :=
  ∀ (s : State) (p : PortId) (c : BitVec 4) (count : BitVec 16) (words : List Word),
    s.AtEntry p → s.Serving → s.Ready → c.toNat < s.cfg.nCh → count ≠ 0 → words ≠ [] →
    (s.chan c.toNat).valid = true → s.smooth = true → 4 ≤ s.turns.length →
    ((s.chan c.toNat).size < (s.word (wrOffAddr s.cfg c)).toNat →
      ∃ t, exec (.qRead c count) s = .next t ∧ t.Answered p .protocolError 0 [] ∧ t.ch = s.ch ∧ t.comp = s.comp ∧
        t.sess = { s.sess with lock := none } ∧ t.flt = s.flt) ∧
    ((s.chan c.toNat).size < (s.word (rdOffAddr s.cfg c)).toNat →
      ∃ t, exec (.qWrite c words) s = .next t ∧ t.Answered p .protocolError 0 [] ∧ t.ch = s.ch ∧ t.comp = s.comp ∧
        t.sess = { s.sess with lock := none } ∧ t.flt = s.flt)

/-- R226: OPEN on an idle companion, all transactions succeeding: CHANNEL_UNAVAILABLE if a descriptor is invalid (`rx` untouched if
it is `tx`'s, `tx` valid but without a callback if it is `rx`'s), else OK and the callback registered on both. -/
def Obligations.OpenResult : Prop :=
  ∀ (s : State) (p : PortId) (tx rx : BitVec 4) (ctx : Word),
    s.AtEntry p → s.Serving → s.Ready → tx.toNat < s.cfg.nCh → rx.toNat < s.cfg.nCh → s.smooth = true → 19 ≤ s.turns.length →
    let bad (x : BitVec 4) : Prop :=
      s.word (descField s.cfg x 1) = 0 ∨ s.word (descField s.cfg x 0) = 0 ∨ s.word (descField s.cfg x 2) ≠ 0 ∨
        s.word (descField s.cfg x 3) ≠ 0 ∨ (s.word (descField s.cfg x 0)).extractLsb' 16 16 = 0
    let loaded (x : BitVec 4) : Chan :=
      { valid := true, inUse := (s.word (descField s.cfg x 0)).getLsbD 0,
        dir := if (s.word (descField s.cfg x 0)).getLsbD 1 then .companionToHost else .hostToCompanion,
        size := ((s.word (descField s.cfg x 0)).extractLsb' 16 16).toNat, base := s.word (descField s.cfg x 1),
        rd := 0, wr := 0, cbValid := false, cbClient := .client 0, cbCtx := 0 }
    let registered (x : BitVec 4) : Chan := { loaded x with cbValid := true, cbClient := p, cbCtx := ctx }
    ∃ t, exec (.openPair tx rx ctx) s = .next t ∧ t.comp = s.comp ∧
      (bad tx → t.Answered p .channelUnavailable 0 [] ∧ t.chan tx.toNat = Chan.zero ∧
        (rx ≠ tx → t.chan rx.toNat = s.chan rx.toNat)) ∧
      (¬ bad tx → bad rx → t.Answered p .channelUnavailable 0 [] ∧ t.chan rx.toNat = Chan.zero ∧ t.chan tx.toNat = loaded tx) ∧
      (¬ bad tx → ¬ bad rx → t.Answered p .ok 0 [] ∧ t.chan tx.toNat = registered tx ∧ t.chan rx.toNat = registered rx) ∧
      ∀ i, i ≠ tx.toNat → i ≠ rx.toNat → t.chan i = s.chan i

/-- R230: SHUTDOWN, wedged or not: every descriptor is ZeroDesc, the session Closed, last_c2h 0, the timer disarmed, no pass
pending, the response OK; no bus transaction is made. -/
def Obligations.ShutdownResult : Prop :=
  ∀ (s : State) (p : PortId), s.AtEntry p → s.sess.isOpen = true → s.companionSilent = true → 1 ≤ s.turns.length →
    ∃ t, exec .shutdown s = .next t ∧ t.Answered p .ok 0 [] ∧ (∀ i, t.chan i = Chan.zero) ∧ t.sess.isOpen = false ∧
      t.sess.lastC2H = 0 ∧ t.armed = false ∧ t.wk.pending = false ∧ t.sess.wedged = s.sess.wedged ∧ t.comp = s.comp

/-- R200, R205: on a Closed session every command ends NO_SESSION; on an Open wedged one every command but SHUTDOWN ends TIMEOUT; no
bus access, no fault, and of the session nothing changes but the lock, which the response releases. A Q_INIT ended so leaves its
channel with `valid` 0 and no callback, as every non-OK outcome does (R205); nothing else of that descriptor changes, no other
descriptor, and none for any other command. That the grant's own step does this is inferred (log 33). -/
def Obligations.ClosedOrWedgedAnswers : Prop :=
  ∀ (s : State) (p : PortId) (i : Instr),
    (∀ a, i ≠ .busRd16 a) → (∀ a v, i ≠ .busWr16 a v) → operandFault s.cfg i = none →
    s.AtEntry p → s.companionSilent = true → 1 ≤ s.turns.length →
    let failed (k : Nat) : Prop := ∃ c : BitVec 4, i = .qInit c ∧ k = c.toNat
    let ends (t : State) (st : Status) : Prop := t.Answered p st 0 [] ∧ t.comp = s.comp ∧ t.flt = s.flt ∧
      t.sess = { s.sess with lock := none } ∧
      ∀ k, (failed k → t.chan k = { s.chan k with valid := false, cbValid := false }) ∧ (¬ failed k → t.chan k = s.chan k)
    (s.sess.isOpen = false → ∃ t, exec i s = .next t ∧ ends t .noSession) ∧
    (s.sess.isOpen = true → s.sess.wedged = true → i ≠ .shutdown → ∃ t, exec i s = .next t ∧ ends t .timeout)

/-- R200, R280, R102: a Q_READ or Q_WRITE on a channel that is not valid faults CHANNEL_NOT_OPEN: the fault record shows the port and
its command, and nothing else changes: the lock stays held, no response is given. -/
def Obligations.UnopenedChannelFaults : Prop :=
  ∀ (s : State) (p : PortId) (i : Instr) (c : BitVec 4),
    checkedChannel i = some c → operandFault s.cfg i = none → s.AtEntry p → s.Serving → (s.chan c.toNat).valid = false →
    exec i s = .next { s with flt := { code := .channelNotOpen, port := p, cmd := s.seq.cmd }, turns := [] }

/-- R197, R205, R226, R272: a transaction that fails before the commit ends Q_READ and Q_WRITE BUS_ERROR with COUNT 0 and no data;
one that fails in the doorbell, after the commit, keeps the count and the words moved. One that fails in a Q_INIT body ends Q_INIT
and OPEN BUS_ERROR with COUNT 0 and leaves that body's channel ZeroDesc. No descriptor changes in that step and the session is not
wedged. The response step that comes next, of this status as of every other, shows RESP with the status code, COUNT and the data on the
port (R124, R270), releases the lock (R102), and changes no companion state and no descriptor. -/
def Obligations.BusErrorKeepsOffsets : Prop :=
  (∀ (s : State) (p : PortId) (c : BitVec 4) (count : BitVec 16) (words : List Word) (d : Draw) (r : BusRec),
    s.seq.owner = some (.port p) → s.halted = false → s.turns = [{ before := [], draw := d }] → d.fail = true →
    oddAddress r.addr = false →
    let ended : Label := match s.seq.step with
      | .bellSet n out => .respond .busError n out
      | .bellClear n out => .respond .busError n out
      | .bellIrq n out => .respond .busError n out
      | _ => .respond .busError 0 []
    (readRecord s.cfg c (s.chan c.toNat).base s.seq.step = some r →
      ∃ t, exec (.qRead c count) s = .next t ∧ t.seq.step = ended ∧ t.ch = s.ch ∧ t.sess = s.sess) ∧
    (writeRecord s.cfg c (s.chan c.toNat).base s.seq.step = some r →
      ∃ t, exec (.qWrite c words) s = .next t ∧ t.seq.step = ended ∧ t.ch = s.ch ∧ t.sess = s.sess) ∧
    (bodyRecord s.cfg c s.seq.step = some r → s.BodyInv →
      (s.portInstr p = some (.qInit c) →
        ∃ t, exec (.qInit c) s = .next t ∧ t.seq.step = .respond .busError 0 [] ∧ t.chan c.toNat = Chan.zero ∧
          t.ch = s.ch ∧ t.sess = s.sess) ∧
      (∀ tx rx ctx, s.portInstr p = some (.openPair tx rx ctx) → c = (if inSecondBody s.seq.step then rx else tx) →
        ∃ t, exec (.openPair tx rx ctx) s = .next t ∧ t.seq.step = .respond .busError 0 [] ∧ t.chan c.toNat = Chan.zero ∧
          t.ch = s.ch ∧ t.sess = s.sess))) ∧
  ∀ (s : State) (p : PortId) (i : Instr) (st : Status) (n : Nat) (data : List Word) (d : Draw),
    (∀ a, i ≠ .busRd16 a) → (∀ a v, i ≠ .busWr16 a v) →
    s.seq.owner = some (.port p) → s.hasPort p = true → s.halted = false → s.seq.step = .respond st n data →
    s.turns = [{ before := [], draw := d }] →
    let code : BitVec 4 := match st with
      | .ok => 0
      | .busError => 1
      | .invalidChannel => 2
      | .wouldBlock => 3
      | .timeout => 4
      | .protocolError => 5
      | .channelUnavailable => 6
      | .noSession => 7
    ∃ t, exec i s = .next t ∧ (t.port p).state = .responded (code ++ (0 : BitVec 12) ++ BitVec.ofNat 16 n) data ∧
      t.sess = { s.sess with lock := none } ∧ t.seq.owner = none ∧ t.seq.step = .off ∧ t.comp = s.comp ∧ t.ch = s.ch

/-- R156: one poll of WaitIdle that does not fail. Not busy: the wait is over. Busy: it polls again, but at IDLE_MAX_POLLS the session is
wedged and the command ends TIMEOUT. For Q_READ and Q_WRITE the refresh comes next, for Q_INIT and OPEN the
descriptor. -/
def Obligations.IdleWaitPoll : Prop :=
  ∀ (s : State) (p : PortId) (c : BitVec 4) (i : Instr) (second : Bool) (polls : Nat) (noise : Half) (landed late : Bool) (next : Label),
    s.cfg.wf = true → s.seq.owner = some (.port p) → s.halted = false → s.seq.step = .poll second polls →
    s.turns = [{ before := [], draw := { fail := false, landed := landed, noise := noise, timeout := late } }] →
    ((∃ count, i = .qRead c count) ∧ next = .offLow ∨ (∃ words, i = .qWrite c words) ∧ next = .offLow ∨
      i = .qInit c ∧ next = .descLow second [] ∨ (∃ rx ctx, i = .openPair c rx ctx) ∧ next = .descLow second []) →
    ∃ t, exec i s = .next t ∧ t.comp = s.comp ∧ t.ch = s.ch ∧
      (if s.comp.busy = false then t.seq.step = next ∧ t.sess = s.sess
       else if ∃ m, s.cfg.idleMaxPolls = some m ∧ m ≤ polls + 1 then
        t.seq.step = .respond .timeout 0 [] ∧ t.sess = { s.sess with wedged := true }
       else t.seq.step = .poll second (polls + 1) ∧ t.sess = s.sess)

/-- R161, R163, R197: in the ReenableWait of a Q_READ or Q_WRITE the companion's `c_reenable` lets the doorbell's first write come next
(R163), or, where REENABLE_TIMEOUT allows one, a timeout wedges the session and ends the command TIMEOUT with the count and the words it
moved (R197). Nothing else but a reset ends it: a turn without a timeout holds, whatever else the companion did before it, and so does
every other agent's step and every other companion step. That the timeout is drawn with the step is the model's choice (log 10). -/
def Obligations.ReenableWaitHolds : Prop :=
  ∀ (s : State) (p : PortId) (i : Instr) (c : BitVec 4) (n : Nat) (out : List Word) (acts : List CompAct) (d : Draw),
    checkedChannel i = some c → s.seq.owner = some (.port p) → s.halted = false → s.seq.step = .hold n out →
    step { s with inputs := .companion .reenable :: s.inputs } =
      .next { s with seq := { s.seq with step := .bellSet n out } } ∧
    (s.turns = [{ before := acts, draw := d }] → .reenable ∉ acts →
      ∃ t, exec i s = .next t ∧ t.comp = (s.companionSteps acts).comp ∧ t.ch = s.ch ∧
        (if s.cfg.reenableTimeout = true ∧ d.timeout = true then
          t.seq.step = .respond .timeout n out ∧ t.sess = { s.sess with wedged := true }
         else t.seq.step = .hold n out ∧ t.sess = s.sess)) ∧
    ∀ t, s.LockInv → step s = .next t → s.event ≠ .companion .reenable → (∀ ts, s.event ≠ .turns ts) → (∀ b, s.event ≠ .reset b) →
      t.seq.step = .hold n out ∧ t.seq.owner = some (.port p)

/-- R163, R158, R162: the doorbell's three writes, in order and each succeeding: set the channel's bit, clear, assert the interrupt. -/
def Obligations.DoorbellSequence : Prop :=
  ∀ (s : State) (p : PortId) (i : Instr) (c : BitVec 4) (n : Nat) (out : List Word),
    checkedChannel i = some c → s.cfg.wf = true → s.seq.owner = some (.port p) → s.halted = false → s.turns = [Turn.quiet] →
    (s.seq.step = .bellSet n out →
      ∃ t, exec i s = .next t ∧ t.seq.step = .bellClear n out ∧ t.comp = { s.comp with h2c := 1#16 <<< c.toNat }) ∧
    (s.seq.step = .bellClear n out →
      ∃ t, exec i s = .next t ∧ t.seq.step = .bellIrq n out ∧ t.comp = { s.comp with h2c := 0 }) ∧
    (s.seq.step = .bellIrq n out →
      ∃ t, exec i s = .next t ∧ t.seq.step = .respond .ok n out ∧
        t.comp = { s.comp with irqFromHost := s.comp.irqFromHost + 1 })

/-- R89, R241, R242: words a Q_WRITE puts into an empty ring come back from a following Q_READ, whatever port reads them, in order. -/
def Obligations.WrittenWordsAreReadBack : Prop :=
  ∀ (s t u v : State) (p q : PortId) (c : BitVec 4) (words : List Word) (count : BitVec 16),
    s.AtEntry p → s.Serving → s.Ready → s.MemInv → c.toNat < s.cfg.nCh → words ≠ [] →
    (s.chan c.toNat).valid = true → (s.chan c.toNat).bounded → ringPlaced s.cfg (s.chan c.toNat) = true →
    (s.word (rdOffAddr s.cfg c)).toNat = (s.chan c.toNat).wr → words.length < (s.chan c.toNat).size →
    s.smooth = true → 9 + 2 * words.length ≤ s.turns.length → exec (.qWrite c words) s = .next t →
    u.AtEntry q → u.cfg = t.cfg → u.sess.isOpen = t.sess.isOpen → u.sess.wedged = t.sess.wedged → u.ch = t.ch → u.comp = t.comp →
    words.length ≤ count.toNat → u.smooth = true → 9 + 2 * words.length ≤ u.turns.length → exec (.qRead c count) u = .next v →
    v.Answered q .ok words.length words

/-! ### Frames -/

/-- R205, R226: what Q_INIT and OPEN leave alone from any position, while the companion stays silent: the companion entirely, every
channel but their own, and everything outside. -/
def Obligations.InitAndOpenFrame : Prop :=
  ∀ (s t : State), s.companionSilent = true →
    (∀ c, exec (.qInit c) s = .next t →
      s.SameOutside t ∧ t.comp = s.comp ∧ ∀ i, i ≠ c.toNat → t.chan i = s.chan i) ∧
    (∀ tx rx ctx, exec (.openPair tx rx ctx) s = .next t →
      s.SameOutside t ∧ t.comp = s.comp ∧ ∀ i, i ≠ tx.toNat → i ≠ rx.toNat → t.chan i = s.chan i)

/-- R210: what Q_READ leaves alone from any position, whatever fails, while the companion stays silent: every channel but its own, of
its own all but the two offsets, every half-word of memory but RD_OFF's two, BUSY, the C2H mailbox, and everything outside. -/
def Obligations.ReadFrame : Prop :=
  ∀ (s t : State) (c : BitVec 4) (count : BitVec 16), s.companionSilent = true → exec (.qRead c count) s = .next t →
    s.SameOutside t ∧ (∀ i, i ≠ c.toNat → t.chan i = s.chan i) ∧
    { t.chan c.toNat with rd := (s.chan c.toNat).rd, wr := (s.chan c.toNat).wr } = s.chan c.toNat ∧
    (∀ a, a ≠ rdOffAddr s.cfg c → a ≠ rdOffAddr s.cfg c + 2 → t.half a = s.half a) ∧
    (s.cfg.wf = true → c.toNat < s.cfg.nCh → t.comp.c2h = s.comp.c2h)

/-- R220: what Q_WRITE leaves alone from any position, whatever fails, while the companion stays silent: every channel but its own, of
its own all but the two offsets, every half-word of memory but those it has still to store to, BUSY, the C2H mailbox if no slot lies on
it, and everything outside. -/
def Obligations.WriteFrame : Prop :=
  ∀ (s t : State) (c : BitVec 4) (words : List Word),
    s.companionSilent = true → s.cfg.wf = true → c.toNat < s.cfg.nCh → exec (.qWrite c words) s = .next t →
    s.SameOutside t ∧ (∀ i, i ≠ c.toNat → t.chan i = s.chan i) ∧
    { t.chan c.toNat with rd := (s.chan c.toNat).rd, wr := (s.chan c.toNat).wr } = s.chan c.toNat ∧
    (∀ a, a ∉ s.writeStores c words → t.half a = s.half a) ∧
    (s.cfg.regC2H ∉ s.writeStores c words → t.comp.c2h = s.comp.c2h)

/-- R230: what SHUTDOWN leaves alone while the companion stays silent: the companion, the parameters, the arbiter, the log, the handler's
event, the worker but its pending bit, `wedged` and the bus handle, the fault record, and every port but its own. -/
def Obligations.ShutdownFrame : Prop :=
  ∀ (s t : State), s.companionSilent = true → exec .shutdown s = .next t →
    t.comp = s.comp ∧ t.cfg = s.cfg ∧ t.waiting = s.waiting ∧ t.log = s.log ∧ t.rx = s.rx ∧
    { t.wk with pending := s.wk.pending } = s.wk ∧ t.sess.wedged = s.sess.wedged ∧ t.sess.bus = s.sess.bus ∧ t.flt = s.flt ∧
    (∀ q, s.seq.owner ≠ some (.port q) → t.port q = s.port q) ∧ ∀ q, (t.port q).prog = (s.port q).prog

/-! ### Faults and reset -/

/-- R281: while the block is halted no accept, grant, command step, lock timeout, worker step, callback return, timer fire or
interrupt input changes anything. -/
def Obligations.HaltedBlockStands : Prop :=
  ∀ (s : State) (p : PortId) (q : Requester) (ts : List Turn) (d : Draw) (ok : Bool) (e : Event), s.halted = true →
    e ∈ [.accept p, .grant q ts, .turns ts, .lockTimeout q, .passStart, .worker d, .handlerReturn ok, .timerFire, .companion .irq] →
    step { s with inputs := e :: s.inputs } = .next s

/-- R282: only reset clears the fault record. -/
def Obligations.OnlyResetClearsTheFault : Prop :=
  ∀ s t, s.halted = true → step s = .next t → (∀ b, s.event ≠ .reset b) → t.flt = s.flt

/-- R275, R200: only reset clears Sess.wedged. -/
def Obligations.OnlyResetUnwedges : Prop :=
  ∀ s t, s.sess.wedged = true → step s = .next t → (∀ b, s.event ≠ .reset b) → t.sess.wedged = true

/-- R230, R340: only reset reopens a Closed session, and while Closed no timer is armed and no pass is pending. -/
def Obligations.ClosedUntilReset : Prop :=
  ∀ s t, s.ClosedInv → step s = .next t →
    t.ClosedInv ∧ (s.sess.isOpen = false → (∀ b, s.event ≠ .reset b) → t.sess.isOpen = false)

/-- R340, R341, R343: the reset step gives every piece of block state its reset value, empties every port, and leaves the companion
and the log alone. -/
def Obligations.ResetStepValues : Prop :=
  ∀ (s : State) (b : Nat), ∃ t, step { s with inputs := .reset b :: s.inputs } = .next t ∧
    t.sess = { isOpen := true, wedged := false, lock := none, bus := b, lastC2H := 0 } ∧ t.waiting = [] ∧
    t.ch = List.replicate s.cfg.nCh Chan.zero ∧ t.wk = { state := .idle, pending := false, phase := .idle, bitmap := 0 } ∧
    t.armed = true ∧ (∀ p, (t.port p).state = .empty) ∧ t.flt = { code := .none, port := .client 0, cmd := 0 } ∧
    t.seq.owner = none ∧ t.comp = s.comp ∧ t.log = s.log ∧ t.cfg = s.cfg ∧ (State.resetWith s.cfg).log = []

/-- R341: the state a run starts in, for any parameters; ZeroDesc in every channel. -/
def Obligations.ResetStateValues : Prop :=
  ∀ (p : Params) (i : Nat) (q : PortId), let s := State.resetWith p
    s.sess.isOpen = true ∧ s.sess.wedged = false ∧ s.sess.lock = none ∧ s.sess.lastC2H = 0 ∧ s.waiting = [] ∧
    s.chan i = { valid := false, inUse := false, dir := .hostToCompanion, size := 0, base := 0, rd := 0, wr := 0,
                 cbValid := false, cbClient := .client 0, cbCtx := 0 } ∧
    s.wk.state = .idle ∧ s.wk.pending = false ∧ s.wk.bitmap = 0 ∧ s.armed = true ∧ (s.port q).state = .empty ∧
    s.flt.code = .none ∧ s.flt.port = .client 0 ∧ s.flt.cmd = 0 ∧ s.seq.owner = none ∧ s.log = []

/-! ### Interrupts, the worker and the handler -/

/-- R287: the interrupt input sets the pending bit while Open and not halted and does nothing otherwise; an armed timer of an Open,
running block fires: it is disarmed and the pending bit is set. -/
def Obligations.InterruptAndTimer : Prop :=
  ∀ s : State,
    step { s with inputs := .companion .irq :: s.inputs } =
      .next (if s.sess.isOpen = true ∧ s.flt.code = .none then { s with wk := { s.wk with pending := true } } else s) ∧
    step { s with inputs := .timerFire :: s.inputs } =
      .next (if s.armed = true ∧ s.sess.isOpen = true ∧ s.flt.code = .none then
        { s with armed := false, wk := { s.wk with pending := true } } else s)

/-- R290, R297: the pass start, and the worker's grant: Closed ends the pass without rearming; wedged releases the lock without bus
access, and the worker's next step, a step of its own (log 6), ends the pass and rearms the timer; else the mailbox read comes next. -/
def Obligations.PassStartAndGrant : Prop :=
  ∀ (s : State) (ts : List Turn), s.halted = false →
    (s.wk.state = .idle → s.wk.pending = true → Requester.worker ∉ s.waiting →
      step { s with inputs := .passStart :: s.inputs } =
        .next { s with wk := { s.wk with pending := false, state := .dispatching, phase := .lock }
                       waiting := s.waiting ++ [.worker] }) ∧
    (s.sess.lock = none → Requester.worker ∈ s.waiting →
      ∃ t, step { s with inputs := .grant .worker ts :: s.inputs } = .next t ∧ Requester.worker ∉ t.waiting ∧ t.comp = s.comp ∧
        (s.sess.isOpen = false → t.sess.lock = none ∧ t.wk.state = .idle ∧ t.wk.phase = .idle ∧ t.wk.bitmap = 0 ∧ t.armed = s.armed) ∧
        (s.sess.isOpen = true → s.sess.wedged = true → t.sess.lock = none ∧ t.wk = { s.wk with phase := .scan 0, bitmap := 0 } ∧
          (s.wk.state = .dispatching → ∀ d, step { t with inputs := .worker d :: t.inputs } =
            .next { t with armed := true, wk := { s.wk with state := .idle, phase := .idle, bitmap := 0 } })) ∧
        (s.sess.isOpen = true → s.sess.wedged = false →
          t.sess.lock = some .worker ∧ t.seq.owner = some .worker ∧ t.wk.phase = .readMbox))

/-- R290, R291, R292: the worker's mailbox read and clear with their outcomes: an empty mailbox releases the lock; a bitmap is cleared
bit for bit at the companion, stored, and the lock released; a BUS_ERROR is logged, the lock released, nothing dispatched. With
nothing to dispatch the worker's next step, a step of its own (log 6), ends the pass and rearms the timer if the session is Open (R297). -/
def Obligations.WorkerMailboxSteps : Prop :=
  ∀ (s : State) (d : Draw), s.cfg.wf = true → s.halted = false → s.wk.state = .dispatching → s.seq.owner = some .worker →
    let passEnds (t : State) : Prop := t.sess.lock = none ∧ t.seq.owner = none ∧ t.wk = { s.wk with phase := .scan 0, bitmap := 0 } ∧
      ∀ e, step { t with inputs := .worker e :: t.inputs } =
        .next { t with armed := (if s.sess.isOpen then true else s.armed)
                       wk := { s.wk with state := .idle, phase := .idle, bitmap := 0 } }
    (s.wk.phase = .readMbox → ∃ t, step { s with inputs := .worker d :: s.inputs } = .next t ∧ t.comp = s.comp ∧
      (d.fail = true → t.log = s.log ++ [{ kind := .workerBusError, ch := none }] ∧ passEnds t) ∧
      (d.fail = false → t.log = s.log ∧ t.sess.lastC2H = s.comp.c2h ∧
        (s.comp.c2h = 0 → passEnds t) ∧
        (s.comp.c2h ≠ 0 → t.sess.lock = s.sess.lock ∧ t.seq = s.seq ∧ t.wk = { s.wk with phase := .clearMbox s.comp.c2h }))) ∧
    (∀ m, s.wk.phase = .clearMbox m → ∃ t, step { s with inputs := .worker d :: s.inputs } = .next t ∧
      t.comp = (if d.fail = true ∧ d.landed = false then s.comp else { s.comp with c2h := s.comp.c2h &&& ~~~m }) ∧
      (d.fail = true → t.log = s.log ++ [{ kind := .workerBusError, ch := none }] ∧ passEnds t) ∧
      (d.fail = false → t.log = s.log ∧ t.sess.lock = none ∧ t.seq.owner = none ∧
        t.wk = { s.wk with bitmap := m, phase := .scan 0 }))

/-- R293, R294, R295: a scan step takes the lowest set bit: a channel out of range, not valid or not in use is logged and skipped; a
host-to-companion channel is skipped without a log; one without a callback is logged and skipped; else the receive event is handed
to the handler and the pass waits. -/
def Obligations.ScanStep : Prop :=
  ∀ (s : State) (d : Draw) (k j : Nat), s.halted = false → s.wk.state = .dispatching → s.wk.phase = .scan k →
    j < 16 → k ≤ j → s.wk.bitmap.getLsbD j = true → (∀ i, k ≤ i → i < j → s.wk.bitmap.getLsbD i = false) →
    let on := { s with wk := { s.wk with phase := .scan (j + 1) } }
    step { s with inputs := .worker d :: s.inputs } = .next (
      if s.cfg.nCh ≤ j ∨ (s.chan j).valid = false ∨ (s.chan j).inUse = false then
        { on with log := s.log ++ [{ kind := .skipNotInUse, ch := some j }] }
      else if (s.chan j).dir = .hostToCompanion then on
      else if (s.chan j).cbValid = false then { on with log := s.log ++ [{ kind := .skipNoCallback, ch := some j }] }
      else { s with wk := { s.wk with phase := .await j }
                    rx := some { client := (s.chan j).cbClient, ch := j, ctx := (s.chan j).cbCtx } })

/-- R297, R290: when no bit is left the pass ends in one step: the timer is rearmed if the session is Open, the worker is Idle. -/
def Obligations.PassEndStep : Prop :=
  ∀ (s : State) (d : Draw) (k : Nat), s.halted = false → s.wk.state = .dispatching → s.wk.phase = .scan k →
    (∀ i, k ≤ i → i < 16 → s.wk.bitmap.getLsbD i = false) →
    step { s with inputs := .worker d :: s.inputs } =
      .next { s with armed := (if s.sess.isOpen then true else s.armed)
                     wk := { s.wk with state := .idle, bitmap := 0, phase := .idle } }

/-- R296, R256: a return step ends the callback; `fail` is logged as CALLBACK_FAILED of the channel; the scan goes on with the next
set bit in the same step, as a scan step would; with none left it stands behind the channel. While a FRAME_READ the handler runs has
not returned, a return step does nothing, and no step but a reset takes the pass out of Await. -/
def Obligations.CallbackReturn : Prop :=
  (∀ (s : State) (ok : Bool) (k : Nat), s.halted = false → s.wk.phase = .await k → s.handlerPort.prog.active = false →
    let on := { s with wk := { s.wk with phase := .scan (k + 1) }, rx := none,
                       log := if ok then s.log else s.log ++ [{ kind := .callbackFailed, ch := some k }] }
    ((∀ i, k < i → i < 16 → s.wk.bitmap.getLsbD i = false) →
      step { s with inputs := .handlerReturn ok :: s.inputs } = .next on) ∧
    (∀ d i, k < i → i < 16 → s.wk.bitmap.getLsbD i = true → s.wk.state = .dispatching →
      step { s with inputs := .handlerReturn ok :: s.inputs } = step { on with inputs := .worker d :: s.inputs })) ∧
  ∀ (s : State) (k : Nat) (c : BitVec 4) (got : List Word) (ready : Bool), s.LockInv → s.wk.phase = .await k →
    s.handlerPort.prog = .reading c got ready →
    (∀ ok, step { s with inputs := .handlerReturn ok :: s.inputs } = .next s) ∧
    ∀ t, step s = .next t → (∀ b, s.event ≠ .reset b) → t.wk.phase = .await k ∧ t.wk.bitmap = s.wk.bitmap ∧ t.rx = s.rx

/-! ### The arbiter, the ports and the machine as a whole -/

/-- R100, R101, R290: any waiting requester may be granted the free lock: for each there is a step, its grant, after which it alone has
left the waiting set and it holds the lock; but the worker on a Closed or wedged session has released it again in that step. -/
def Obligations.AnyWaiterMayBeGranted : Prop :=
  ∀ (s : State) (q : Requester), s.Inv → s.sess.lock = none → q ∈ s.waiting → s.halted = false →
    ∃ t, step { s with inputs := .grant q [] :: s.inputs } = .next t ∧ q ∉ t.waiting ∧
      t.waiting = s.waiting.filter (fun x => x ≠ q) ∧
      (if q = .worker ∧ (s.sess.isOpen = false ∨ s.sess.wedged = true) then t.sess.lock = none ∧ t.seq.owner = none
       else t.sess.lock = some q ∧ t.seq.owner = some q)

/-- R105, R275, R297: with LOCK_TIMEOUT a waiting requester may time out: it leaves the waiting set and the session is wedged; a port
gets TIMEOUT; the worker's pass ends in the worker's next step, a step of its own (log 6), which dispatches nothing and rearms the
timer if the session is Open. A Q_INIT that ends so leaves its channel with `valid` 0 and no callback (R205), and nothing else of
it changes (R25); no other descriptor changes, and none for any other requester. Without LOCK_TIMEOUT nothing happens. That
a waiting SHUTDOWN gets TIMEOUT too is the model's choice (log 36); that the timeout's own step takes `valid` and the callback of the
Q_INIT's channel is inferred (log 33). -/
def Obligations.LockTimeoutStep : Prop :=
  ∀ (s : State) (q : Requester), s.halted = false → q ∈ s.waiting → s.LockInv → (∀ p, q = .port p → s.hasPort p = true) →
    (s.cfg.lockTimeout = false → step { s with inputs := .lockTimeout q :: s.inputs } = .next s) ∧
    (s.cfg.lockTimeout = true → ∃ t, step { s with inputs := .lockTimeout q :: s.inputs } = .next t ∧
      t.waiting = s.waiting.filter (fun x => x ≠ q) ∧ t.sess = { s.sess with wedged := true } ∧ t.seq = s.seq ∧
      t.comp = s.comp ∧ t.log = s.log ∧
      (let failed (k : Nat) : Prop := ∃ p c, q = .port p ∧ s.portInstr p = some (.qInit c) ∧ k = c.toNat
       ∀ k, (failed k → t.chan k = { s.chan k with valid := false, cbValid := false }) ∧
        (¬ failed k → t.chan k = s.chan k)) ∧
      (∀ p, q = .port p → (t.port p).state = .responded 0x40000000 [] ∧ t.wk = s.wk) ∧
      (q = .worker → ∀ d, step { t with inputs := .worker d :: t.inputs } =
        .next { t with armed := (if s.sess.isOpen then true else s.armed)
                       wk := { s.wk with state := .idle, phase := .idle, bitmap := 0 } }))

/-- R124: taking the response empties the port, whatever the client was doing, and changes nothing else: no other port, and nothing
outside the ports. -/
def Obligations.TakingTheResponse : Prop :=
  ∀ (s : State) (p : PortId) (resp : Word) (data : List Word), (s.port p).state = .responded resp data →
    ∃ t, step { s with inputs := .take p :: s.inputs } = .next t ∧ (t.port p).state = .empty ∧
      (∀ q, q ≠ p → t.port q = s.port q) ∧ { t with clients := s.clients, handlerPort := s.handlerPort } = s

/-- R25, R205: only commands write a descriptor: a step that is neither a port's grant, nor a command's turns, nor a reset changes none,
but for the lock timeout of a waiting Q_INIT, which takes its channel's `valid` and callback and nothing else of it (log 33). So no
other agent's step changes the size, the base or the offsets that a command works with. -/
def Obligations.OnlyCommandsWriteDescriptors : Prop :=
  ∀ s t, step s = .next t → (∀ p ts, s.event ≠ .grant (.port p) ts) → (∀ ts, s.event ≠ .turns ts) → (∀ b, s.event ≠ .reset b) →
    t.ch = s.ch ∨
    ∃ p c, s.event = .lockTimeout (.port p) ∧ s.cfg.lockTimeout = true ∧ Requester.port p ∈ s.waiting ∧
      s.portInstr p = some (.qInit c) ∧ t.ch = s.ch.set c.toNat { s.chan c.toNat with valid := false, cbValid := false }

/-- R103: a bus transaction shows only where it is the lock holder's: but for the companion's own steps, companion state and the model's
record of the last bus answer (log 27) change only in a port's grant of the free lock, in turns of a port that holds it, or in a step of
the worker while it holds it; a reset clears the record. -/
def Obligations.OnlyTheHolderUsesTheBus : Prop :=
  ∀ s t, step s = .next t → s.LockInv → (∀ a, s.event ≠ .companion a) →
    (t.comp = s.comp ∧ t.busResult = s.busResult) ∨
    (∃ b, s.event = .reset b ∧ t.comp = s.comp ∧ t.busResult = .idle) ∨
    (∃ p ts, s.event = .grant (.port p) ts ∧ Requester.port p ∈ s.waiting ∧ s.sess.lock = none) ∨
    (∃ p ts, s.event = .turns ts ∧ s.sess.lock = some (.port p)) ∨
    (∃ d, s.event = .worker d ∧ s.sess.lock = some .worker)

/-- R41, R341, R7: the log is append-only, through every step, a reset step too. No step changes a parameter: that the parameters of
R7 are a field of State is the model's choice (log 1). -/
def Obligations.LogOnlyGrows : Prop :=
  ∀ s t, step s = .next t → s.log <+: t.log ∧ t.cfg = s.cfg

/-- R70, R78: every step keeps companion memory in the model's canonical form (log 7, log 8). -/
def Obligations.MemoryStaysCanonical : Prop :=
  ∀ s t, s.MemInv → step s = .next t → t.MemInv

/-- R103, R100, R102, R27, R29: every step keeps the lock discipline and the ports' coherence. -/
def Obligations.LockAndPortDisciplineKept : Prop :=
  ∀ s t, s.LockInv → s.PortInv → step s = .next t → t.LockInv ∧ t.PortInv

/-- R24, R26, R205: every step keeps the machine's invariant: the table has N_CH descriptors, every valid one has its bounds and so has
the one a Q_READ or Q_WRITE works on up to its commit, a channel whose Q_INIT body runs is ZeroDesc, the lock and the ports are coherent. -/
def Obligations.InvariantKept : Prop :=
  ∀ s t, s.Inv → step s = .next t → t.Inv

/-- R341, R24, R26: the machine's invariant holds at reset, for any parameters. -/
def Obligations.InvariantAtReset : Prop :=
  ∀ p, (State.resetWith p).Inv ∧ (State.resetWith p).ClosedInv

/-- R12, R310: from a state that meets the invariant the machine always goes on: no step ends in one of the model's own stops. -/
def Obligations.StepAlwaysGoesOn : Prop :=
  ∀ s, s.Inv → ∃ t, step s = .next t

/-! ### Command framing -/

/-- R254, R251: FRAME_WRITE presents one Q_WRITE of 1 + M words: the header with TYPE, GRP and LEN = 1 + M, then the payload. -/
def Obligations.FrameWriteExpands : Prop :=
  ∀ (s : State) (p : PortId) (c : BitVec 4) (grp typ : BitVec 8) (ws : List Word),
    s.hasPort p = true → (s.port p).state = .empty → (s.port p).prog.active = false → ws.length ≤ 65534 →
    ∃ hdr : Word, hdr.extractLsb' 0 16 = BitVec.ofNat 16 (1 + ws.length) ∧ hdr.extractLsb' 16 8 = grp ∧
      hdr.extractLsb' 24 8 = typ ∧
      step { s with inputs := .frameWrite p c grp typ ws :: s.inputs } =
        .next (s.setPortState p (.requested ((3 : BitVec 4) ++ c ++ (0 : BitVec 8) ++ BitVec.ofNat 16 (1 + ws.length)) (hdr :: ws)))

/-- R255, R257: FRAME_READ's loop, when the client goes on: without a header it presents a Q_READ of one word; LEN = 0 or above
MAX_FRAME_WORDS ends it PROTOCOL_ERROR; then it presents a Q_READ of what is missing of LEN words; with all of them it ends OK. With
FRAME_DEADLINE a timeout step after one of its reads ends it TIMEOUT with the words got, and does not wedge the session; else there
is no such step. A client with an empty port and no loop in progress starts it with no word got. -/
def Obligations.FrameReadLoop : Prop :=
  (∀ (s : State) (p : PortId) (c : BitVec 4) (got : List Word) (ready : Bool),
    s.hasPort p = true → (s.port p).state = .empty → (s.port p).prog = .reading c got ready →
    let len := (((got.getD 0 0 : Word)).extractLsb' 0 16).toNat
    let ends (st : Status) := s.setPort p { state := .empty, prog := .done st got }
    let reads (n : Nat) := s.setPort p
      { state := .requested ((2 : BitVec 4) ++ c ++ (0 : BitVec 8) ++ BitVec.ofNat 16 n) [], prog := .reading c got false }
    step { s with inputs := .progress p :: s.inputs } = .next (
      if got = [] then reads 1
      else if len = 0 ∨ (∃ m, s.cfg.maxFrameWords = some m ∧ m < len) then ends .protocolError
      else if got.length < len then reads (len - got.length)
      else ends .ok) ∧
    step { s with inputs := .frameDeadline p :: s.inputs } =
      .next (if s.cfg.frameDeadline = true ∧ ready = true then ends .timeout else s)) ∧
  ∀ (s : State) (p : PortId) (c : BitVec 4), s.hasPort p = true → (s.port p).state = .empty →
    ((s.port p).prog = .idle ∨ ∃ st got, (s.port p).prog = .done st got) →
    step { s with inputs := .frameRead p c :: s.inputs } = .next (s.setPort p { state := .empty, prog := .reading c [] false })

/-- R255, R134: what a response does to a client-side loop: FRAME_READ keeps the words of an OK response and ends with any other status;
q.write_retry goes on after WOULD_BLOCK and ends with any other status; neither wedges the session. When q.write_retry goes on, it
presents its Q_WRITE of all the words again. A client with an empty port and no loop in progress starts q.write_retry. -/
def Obligations.ClientLoopsTakeResponses : Prop :=
  (∀ (s : State) (p : PortId) (c : BitVec 4) (got words data : List Word) (ready : Bool) (st : Status) (n : Nat),
    s.hasPort p = true → (s.port p).state = .responded (respWord st n) data →
    ((s.port p).prog = .reading c got ready →
      step { s with inputs := .take p :: s.inputs } = .next (s.setPort p { state := .empty, prog :=
        (if st = .ok then .reading c (got ++ data) true else .done st got) })) ∧
    ((s.port p).prog = .retrying c words ready →
      step { s with inputs := .take p :: s.inputs } = .next (s.setPort p { state := .empty, prog :=
        (if st = .wouldBlock then .retrying c words true else .done st []) }))) ∧
  ∀ (s : State) (p : PortId) (c : BitVec 4) (words : List Word) (ready : Bool),
    s.hasPort p = true → (s.port p).state = .empty → words.length < 65536 →
    ((s.port p).prog = .retrying c words ready →
      step { s with inputs := .progress p :: s.inputs } = .next (s.setPort p
        { state := .requested ((3 : BitVec 4) ++ c ++ (0 : BitVec 8) ++ BitVec.ofNat 16 words.length) words
          prog := .retrying c words false })) ∧
    (((s.port p).prog = .idle ∨ ∃ st got, (s.port p).prog = .done st got) →
      step { s with inputs := .writeRetry p c words :: s.inputs } =
        .next (s.setPort p { state := .empty, prog := .retrying c words false }))
end

