-- ==== Sys2Proof/Laws/Memory.lean ====
section
/-! SUPPORT. The laws of companion memory: reads after writes, and that every memory operation keeps the canonical form. -/

namespace Sys2Proof.Machine

theorem Memory.wf_tail {c : Cell} {l : List Cell} (h : Memory.wf (c :: l) = true) : Memory.wf l = true := by
  cases l with
  | nil => rfl
  | cons d r => simp only [Memory.wf, Bool.and_eq_true] at h; exact h.2

theorem Memory.wf_head {c : Cell} {l : List Cell} (h : Memory.wf (c :: l) = true) : c.2 ≠ Memory.unlisted := by
  cases l with
  | nil => simpa [Memory.wf] using h
  | cons d r => simp only [Memory.wf, Bool.and_eq_true, decide_eq_true_eq] at h; exact h.1.2

/-- An address at or below the head of a canonical list is not listed in its tail. -/
theorem Memory.read_below {y x : Nat} {u : Half} {l : List Cell} (h : Memory.wf ((y, u) :: l) = true) (hx : x ≤ y) :
    Memory.read l x = Memory.unlisted := by
  induction l generalizing y u with
  | nil => rfl
  | cons d r ih =>
    obtain ⟨b, u'⟩ := d
    have hw := Memory.wf_tail h
    simp only [Memory.wf, Bool.and_eq_true, decide_eq_true_eq] at h
    simp only [Memory.read, show ¬x = b by omega, if_false]
    exact ih hw (by omega)

/-- A half-word reads back as written. -/
theorem Memory.read_write_same (m : List Cell) (a : Nat) (v : Half) (h : Memory.wf m = true) :
    Memory.read (Memory.write m a v) a = v := by
  induction m with
  | nil => by_cases hv : v = Memory.unlisted <;> simp [Memory.write, Memory.read, hv]
  | cons c rest ih =>
    obtain ⟨b, u⟩ := c
    have ih := ih (Memory.wf_tail h)
    unfold Memory.write
    split
    · split
      · rename_i h1 hv
        simp only [Memory.read, show ¬a = b by omega, if_false, hv]
        exact Memory.read_below h (by omega)
      · simp [Memory.read]
    · split
      · rename_i h2
        subst h2
        split
        · rename_i hv
          rw [hv]
          exact Memory.read_below h (le_refl _)
        · simp [Memory.read]
      · rename_i h2
        simp only [Memory.read, h2, if_false]
        exact ih

/-- A write leaves every other half-word alone. -/
theorem Memory.read_write_other (m : List Cell) (a x : Nat) (v : Half) (h : x ≠ a) :
    Memory.read (Memory.write m a v) x = Memory.read m x := by
  induction m with
  | nil => unfold Memory.write; split <;> simp [Memory.read, h]
  | cons c rest ih =>
    obtain ⟨b, u⟩ := c
    unfold Memory.write
    split
    · split <;> simp [Memory.read, h]
    · split
      · rename_i h2
        subst h2
        split <;> simp [Memory.read, h]
      · simp [Memory.read, ih]

/-- A cell below everything listed may be put in front. -/
theorem Memory.wf_cons_write {y a : Nat} {u v : Half} {l : List Cell} (h : Memory.wf ((y, u) :: l) = true) (hy : y < a)
    (hw : Memory.wf (Memory.write l a v) = true) : Memory.wf ((y, u) :: Memory.write l a v) = true := by
  have hu := Memory.wf_head h
  cases l with
  | nil => unfold Memory.write at *; split <;> simp_all [Memory.wf]
  | cons d r =>
    obtain ⟨b, u'⟩ := d
    have hb : y < b := by simp only [Memory.wf, Bool.and_eq_true, decide_eq_true_eq] at h; omega
    unfold Memory.write at *
    split at hw
    · split at hw <;> simp_all [Memory.wf]
    · split at hw
      · split at hw
        · rename_i h2 hv
          simp only [*, lt_irrefl, if_false, if_true]
          cases r with
          | nil => simpa [Memory.wf] using hu
          | cons e r' =>
            obtain ⟨z, w⟩ := e
            have hz : b < z := by simp only [Memory.wf, Bool.and_eq_true, decide_eq_true_eq] at h; omega
            simp_all [Memory.wf]
            omega
        · simp_all [Memory.wf]
      · rename_i h1 h2
        simp only [h1, h2, if_false]
        simp_all [Memory.wf]

/-- A write keeps the canonical form. -/
theorem Memory.wf_write (m : List Cell) (a : Nat) (v : Half) (h : Memory.wf m = true) :
    Memory.wf (Memory.write m a v) = true := by
  induction m with
  | nil => unfold Memory.write; split <;> simp_all [Memory.wf]
  | cons c rest ih =>
    obtain ⟨b, u⟩ := c
    have ih := ih (Memory.wf_tail h)
    have hu := Memory.wf_head h
    by_cases h1 : a < b
    · unfold Memory.write
      by_cases hv : v = Memory.unlisted <;> simp_all [Memory.wf]
    · by_cases h2 : a = b
      · subst h2
        unfold Memory.write
        by_cases hv : v = Memory.unlisted
        · simpa [hv] using Memory.wf_tail h
        · cases rest <;> simp_all [Memory.wf]
      · have hb : b < a := by omega
        simpa [Memory.write, h1, h2] using Memory.wf_cons_write h hb ih

/-- The registers and memory after a bus write are canonical again. -/
theorem Comp.write16_wf (p : Params) (a : Word) (v : Half) (c : Comp) (h : Memory.wf c.mem = true) :
    Memory.wf (c.write16 p a v).mem = true := by
  unfold Comp.write16
  split
  · split <;> exact h
  · split
    · exact h
    · split
      · exact h
      · exact Memory.wf_write _ _ _ h

/-- A companion step keeps the canonical form. -/
theorem State.companionStep_wf (s : State) (a : CompAct) (h : Memory.wf s.comp.mem = true) :
    Memory.wf (s.companionStep a).comp.mem = true := by
  cases a <;> simp only [State.companionStep, State.interruptInput, State.reenable]
  case mem a v =>
    split
    · exact h
    · exact Memory.wf_write _ _ _ h
  case irq => split <;> exact h
  case reenable =>
    split
    · exact h
    · split <;> exact h
  all_goals exact h

/-- State.reset's memory is in the canonical form. -/
theorem reset_mem_wf : Memory.wf State.reset.comp.mem = true := rfl

/-- Where a bus write falls in plain memory, it is a memory write. -/
theorem Comp.write16_plain (p : Params) (a : Word) (v : Half) (c : Comp)
    (h1 : a ≠ p.regStatus) (h2 : a ≠ p.regH2C) (h3 : a ≠ p.regC2H) :
    c.write16 p a v = { c with mem := Memory.write c.mem a.toNat v } := by
  simp [Comp.write16, h1, h2, h3]

/-- Where a bus read falls in plain memory, it is a memory read. -/
theorem Comp.read16_plain (p : Params) (noise : Half) (a : Word) (c : Comp)
    (h1 : a ≠ p.regStatus) (h2 : a ≠ p.regH2C) (h3 : a ≠ p.regC2H) :
    c.read16 p noise a = Memory.read c.mem a.toNat := by
  simp [Comp.read16, h1, h2, h3]

/-- A bus write changes no half-word of memory but the one it addresses. -/
theorem Comp.write16_read_other (p : Params) (a : Word) (v : Half) (c : Comp) (x : Nat) (h : x ≠ a.toNat) :
    Memory.read (c.write16 p a v).mem x = Memory.read c.mem x := by
  unfold Comp.write16
  split
  · split <;> rfl
  · split
    · rfl
    · split
      · rfl
      · exact Memory.read_write_other _ _ _ _ h

/-- A bus write to a register leaves memory alone. -/
theorem Comp.write16_register_mem (p : Params) (a : Word) (v : Half) (c : Comp)
    (h : a = p.regStatus ∨ a = p.regH2C ∨ a = p.regC2H) : (c.write16 p a v).mem = c.mem := by
  unfold Comp.write16
  split
  · split <;> rfl
  · split
    · rfl
    · split
      · rfl
      · simp_all

/-- Only a bus write to REG_C2H_MBOX changes the C2H mailbox. -/
theorem Comp.write16_c2h (p : Params) (a : Word) (v : Half) (c : Comp) (h : a ≠ p.regC2H) : (c.write16 p a v).c2h = c.c2h := by
  unfold Comp.write16
  split
  · split <;> rfl
  · split
    · rfl
    · rfl

end Sys2Proof.Machine
end

