-- ==== Sys2Proof/Laws/State.lean ====
section
/-! SUPPORT. What each named update of the state leaves alone, one lemma per field, and what it sets. -/

namespace Sys2Proof.Machine

/-! ### setChan -/

@[simp] theorem State.setChan_cfg (s : State) (i : Nat) (d : Chan) : (s.setChan i d).cfg = s.cfg := rfl
@[simp] theorem State.setChan_sess (s : State) (i : Nat) (d : Chan) : (s.setChan i d).sess = s.sess := rfl
@[simp] theorem State.setChan_waiting (s : State) (i : Nat) (d : Chan) : (s.setChan i d).waiting = s.waiting := rfl
@[simp] theorem State.setChan_wk (s : State) (i : Nat) (d : Chan) : (s.setChan i d).wk = s.wk := rfl
@[simp] theorem State.setChan_armed (s : State) (i : Nat) (d : Chan) : (s.setChan i d).armed = s.armed := rfl
@[simp] theorem State.setChan_clients (s : State) (i : Nat) (d : Chan) : (s.setChan i d).clients = s.clients := rfl
@[simp] theorem State.setChan_handlerPort (s : State) (i : Nat) (d : Chan) : (s.setChan i d).handlerPort = s.handlerPort := rfl
@[simp] theorem State.setChan_flt (s : State) (i : Nat) (d : Chan) : (s.setChan i d).flt = s.flt := rfl
@[simp] theorem State.setChan_seq (s : State) (i : Nat) (d : Chan) : (s.setChan i d).seq = s.seq := rfl
@[simp] theorem State.setChan_comp (s : State) (i : Nat) (d : Chan) : (s.setChan i d).comp = s.comp := rfl
@[simp] theorem State.setChan_rx (s : State) (i : Nat) (d : Chan) : (s.setChan i d).rx = s.rx := rfl
@[simp] theorem State.setChan_log (s : State) (i : Nat) (d : Chan) : (s.setChan i d).log = s.log := rfl
@[simp] theorem State.setChan_busResult (s : State) (i : Nat) (d : Chan) : (s.setChan i d).busResult = s.busResult := rfl
@[simp] theorem State.setChan_draw (s : State) (i : Nat) (d : Chan) : (s.setChan i d).draw = s.draw := rfl
@[simp] theorem State.setChan_turns (s : State) (i : Nat) (d : Chan) : (s.setChan i d).turns = s.turns := rfl
@[simp] theorem State.setChan_inputs (s : State) (i : Nat) (d : Chan) : (s.setChan i d).inputs = s.inputs := rfl
@[simp] theorem State.setChan_clock (s : State) (i : Nat) (d : Chan) : (s.setChan i d).clock = s.clock := rfl

/-! ### goto -/

@[simp] theorem State.goto_cfg (s : State) (l : Label) : (s.goto l).cfg = s.cfg := rfl
@[simp] theorem State.goto_sess (s : State) (l : Label) : (s.goto l).sess = s.sess := rfl
@[simp] theorem State.goto_waiting (s : State) (l : Label) : (s.goto l).waiting = s.waiting := rfl
@[simp] theorem State.goto_ch (s : State) (l : Label) : (s.goto l).ch = s.ch := rfl
@[simp] theorem State.goto_wk (s : State) (l : Label) : (s.goto l).wk = s.wk := rfl
@[simp] theorem State.goto_armed (s : State) (l : Label) : (s.goto l).armed = s.armed := rfl
@[simp] theorem State.goto_clients (s : State) (l : Label) : (s.goto l).clients = s.clients := rfl
@[simp] theorem State.goto_handlerPort (s : State) (l : Label) : (s.goto l).handlerPort = s.handlerPort := rfl
@[simp] theorem State.goto_flt (s : State) (l : Label) : (s.goto l).flt = s.flt := rfl
@[simp] theorem State.goto_comp (s : State) (l : Label) : (s.goto l).comp = s.comp := rfl
@[simp] theorem State.goto_rx (s : State) (l : Label) : (s.goto l).rx = s.rx := rfl
@[simp] theorem State.goto_log (s : State) (l : Label) : (s.goto l).log = s.log := rfl
@[simp] theorem State.goto_busResult (s : State) (l : Label) : (s.goto l).busResult = s.busResult := rfl
@[simp] theorem State.goto_draw (s : State) (l : Label) : (s.goto l).draw = s.draw := rfl
@[simp] theorem State.goto_turns (s : State) (l : Label) : (s.goto l).turns = s.turns := rfl
@[simp] theorem State.goto_inputs (s : State) (l : Label) : (s.goto l).inputs = s.inputs := rfl
@[simp] theorem State.goto_clock (s : State) (l : Label) : (s.goto l).clock = s.clock := rfl

/-! ### wedge -/

@[simp] theorem State.wedge_cfg (s : State) : (s.wedge).cfg = s.cfg := rfl
@[simp] theorem State.wedge_waiting (s : State) : (s.wedge).waiting = s.waiting := rfl
@[simp] theorem State.wedge_ch (s : State) : (s.wedge).ch = s.ch := rfl
@[simp] theorem State.wedge_wk (s : State) : (s.wedge).wk = s.wk := rfl
@[simp] theorem State.wedge_armed (s : State) : (s.wedge).armed = s.armed := rfl
@[simp] theorem State.wedge_clients (s : State) : (s.wedge).clients = s.clients := rfl
@[simp] theorem State.wedge_handlerPort (s : State) : (s.wedge).handlerPort = s.handlerPort := rfl
@[simp] theorem State.wedge_flt (s : State) : (s.wedge).flt = s.flt := rfl
@[simp] theorem State.wedge_seq (s : State) : (s.wedge).seq = s.seq := rfl
@[simp] theorem State.wedge_comp (s : State) : (s.wedge).comp = s.comp := rfl
@[simp] theorem State.wedge_rx (s : State) : (s.wedge).rx = s.rx := rfl
@[simp] theorem State.wedge_log (s : State) : (s.wedge).log = s.log := rfl
@[simp] theorem State.wedge_busResult (s : State) : (s.wedge).busResult = s.busResult := rfl
@[simp] theorem State.wedge_draw (s : State) : (s.wedge).draw = s.draw := rfl
@[simp] theorem State.wedge_turns (s : State) : (s.wedge).turns = s.turns := rfl
@[simp] theorem State.wedge_inputs (s : State) : (s.wedge).inputs = s.inputs := rfl
@[simp] theorem State.wedge_clock (s : State) : (s.wedge).clock = s.clock := rfl

/-! ### emit -/

@[simp] theorem State.emit_cfg (s : State) (k : LogKind) (c : Option Nat) : (s.emit k c).cfg = s.cfg := rfl
@[simp] theorem State.emit_sess (s : State) (k : LogKind) (c : Option Nat) : (s.emit k c).sess = s.sess := rfl
@[simp] theorem State.emit_waiting (s : State) (k : LogKind) (c : Option Nat) : (s.emit k c).waiting = s.waiting := rfl
@[simp] theorem State.emit_ch (s : State) (k : LogKind) (c : Option Nat) : (s.emit k c).ch = s.ch := rfl
@[simp] theorem State.emit_wk (s : State) (k : LogKind) (c : Option Nat) : (s.emit k c).wk = s.wk := rfl
@[simp] theorem State.emit_armed (s : State) (k : LogKind) (c : Option Nat) : (s.emit k c).armed = s.armed := rfl
@[simp] theorem State.emit_clients (s : State) (k : LogKind) (c : Option Nat) : (s.emit k c).clients = s.clients := rfl
@[simp] theorem State.emit_handlerPort (s : State) (k : LogKind) (c : Option Nat) : (s.emit k c).handlerPort = s.handlerPort := rfl
@[simp] theorem State.emit_flt (s : State) (k : LogKind) (c : Option Nat) : (s.emit k c).flt = s.flt := rfl
@[simp] theorem State.emit_seq (s : State) (k : LogKind) (c : Option Nat) : (s.emit k c).seq = s.seq := rfl
@[simp] theorem State.emit_comp (s : State) (k : LogKind) (c : Option Nat) : (s.emit k c).comp = s.comp := rfl
@[simp] theorem State.emit_rx (s : State) (k : LogKind) (c : Option Nat) : (s.emit k c).rx = s.rx := rfl
@[simp] theorem State.emit_busResult (s : State) (k : LogKind) (c : Option Nat) : (s.emit k c).busResult = s.busResult := rfl
@[simp] theorem State.emit_draw (s : State) (k : LogKind) (c : Option Nat) : (s.emit k c).draw = s.draw := rfl
@[simp] theorem State.emit_turns (s : State) (k : LogKind) (c : Option Nat) : (s.emit k c).turns = s.turns := rfl
@[simp] theorem State.emit_inputs (s : State) (k : LogKind) (c : Option Nat) : (s.emit k c).inputs = s.inputs := rfl
@[simp] theorem State.emit_clock (s : State) (k : LogKind) (c : Option Nat) : (s.emit k c).clock = s.clock := rfl

/-! ### raiseOn -/

@[simp] theorem State.raiseOn_cfg (s : State) (code : FaultCode) (p : PortId) (w : Word) : (s.raiseOn code p w).cfg = s.cfg := rfl
@[simp] theorem State.raiseOn_sess (s : State) (code : FaultCode) (p : PortId) (w : Word) : (s.raiseOn code p w).sess = s.sess := rfl
@[simp] theorem State.raiseOn_waiting (s : State) (code : FaultCode) (p : PortId) (w : Word) : (s.raiseOn code p w).waiting = s.waiting := rfl
@[simp] theorem State.raiseOn_ch (s : State) (code : FaultCode) (p : PortId) (w : Word) : (s.raiseOn code p w).ch = s.ch := rfl
@[simp] theorem State.raiseOn_wk (s : State) (code : FaultCode) (p : PortId) (w : Word) : (s.raiseOn code p w).wk = s.wk := rfl
@[simp] theorem State.raiseOn_armed (s : State) (code : FaultCode) (p : PortId) (w : Word) : (s.raiseOn code p w).armed = s.armed := rfl
@[simp] theorem State.raiseOn_clients (s : State) (code : FaultCode) (p : PortId) (w : Word) : (s.raiseOn code p w).clients = s.clients := rfl
@[simp] theorem State.raiseOn_handlerPort (s : State) (code : FaultCode) (p : PortId) (w : Word) : (s.raiseOn code p w).handlerPort = s.handlerPort := rfl
@[simp] theorem State.raiseOn_seq (s : State) (code : FaultCode) (p : PortId) (w : Word) : (s.raiseOn code p w).seq = s.seq := rfl
@[simp] theorem State.raiseOn_comp (s : State) (code : FaultCode) (p : PortId) (w : Word) : (s.raiseOn code p w).comp = s.comp := rfl
@[simp] theorem State.raiseOn_rx (s : State) (code : FaultCode) (p : PortId) (w : Word) : (s.raiseOn code p w).rx = s.rx := rfl
@[simp] theorem State.raiseOn_log (s : State) (code : FaultCode) (p : PortId) (w : Word) : (s.raiseOn code p w).log = s.log := rfl
@[simp] theorem State.raiseOn_busResult (s : State) (code : FaultCode) (p : PortId) (w : Word) : (s.raiseOn code p w).busResult = s.busResult := rfl
@[simp] theorem State.raiseOn_draw (s : State) (code : FaultCode) (p : PortId) (w : Word) : (s.raiseOn code p w).draw = s.draw := rfl
@[simp] theorem State.raiseOn_turns (s : State) (code : FaultCode) (p : PortId) (w : Word) : (s.raiseOn code p w).turns = s.turns := rfl
@[simp] theorem State.raiseOn_inputs (s : State) (code : FaultCode) (p : PortId) (w : Word) : (s.raiseOn code p w).inputs = s.inputs := rfl
@[simp] theorem State.raiseOn_clock (s : State) (code : FaultCode) (p : PortId) (w : Word) : (s.raiseOn code p w).clock = s.clock := rfl

/-! ### raise -/

@[simp] theorem State.raise_cfg (s : State) (code : FaultCode) : (s.raise code).cfg = s.cfg := rfl
@[simp] theorem State.raise_sess (s : State) (code : FaultCode) : (s.raise code).sess = s.sess := rfl
@[simp] theorem State.raise_waiting (s : State) (code : FaultCode) : (s.raise code).waiting = s.waiting := rfl
@[simp] theorem State.raise_ch (s : State) (code : FaultCode) : (s.raise code).ch = s.ch := rfl
@[simp] theorem State.raise_wk (s : State) (code : FaultCode) : (s.raise code).wk = s.wk := rfl
@[simp] theorem State.raise_armed (s : State) (code : FaultCode) : (s.raise code).armed = s.armed := rfl
@[simp] theorem State.raise_clients (s : State) (code : FaultCode) : (s.raise code).clients = s.clients := rfl
@[simp] theorem State.raise_handlerPort (s : State) (code : FaultCode) : (s.raise code).handlerPort = s.handlerPort := rfl
@[simp] theorem State.raise_seq (s : State) (code : FaultCode) : (s.raise code).seq = s.seq := rfl
@[simp] theorem State.raise_comp (s : State) (code : FaultCode) : (s.raise code).comp = s.comp := rfl
@[simp] theorem State.raise_rx (s : State) (code : FaultCode) : (s.raise code).rx = s.rx := rfl
@[simp] theorem State.raise_log (s : State) (code : FaultCode) : (s.raise code).log = s.log := rfl
@[simp] theorem State.raise_busResult (s : State) (code : FaultCode) : (s.raise code).busResult = s.busResult := rfl
@[simp] theorem State.raise_draw (s : State) (code : FaultCode) : (s.raise code).draw = s.draw := rfl
@[simp] theorem State.raise_turns (s : State) (code : FaultCode) : (s.raise code).turns = s.turns := rfl
@[simp] theorem State.raise_inputs (s : State) (code : FaultCode) : (s.raise code).inputs = s.inputs := rfl
@[simp] theorem State.raise_clock (s : State) (code : FaultCode) : (s.raise code).clock = s.clock := rfl

/-! ### release -/

@[simp] theorem State.release_cfg (s : State) : (s.release).cfg = s.cfg := rfl
@[simp] theorem State.release_waiting (s : State) : (s.release).waiting = s.waiting := rfl
@[simp] theorem State.release_ch (s : State) : (s.release).ch = s.ch := rfl
@[simp] theorem State.release_wk (s : State) : (s.release).wk = s.wk := rfl
@[simp] theorem State.release_armed (s : State) : (s.release).armed = s.armed := rfl
@[simp] theorem State.release_clients (s : State) : (s.release).clients = s.clients := rfl
@[simp] theorem State.release_handlerPort (s : State) : (s.release).handlerPort = s.handlerPort := rfl
@[simp] theorem State.release_flt (s : State) : (s.release).flt = s.flt := rfl
@[simp] theorem State.release_comp (s : State) : (s.release).comp = s.comp := rfl
@[simp] theorem State.release_rx (s : State) : (s.release).rx = s.rx := rfl
@[simp] theorem State.release_log (s : State) : (s.release).log = s.log := rfl
@[simp] theorem State.release_busResult (s : State) : (s.release).busResult = s.busResult := rfl
@[simp] theorem State.release_draw (s : State) : (s.release).draw = s.draw := rfl
@[simp] theorem State.release_turns (s : State) : (s.release).turns = s.turns := rfl
@[simp] theorem State.release_inputs (s : State) : (s.release).inputs = s.inputs := rfl
@[simp] theorem State.release_clock (s : State) : (s.release).clock = s.clock := rfl

/-! ### dropWaiting -/

@[simp] theorem State.dropWaiting_cfg (s : State) (q : Requester) : (s.dropWaiting q).cfg = s.cfg := rfl
@[simp] theorem State.dropWaiting_sess (s : State) (q : Requester) : (s.dropWaiting q).sess = s.sess := rfl
@[simp] theorem State.dropWaiting_ch (s : State) (q : Requester) : (s.dropWaiting q).ch = s.ch := rfl
@[simp] theorem State.dropWaiting_wk (s : State) (q : Requester) : (s.dropWaiting q).wk = s.wk := rfl
@[simp] theorem State.dropWaiting_armed (s : State) (q : Requester) : (s.dropWaiting q).armed = s.armed := rfl
@[simp] theorem State.dropWaiting_clients (s : State) (q : Requester) : (s.dropWaiting q).clients = s.clients := rfl
@[simp] theorem State.dropWaiting_handlerPort (s : State) (q : Requester) : (s.dropWaiting q).handlerPort = s.handlerPort := rfl
@[simp] theorem State.dropWaiting_flt (s : State) (q : Requester) : (s.dropWaiting q).flt = s.flt := rfl
@[simp] theorem State.dropWaiting_seq (s : State) (q : Requester) : (s.dropWaiting q).seq = s.seq := rfl
@[simp] theorem State.dropWaiting_comp (s : State) (q : Requester) : (s.dropWaiting q).comp = s.comp := rfl
@[simp] theorem State.dropWaiting_rx (s : State) (q : Requester) : (s.dropWaiting q).rx = s.rx := rfl
@[simp] theorem State.dropWaiting_log (s : State) (q : Requester) : (s.dropWaiting q).log = s.log := rfl
@[simp] theorem State.dropWaiting_busResult (s : State) (q : Requester) : (s.dropWaiting q).busResult = s.busResult := rfl
@[simp] theorem State.dropWaiting_draw (s : State) (q : Requester) : (s.dropWaiting q).draw = s.draw := rfl
@[simp] theorem State.dropWaiting_turns (s : State) (q : Requester) : (s.dropWaiting q).turns = s.turns := rfl
@[simp] theorem State.dropWaiting_inputs (s : State) (q : Requester) : (s.dropWaiting q).inputs = s.inputs := rfl
@[simp] theorem State.dropWaiting_clock (s : State) (q : Requester) : (s.dropWaiting q).clock = s.clock := rfl

/-! ### noDispatch -/

@[simp] theorem State.noDispatch_cfg (s : State) : (s.noDispatch).cfg = s.cfg := rfl
@[simp] theorem State.noDispatch_sess (s : State) : (s.noDispatch).sess = s.sess := rfl
@[simp] theorem State.noDispatch_waiting (s : State) : (s.noDispatch).waiting = s.waiting := rfl
@[simp] theorem State.noDispatch_ch (s : State) : (s.noDispatch).ch = s.ch := rfl
@[simp] theorem State.noDispatch_armed (s : State) : (s.noDispatch).armed = s.armed := rfl
@[simp] theorem State.noDispatch_clients (s : State) : (s.noDispatch).clients = s.clients := rfl
@[simp] theorem State.noDispatch_handlerPort (s : State) : (s.noDispatch).handlerPort = s.handlerPort := rfl
@[simp] theorem State.noDispatch_flt (s : State) : (s.noDispatch).flt = s.flt := rfl
@[simp] theorem State.noDispatch_seq (s : State) : (s.noDispatch).seq = s.seq := rfl
@[simp] theorem State.noDispatch_comp (s : State) : (s.noDispatch).comp = s.comp := rfl
@[simp] theorem State.noDispatch_rx (s : State) : (s.noDispatch).rx = s.rx := rfl
@[simp] theorem State.noDispatch_log (s : State) : (s.noDispatch).log = s.log := rfl
@[simp] theorem State.noDispatch_busResult (s : State) : (s.noDispatch).busResult = s.busResult := rfl
@[simp] theorem State.noDispatch_draw (s : State) : (s.noDispatch).draw = s.draw := rfl
@[simp] theorem State.noDispatch_turns (s : State) : (s.noDispatch).turns = s.turns := rfl
@[simp] theorem State.noDispatch_inputs (s : State) : (s.noDispatch).inputs = s.inputs := rfl
@[simp] theorem State.noDispatch_clock (s : State) : (s.noDispatch).clock = s.clock := rfl

/-! ### addWaiting -/

@[simp] theorem State.addWaiting_cfg (s : State) (q : Requester) : (s.addWaiting q).cfg = s.cfg := by unfold State.addWaiting; split <;> rfl
@[simp] theorem State.addWaiting_sess (s : State) (q : Requester) : (s.addWaiting q).sess = s.sess := by unfold State.addWaiting; split <;> rfl
@[simp] theorem State.addWaiting_ch (s : State) (q : Requester) : (s.addWaiting q).ch = s.ch := by unfold State.addWaiting; split <;> rfl
@[simp] theorem State.addWaiting_wk (s : State) (q : Requester) : (s.addWaiting q).wk = s.wk := by unfold State.addWaiting; split <;> rfl
@[simp] theorem State.addWaiting_armed (s : State) (q : Requester) : (s.addWaiting q).armed = s.armed := by unfold State.addWaiting; split <;> rfl
@[simp] theorem State.addWaiting_clients (s : State) (q : Requester) : (s.addWaiting q).clients = s.clients := by unfold State.addWaiting; split <;> rfl
@[simp] theorem State.addWaiting_handlerPort (s : State) (q : Requester) : (s.addWaiting q).handlerPort = s.handlerPort := by unfold State.addWaiting; split <;> rfl
@[simp] theorem State.addWaiting_flt (s : State) (q : Requester) : (s.addWaiting q).flt = s.flt := by unfold State.addWaiting; split <;> rfl
@[simp] theorem State.addWaiting_seq (s : State) (q : Requester) : (s.addWaiting q).seq = s.seq := by unfold State.addWaiting; split <;> rfl
@[simp] theorem State.addWaiting_comp (s : State) (q : Requester) : (s.addWaiting q).comp = s.comp := by unfold State.addWaiting; split <;> rfl
@[simp] theorem State.addWaiting_rx (s : State) (q : Requester) : (s.addWaiting q).rx = s.rx := by unfold State.addWaiting; split <;> rfl
@[simp] theorem State.addWaiting_log (s : State) (q : Requester) : (s.addWaiting q).log = s.log := by unfold State.addWaiting; split <;> rfl
@[simp] theorem State.addWaiting_busResult (s : State) (q : Requester) : (s.addWaiting q).busResult = s.busResult := by unfold State.addWaiting; split <;> rfl
@[simp] theorem State.addWaiting_draw (s : State) (q : Requester) : (s.addWaiting q).draw = s.draw := by unfold State.addWaiting; split <;> rfl
@[simp] theorem State.addWaiting_turns (s : State) (q : Requester) : (s.addWaiting q).turns = s.turns := by unfold State.addWaiting; split <;> rfl
@[simp] theorem State.addWaiting_inputs (s : State) (q : Requester) : (s.addWaiting q).inputs = s.inputs := by unfold State.addWaiting; split <;> rfl
@[simp] theorem State.addWaiting_clock (s : State) (q : Requester) : (s.addWaiting q).clock = s.clock := by unfold State.addWaiting; split <;> rfl

/-! ### setPort -/

@[simp] theorem State.setPort_cfg (s : State) (p : PortId) (v : Port) : (s.setPort p v).cfg = s.cfg := by cases p <;> rfl
@[simp] theorem State.setPort_sess (s : State) (p : PortId) (v : Port) : (s.setPort p v).sess = s.sess := by cases p <;> rfl
@[simp] theorem State.setPort_waiting (s : State) (p : PortId) (v : Port) : (s.setPort p v).waiting = s.waiting := by cases p <;> rfl
@[simp] theorem State.setPort_ch (s : State) (p : PortId) (v : Port) : (s.setPort p v).ch = s.ch := by cases p <;> rfl
@[simp] theorem State.setPort_wk (s : State) (p : PortId) (v : Port) : (s.setPort p v).wk = s.wk := by cases p <;> rfl
@[simp] theorem State.setPort_armed (s : State) (p : PortId) (v : Port) : (s.setPort p v).armed = s.armed := by cases p <;> rfl
@[simp] theorem State.setPort_flt (s : State) (p : PortId) (v : Port) : (s.setPort p v).flt = s.flt := by cases p <;> rfl
@[simp] theorem State.setPort_seq (s : State) (p : PortId) (v : Port) : (s.setPort p v).seq = s.seq := by cases p <;> rfl
@[simp] theorem State.setPort_comp (s : State) (p : PortId) (v : Port) : (s.setPort p v).comp = s.comp := by cases p <;> rfl
@[simp] theorem State.setPort_rx (s : State) (p : PortId) (v : Port) : (s.setPort p v).rx = s.rx := by cases p <;> rfl
@[simp] theorem State.setPort_log (s : State) (p : PortId) (v : Port) : (s.setPort p v).log = s.log := by cases p <;> rfl
@[simp] theorem State.setPort_busResult (s : State) (p : PortId) (v : Port) : (s.setPort p v).busResult = s.busResult := by cases p <;> rfl
@[simp] theorem State.setPort_draw (s : State) (p : PortId) (v : Port) : (s.setPort p v).draw = s.draw := by cases p <;> rfl
@[simp] theorem State.setPort_turns (s : State) (p : PortId) (v : Port) : (s.setPort p v).turns = s.turns := by cases p <;> rfl
@[simp] theorem State.setPort_inputs (s : State) (p : PortId) (v : Port) : (s.setPort p v).inputs = s.inputs := by cases p <;> rfl
@[simp] theorem State.setPort_clock (s : State) (p : PortId) (v : Port) : (s.setPort p v).clock = s.clock := by cases p <;> rfl

/-! ### setPortState -/

@[simp] theorem State.setPortState_cfg (s : State) (p : PortId) (v : PortState) : (s.setPortState p v).cfg = s.cfg := by cases p <;> rfl
@[simp] theorem State.setPortState_sess (s : State) (p : PortId) (v : PortState) : (s.setPortState p v).sess = s.sess := by cases p <;> rfl
@[simp] theorem State.setPortState_waiting (s : State) (p : PortId) (v : PortState) : (s.setPortState p v).waiting = s.waiting := by cases p <;> rfl
@[simp] theorem State.setPortState_ch (s : State) (p : PortId) (v : PortState) : (s.setPortState p v).ch = s.ch := by cases p <;> rfl
@[simp] theorem State.setPortState_wk (s : State) (p : PortId) (v : PortState) : (s.setPortState p v).wk = s.wk := by cases p <;> rfl
@[simp] theorem State.setPortState_armed (s : State) (p : PortId) (v : PortState) : (s.setPortState p v).armed = s.armed := by cases p <;> rfl
@[simp] theorem State.setPortState_flt (s : State) (p : PortId) (v : PortState) : (s.setPortState p v).flt = s.flt := by cases p <;> rfl
@[simp] theorem State.setPortState_seq (s : State) (p : PortId) (v : PortState) : (s.setPortState p v).seq = s.seq := by cases p <;> rfl
@[simp] theorem State.setPortState_comp (s : State) (p : PortId) (v : PortState) : (s.setPortState p v).comp = s.comp := by cases p <;> rfl
@[simp] theorem State.setPortState_rx (s : State) (p : PortId) (v : PortState) : (s.setPortState p v).rx = s.rx := by cases p <;> rfl
@[simp] theorem State.setPortState_log (s : State) (p : PortId) (v : PortState) : (s.setPortState p v).log = s.log := by cases p <;> rfl
@[simp] theorem State.setPortState_busResult (s : State) (p : PortId) (v : PortState) : (s.setPortState p v).busResult = s.busResult := by cases p <;> rfl
@[simp] theorem State.setPortState_draw (s : State) (p : PortId) (v : PortState) : (s.setPortState p v).draw = s.draw := by cases p <;> rfl
@[simp] theorem State.setPortState_turns (s : State) (p : PortId) (v : PortState) : (s.setPortState p v).turns = s.turns := by cases p <;> rfl
@[simp] theorem State.setPortState_inputs (s : State) (p : PortId) (v : PortState) : (s.setPortState p v).inputs = s.inputs := by cases p <;> rfl
@[simp] theorem State.setPortState_clock (s : State) (p : PortId) (v : PortState) : (s.setPortState p v).clock = s.clock := by cases p <;> rfl

/-! ### setProg -/

@[simp] theorem State.setProg_cfg (s : State) (p : PortId) (g : Prog) : (s.setProg p g).cfg = s.cfg := by cases p <;> rfl
@[simp] theorem State.setProg_sess (s : State) (p : PortId) (g : Prog) : (s.setProg p g).sess = s.sess := by cases p <;> rfl
@[simp] theorem State.setProg_waiting (s : State) (p : PortId) (g : Prog) : (s.setProg p g).waiting = s.waiting := by cases p <;> rfl
@[simp] theorem State.setProg_ch (s : State) (p : PortId) (g : Prog) : (s.setProg p g).ch = s.ch := by cases p <;> rfl
@[simp] theorem State.setProg_wk (s : State) (p : PortId) (g : Prog) : (s.setProg p g).wk = s.wk := by cases p <;> rfl
@[simp] theorem State.setProg_armed (s : State) (p : PortId) (g : Prog) : (s.setProg p g).armed = s.armed := by cases p <;> rfl
@[simp] theorem State.setProg_flt (s : State) (p : PortId) (g : Prog) : (s.setProg p g).flt = s.flt := by cases p <;> rfl
@[simp] theorem State.setProg_seq (s : State) (p : PortId) (g : Prog) : (s.setProg p g).seq = s.seq := by cases p <;> rfl
@[simp] theorem State.setProg_comp (s : State) (p : PortId) (g : Prog) : (s.setProg p g).comp = s.comp := by cases p <;> rfl
@[simp] theorem State.setProg_rx (s : State) (p : PortId) (g : Prog) : (s.setProg p g).rx = s.rx := by cases p <;> rfl
@[simp] theorem State.setProg_log (s : State) (p : PortId) (g : Prog) : (s.setProg p g).log = s.log := by cases p <;> rfl
@[simp] theorem State.setProg_busResult (s : State) (p : PortId) (g : Prog) : (s.setProg p g).busResult = s.busResult := by cases p <;> rfl
@[simp] theorem State.setProg_draw (s : State) (p : PortId) (g : Prog) : (s.setProg p g).draw = s.draw := by cases p <;> rfl
@[simp] theorem State.setProg_turns (s : State) (p : PortId) (g : Prog) : (s.setProg p g).turns = s.turns := by cases p <;> rfl
@[simp] theorem State.setProg_inputs (s : State) (p : PortId) (g : Prog) : (s.setProg p g).inputs = s.inputs := by cases p <;> rfl
@[simp] theorem State.setProg_clock (s : State) (p : PortId) (g : Prog) : (s.setProg p g).clock = s.clock := by cases p <;> rfl

/-! ### respond -/

@[simp] theorem State.respond_cfg (s : State) (st : Status) (n : Nat) (data : List Word) : (s.respond st n data).cfg = s.cfg := by unfold State.respond; simp
@[simp] theorem State.respond_waiting (s : State) (st : Status) (n : Nat) (data : List Word) : (s.respond st n data).waiting = s.waiting := by unfold State.respond; simp
@[simp] theorem State.respond_ch (s : State) (st : Status) (n : Nat) (data : List Word) : (s.respond st n data).ch = s.ch := by unfold State.respond; simp
@[simp] theorem State.respond_wk (s : State) (st : Status) (n : Nat) (data : List Word) : (s.respond st n data).wk = s.wk := by unfold State.respond; simp
@[simp] theorem State.respond_armed (s : State) (st : Status) (n : Nat) (data : List Word) : (s.respond st n data).armed = s.armed := by unfold State.respond; simp
@[simp] theorem State.respond_flt (s : State) (st : Status) (n : Nat) (data : List Word) : (s.respond st n data).flt = s.flt := by unfold State.respond; simp
@[simp] theorem State.respond_comp (s : State) (st : Status) (n : Nat) (data : List Word) : (s.respond st n data).comp = s.comp := by unfold State.respond; simp
@[simp] theorem State.respond_rx (s : State) (st : Status) (n : Nat) (data : List Word) : (s.respond st n data).rx = s.rx := by unfold State.respond; simp
@[simp] theorem State.respond_log (s : State) (st : Status) (n : Nat) (data : List Word) : (s.respond st n data).log = s.log := by unfold State.respond; simp
@[simp] theorem State.respond_busResult (s : State) (st : Status) (n : Nat) (data : List Word) : (s.respond st n data).busResult = s.busResult := by unfold State.respond; simp
@[simp] theorem State.respond_draw (s : State) (st : Status) (n : Nat) (data : List Word) : (s.respond st n data).draw = s.draw := by unfold State.respond; simp
@[simp] theorem State.respond_turns (s : State) (st : Status) (n : Nat) (data : List Word) : (s.respond st n data).turns = s.turns := by unfold State.respond; simp
@[simp] theorem State.respond_inputs (s : State) (st : Status) (n : Nat) (data : List Word) : (s.respond st n data).inputs = s.inputs := by unfold State.respond; simp
@[simp] theorem State.respond_clock (s : State) (st : Status) (n : Nat) (data : List Word) : (s.respond st n data).clock = s.clock := by unfold State.respond; simp

/-! ### What the updates set -/

@[simp] theorem State.goto_step (s : State) (l : Label) : (s.goto l).seq.step = l := rfl
@[simp] theorem State.goto_owner (s : State) (l : Label) : (s.goto l).seq.owner = s.seq.owner := rfl
@[simp] theorem State.goto_seqCmd (s : State) (l : Label) : (s.goto l).seq.cmd = s.seq.cmd := rfl
@[simp] theorem State.wedge_isOpen (s : State) : s.wedge.sess.isOpen = s.sess.isOpen := rfl
@[simp] theorem State.wedge_wedged (s : State) : s.wedge.sess.wedged = true := rfl
@[simp] theorem State.wedge_lock (s : State) : s.wedge.sess.lock = s.sess.lock := rfl
@[simp] theorem State.wedge_bus (s : State) : s.wedge.sess.bus = s.sess.bus := rfl
@[simp] theorem State.wedge_lastC2H (s : State) : s.wedge.sess.lastC2H = s.sess.lastC2H := rfl
@[simp] theorem State.release_isOpen (s : State) : s.release.sess.isOpen = s.sess.isOpen := rfl
@[simp] theorem State.release_wedged (s : State) : s.release.sess.wedged = s.sess.wedged := rfl
@[simp] theorem State.release_lock (s : State) : s.release.sess.lock = none := rfl
@[simp] theorem State.release_bus (s : State) : s.release.sess.bus = s.sess.bus := rfl
@[simp] theorem State.release_lastC2H (s : State) : s.release.sess.lastC2H = s.sess.lastC2H := rfl
@[simp] theorem State.release_owner (s : State) : s.release.seq.owner = none := rfl
@[simp] theorem State.release_step (s : State) : s.release.seq.step = .off := rfl
@[simp] theorem State.release_seqCmd (s : State) : s.release.seq.cmd = s.seq.cmd := rfl
@[simp] theorem State.respond_sess (s : State) (st : Status) (n : Nat) (data : List Word) :
    (s.respond st n data).sess = { s.sess with lock := none } := by simp [State.respond, State.release]
@[simp] theorem State.respond_seq (s : State) (st : Status) (n : Nat) (data : List Word) :
    (s.respond st n data).seq = { s.seq with owner := none, step := .off } := by simp [State.respond, State.release]
@[simp] theorem State.raiseOn_code (s : State) (code : FaultCode) (p : PortId) (w : Word) :
    (s.raiseOn code p w).flt.code = code := rfl
@[simp] theorem State.raise_flt (s : State) (code : FaultCode) :
    (s.raise code).flt = { code := code, port := s.commandPort, cmd := s.seq.cmd } := rfl
@[simp] theorem State.setChan_ch (s : State) (i : Nat) (d : Chan) : (s.setChan i d).ch = s.ch.set i d := rfl
@[simp] theorem State.goto_chan (s : State) (l : Label) (i : Nat) : (s.goto l).chan i = s.chan i := rfl
@[simp] theorem State.dropWaiting_chan (s : State) (q : Requester) (i : Nat) : (s.dropWaiting q).chan i = s.chan i := rfl
@[simp] theorem State.wedge_chan (s : State) (i : Nat) : s.wedge.chan i = s.chan i := rfl
@[simp] theorem State.goto_commandPort (s : State) (l : Label) : (s.goto l).commandPort = s.commandPort := rfl
@[simp] theorem State.setChan_commandPort (s : State) (i : Nat) (d : Chan) : (s.setChan i d).commandPort = s.commandPort := rfl
@[simp] theorem State.wedge_commandPort (s : State) : s.wedge.commandPort = s.commandPort := rfl
@[simp] theorem State.goto_halted (s : State) (l : Label) : (s.goto l).halted = s.halted := rfl
@[simp] theorem State.setChan_halted (s : State) (i : Nat) (d : Chan) : (s.setChan i d).halted = s.halted := rfl
@[simp] theorem State.wedge_halted (s : State) : s.wedge.halted = s.halted := rfl
@[simp] theorem State.goto_goto (s : State) (l l' : Label) : (s.goto l).goto l' = s.goto l' := rfl
@[simp] theorem State.goto_half (s : State) (l : Label) (a : Word) : (s.goto l).half a = s.half a := rfl
@[simp] theorem State.setChan_half (s : State) (i : Nat) (d : Chan) (a : Word) : (s.setChan i d).half a = s.half a := rfl

/-! ### Chan.invalidated -/

@[simp] theorem Chan.invalidated_valid (d : Chan) : d.invalidated.valid = false := rfl
@[simp] theorem Chan.invalidated_cbValid (d : Chan) : d.invalidated.cbValid = false := rfl
@[simp] theorem Chan.invalidated_inUse (d : Chan) : d.invalidated.inUse = d.inUse := rfl
@[simp] theorem Chan.invalidated_dir (d : Chan) : d.invalidated.dir = d.dir := rfl
@[simp] theorem Chan.invalidated_size (d : Chan) : d.invalidated.size = d.size := rfl
@[simp] theorem Chan.invalidated_base (d : Chan) : d.invalidated.base = d.base := rfl
@[simp] theorem Chan.invalidated_rd (d : Chan) : d.invalidated.rd = d.rd := rfl
@[simp] theorem Chan.invalidated_wr (d : Chan) : d.invalidated.wr = d.wr := rfl
@[simp] theorem Chan.invalidated_cbClient (d : Chan) : d.invalidated.cbClient = d.cbClient := rfl
@[simp] theorem Chan.invalidated_cbCtx (d : Chan) : d.invalidated.cbCtx = d.cbCtx := rfl
@[simp] theorem Chan.invalidated_zero : Chan.zero.invalidated = Chan.zero := rfl

/-- A descriptor reads back as written, where the table has it. -/
theorem State.setChan_chan_same (s : State) (i : Nat) (d : Chan) (h : i < s.ch.length) : (s.setChan i d).chan i = d := by
  simp [State.chan, State.setChan, h]

/-- Writing a descriptor leaves every other alone. -/
theorem State.setChan_chan_other (s : State) (i j : Nat) (d : Chan) (h : i ≠ j) : (s.setChan i d).chan j = s.chan j := by
  simp [State.chan, State.setChan, h]

/-- What a descriptor reads as after one is written: the written one or the old one. -/
theorem State.setChan_chan (s : State) (i j : Nat) (d : Chan) :
    (s.setChan i d).chan j = if i = j ∧ i < s.ch.length then d else s.chan j := by
  by_cases h : i = j
  · subst h
    by_cases hl : i < s.ch.length
    · simp [State.setChan_chan_same s i d hl, hl]
    · simp [State.chan, State.setChan, hl]
  · simp [State.setChan_chan_other s i j d h, h]

/-- A port reads back as written, where the block has it. -/
theorem State.setPort_port_same (s : State) (p : PortId) (v : Port) (h : s.hasPort p = true) : (s.setPort p v).port p = v := by
  cases p with
  | handler => rfl
  | client k => simp only [State.hasPort, decide_eq_true_eq] at h; simp [State.port, State.setPort, h]

/-- Writing a port leaves every other alone. -/
theorem State.setPort_port_other (s : State) (p q : PortId) (v : Port) (h : p ≠ q) : (s.setPort p v).port q = s.port q := by
  cases p <;> cases q <;> simp_all [State.port, State.setPort]

/-- The part of a port a write of another field leaves alone, at every port. -/
theorem State.setPort_port (s : State) (p q : PortId) (v : Port) :
    (s.setPort p v).port q = if p = q ∧ s.hasPort p = true then v else s.port q := by
  by_cases h : p = q
  · subst h
    by_cases hp : s.hasPort p = true
    · simp [State.setPort_port_same s p v hp, hp]
    · cases p with
      | handler => simp [State.hasPort] at hp
      | client k => simp only [State.hasPort, decide_eq_true_eq] at hp; simp [State.port, State.setPort, State.hasPort, hp]
  · simp [State.setPort_port_other s p q v h, h]

end Sys2Proof.Machine
end

