-- ==== Sys2Proof/Laws/Run.lean ====
section
/-! SUPPORT. What a bus transaction, one turn of a command, a run of turns and a granted command can do, each said once. -/

namespace Sys2Proof.Machine

/-! ### One bus transaction -/

/-- A transaction is exactly one of: a fault at an odd address, a failed transfer, a read, a write. -/
theorem State.transact_cases (r : BusRec) (s : State) :
    (oddAddress r.addr = true ∧ s.transact r = s.raise .misalignedBusAddress) ∨
    (oddAddress r.addr = false ∧ s.draw.fail = true ∧ s.transact r =
      { s with busResult := .busError
               comp := if r.write ∧ s.draw.landed then s.comp.write16 s.cfg r.addr r.data else s.comp }) ∨
    (oddAddress r.addr = false ∧ s.draw.fail = false ∧ r.write = false ∧ s.transact r =
      { s with busResult := .value (s.comp.read16 s.cfg s.draw.noise r.addr) }) ∨
    (oddAddress r.addr = false ∧ s.draw.fail = false ∧ r.write = true ∧ s.transact r =
      { s with busResult := .written, comp := s.comp.write16 s.cfg r.addr r.data }) := by
  obtain ⟨w, a, v⟩ := r
  cases w <;> cases ho : oddAddress a <;> cases hf : s.draw.fail <;>
    simp [State.transact, decodeBus, State.busRead, State.busWrite, ho, hf]

/-- What no transaction touches. -/
theorem State.transact_same (r : BusRec) (s : State) :
    ∃ flt comp res, s.transact r = { s with flt := flt, comp := comp, busResult := res } := by
  rcases State.transact_cases r s with ⟨_, h⟩ | ⟨_, _, h⟩ | ⟨_, _, _, h⟩ | ⟨_, _, _, h⟩ <;> rw [h] <;> exact ⟨_, _, _, rfl⟩

@[simp] theorem State.transact_cfg (r : BusRec) (s : State) : (s.transact r).cfg = s.cfg := by
  obtain ⟨_, _, _, h⟩ := s.transact_same r; rw [h]
@[simp] theorem State.transact_sess (r : BusRec) (s : State) : (s.transact r).sess = s.sess := by
  obtain ⟨_, _, _, h⟩ := s.transact_same r; rw [h]
@[simp] theorem State.transact_waiting (r : BusRec) (s : State) : (s.transact r).waiting = s.waiting := by
  obtain ⟨_, _, _, h⟩ := s.transact_same r; rw [h]
@[simp] theorem State.transact_ch (r : BusRec) (s : State) : (s.transact r).ch = s.ch := by
  obtain ⟨_, _, _, h⟩ := s.transact_same r; rw [h]
@[simp] theorem State.transact_chan (r : BusRec) (s : State) (i : Nat) : (s.transact r).chan i = s.chan i := by
  obtain ⟨_, _, _, h⟩ := s.transact_same r; rw [h]; rfl
@[simp] theorem State.transact_wk (r : BusRec) (s : State) : (s.transact r).wk = s.wk := by
  obtain ⟨_, _, _, h⟩ := s.transact_same r; rw [h]
@[simp] theorem State.transact_armed (r : BusRec) (s : State) : (s.transact r).armed = s.armed := by
  obtain ⟨_, _, _, h⟩ := s.transact_same r; rw [h]
@[simp] theorem State.transact_clients (r : BusRec) (s : State) : (s.transact r).clients = s.clients := by
  obtain ⟨_, _, _, h⟩ := s.transact_same r; rw [h]
@[simp] theorem State.transact_handlerPort (r : BusRec) (s : State) : (s.transact r).handlerPort = s.handlerPort := by
  obtain ⟨_, _, _, h⟩ := s.transact_same r; rw [h]
@[simp] theorem State.transact_port (r : BusRec) (s : State) (p : PortId) : (s.transact r).port p = s.port p := by
  obtain ⟨_, _, _, h⟩ := s.transact_same r; rw [h]; rfl
@[simp] theorem State.transact_seq (r : BusRec) (s : State) : (s.transact r).seq = s.seq := by
  obtain ⟨_, _, _, h⟩ := s.transact_same r; rw [h]
@[simp] theorem State.transact_rx (r : BusRec) (s : State) : (s.transact r).rx = s.rx := by
  obtain ⟨_, _, _, h⟩ := s.transact_same r; rw [h]
@[simp] theorem State.transact_log (r : BusRec) (s : State) : (s.transact r).log = s.log := by
  obtain ⟨_, _, _, h⟩ := s.transact_same r; rw [h]
@[simp] theorem State.transact_draw (r : BusRec) (s : State) : (s.transact r).draw = s.draw := by
  obtain ⟨_, _, _, h⟩ := s.transact_same r; rw [h]
@[simp] theorem State.transact_turns (r : BusRec) (s : State) : (s.transact r).turns = s.turns := by
  obtain ⟨_, _, _, h⟩ := s.transact_same r; rw [h]
@[simp] theorem State.transact_inputs (r : BusRec) (s : State) : (s.transact r).inputs = s.inputs := by
  obtain ⟨_, _, _, h⟩ := s.transact_same r; rw [h]
@[simp] theorem State.transact_clock (r : BusRec) (s : State) : (s.transact r).clock = s.clock := by
  obtain ⟨_, _, _, h⟩ := s.transact_same r; rw [h]

/-- BUSY is the companion's alone: no bus write changes it. -/
@[simp] theorem Comp.write16_busy (p : Params) (a : Word) (v : Half) (c : Comp) : (c.write16 p a v).busy = c.busy := by
  unfold Comp.write16; split <;> (try split) <;> (try split) <;> rfl

@[simp] theorem State.transact_busy (r : BusRec) (s : State) : (s.transact r).comp.busy = s.comp.busy := by
  rcases State.transact_cases r s with ⟨_, h⟩ | ⟨_, _, h⟩ | ⟨_, _, _, h⟩ | ⟨_, _, _, h⟩ <;> rw [h]
  · rfl
  · dsimp only; split <;> simp
  · simp

/-- A read leaves the companion alone. -/
theorem State.transact_read_comp {r : BusRec} (h : r.write = false) (s : State) : (s.transact r).comp = s.comp := by
  rcases State.transact_cases r s with ⟨_, e⟩ | ⟨_, _, e⟩ | ⟨_, _, _, e⟩ | ⟨_, _, hw, e⟩ <;> rw [e]
  · rfl
  · simp [h]
  · simp [h] at hw

/-- Every transaction keeps the canonical form of memory. -/
theorem State.transact_wf (r : BusRec) (s : State) (h : Memory.wf s.comp.mem = true) :
    Memory.wf (s.transact r).comp.mem = true := by
  rcases State.transact_cases r s with ⟨_, e⟩ | ⟨_, _, e⟩ | ⟨_, _, _, e⟩ | ⟨_, _, _, e⟩ <;> rw [e]
  · exact h
  · dsimp only; split
    · exact Comp.write16_wf _ _ _ _ h
    · exact h
  · exact h
  · exact Comp.write16_wf _ _ _ _ h

/-- Two addresses name one half-word only if they are equal. -/
theorem toNat_ne {a b : Word} (h : a ≠ b) : a.toNat ≠ b.toNat := fun e => h (BitVec.eq_of_toNat_eq e)

/-- A transaction changes no half-word of memory but the one a write names. -/
theorem State.transact_half_other (r : BusRec) (s : State) (a : Word) (h : r.write = true → a ≠ r.addr) :
    (s.transact r).half a = s.half a := by
  rcases State.transact_cases r s with ⟨_, e⟩ | ⟨_, _, e⟩ | ⟨_, _, _, e⟩ | ⟨_, _, hw, e⟩ <;> rw [e] <;> unfold State.half
  · rfl
  · dsimp only; split
    · rename_i hw; exact Comp.write16_read_other _ _ _ _ _ (toNat_ne (h hw.1))
    · rfl
  · rfl
  · exact Comp.write16_read_other _ _ _ _ _ (toNat_ne (h hw))

/-- What a transaction makes of the companion: nothing, or its write. -/
theorem State.transact_comp (r : BusRec) (s : State) :
    (s.transact r).comp = s.comp ∨ r.write = true ∧ (s.transact r).comp = s.comp.write16 s.cfg r.addr r.data := by
  rcases State.transact_cases r s with ⟨_, e⟩ | ⟨_, _, e⟩ | ⟨_, _, _, e⟩ | ⟨_, _, hw, e⟩ <;> rw [e]
  · exact .inl rfl
  · dsimp only; split
    · rename_i h; exact .inr ⟨h.1, rfl⟩
    · exact .inl rfl
  · exact .inl rfl
  · exact .inr ⟨hw, rfl⟩

/-- A transaction that does not halt the block leaves the fault record alone. -/
theorem State.transact_flt {r : BusRec} {s : State} (h : (s.transact r).halted = false) : (s.transact r).flt = s.flt := by
  rcases State.transact_cases r s with ⟨_, e⟩ | ⟨_, _, e⟩ | ⟨_, _, _, e⟩ | ⟨_, _, _, e⟩ <;> rw [e] at h ⊢
  simp [State.halted] at h

/-- A good read at an even address. -/
theorem State.transact_rd16 {a : Word} {s : State} (ho : oddAddress a = false) (hf : s.draw.fail = false) :
    s.transact (rd16 a) = { s with busResult := .value (s.comp.read16 s.cfg s.draw.noise a) } := by
  simp [State.transact, decodeBus, rd16, State.busRead, ho, hf]

/-- A good write at an even address. -/
theorem State.transact_wr16 {a : Word} {v : Half} {s : State} (ho : oddAddress a = false) (hf : s.draw.fail = false) :
    s.transact (wr16 a v) = { s with busResult := .written, comp := s.comp.write16 s.cfg a v } := by
  simp [State.transact, decodeBus, wr16, State.busWrite, ho, hf]

/-- The record's kind tells whether it can change the companion. -/
@[simp] theorem rd16_write (a : Word) : (rd16 a).write = false := rfl
@[simp] theorem wr16_write (a : Word) (v : Half) : (wr16 a v).write = true := rfl
@[simp] theorem wr16_addr (a : Word) (v : Half) : (wr16 a v).addr = a := rfl
@[simp] theorem rd16_addr (a : Word) : (rd16 a).addr = a := rfl

/-! ### One turn of a command -/

/-- Whatever a turn can end in: a local step, a halt, an early end, or what follows a read or a write. -/
theorem State.turnWith_ind {P : State → Prop} {record : Option BusRec} {onValue : Half → State → State}
    {onWritten : State → State} {s : State} (hnone : record = none → P s.localTurn)
    (hhalt : ∀ r, record = some r → (s.transact r).halted = true → P (s.transact r))
    (hidle : ∀ r, record = some r → (s.transact r).halted = false → P (s.transact r))
    (hend : ∀ r, record = some r → (s.transact r).halted = false → P ((s.transact r).endEarly .busError))
    (hval : ∀ r v, record = some r → (s.transact r).halted = false → r.write = false → (s.transact r).busResult = .value v →
      P (onValue v (s.transact r)))
    (hwr : ∀ r, record = some r → (s.transact r).halted = false → r.write = true → P (onWritten (s.transact r))) :
    P (s.turnWith record onValue onWritten) := by
  unfold State.turnWith
  split
  · exact hnone rfl
  · rename_i r
    dsimp only
    split
    · rename_i h; exact hhalt r rfl h
    · rename_i h
      have h : (s.transact r).halted = false := by simpa using h
      split
      · exact hend r rfl h
      · rename_i v hv
        refine hval r v rfl h ?_ hv
        rcases State.transact_cases r s with ⟨_, e⟩ | ⟨_, _, e⟩ | ⟨_, _, hw, e⟩ | ⟨_, _, _, e⟩
        · rw [e] at h; simp [State.halted] at h
        · rw [e] at hv; simp at hv
        · exact hw
        · rw [e] at hv; simp at hv
      · rename_i hv
        refine hwr r rfl h ?_
        rcases State.transact_cases r s with ⟨_, e⟩ | ⟨_, _, e⟩ | ⟨_, _, _, e⟩ | ⟨_, _, hw, e⟩
        · rw [e] at h; simp [State.halted] at h
        · rw [e] at hv; simp at hv
        · rw [e] at hv; simp at hv
        · exact hw
      · exact hidle r rfl h

/-- An early end only moves the sequencer to the response. -/
theorem State.endEarly_eq (st : Status) (s : State) : ∃ n data, s.endEarly st = s.goto (.respond st n data) := by
  unfold State.endEarly; split <;> exact ⟨_, _, rfl⟩

/-- After a poll: the next label, another poll, or the wedge with TIMEOUT. -/
theorem State.afterPoll_cases (second : Bool) (polls : Nat) (v : Half) (next : Label) (s : State) :
    s.afterPoll second polls v next = s.goto next ∨
    s.afterPoll second polls v next = s.goto (.poll second (polls + 1)) ∨
    s.afterPoll second polls v next = s.wedge.goto (.respond .timeout 0 []) := by
  unfold State.afterPoll
  split
  · exact .inl rfl
  · split
    · exact .inr (.inl rfl)
    · split
      · exact .inr (.inr rfl)
      · exact .inr (.inl rfl)

/-- After a doorbell write: the next label, or nothing where no doorbell was rung. -/
theorem State.afterBell_cases (s : State) : s.afterBell = s ∨ ∃ l, (l ≠ .off ∧ l ≠ .entry) ∧ s.afterBell = s.goto l := by
  unfold State.afterBell; split
  · exact .inr ⟨_, by simp, rfl⟩
  · exact .inr ⟨_, by simp, rfl⟩
  · exact .inr ⟨_, by simp, rfl⟩
  · exact .inl rfl

/-! ### The companion's steps before a turn -/

/-- While the companion stays silent its steps move at most the sequencer, out of the ReenableWait. -/
theorem State.companionSteps_silent (s : State) (acts : List CompAct) (h : ∀ a ∈ acts, a = .reenable) :
    s.companionSteps acts = s ∨
      ∃ n out, s.halted = false ∧ s.seq.step = .hold n out ∧ s.companionSteps acts = s.goto (.bellSet n out) := by
  induction acts generalizing s with
  | nil => exact .inl rfl
  | cons a rest ih =>
    have ha : a = .reenable := h a (by simp)
    have hr : ∀ b ∈ rest, b = CompAct.reenable := fun b hb => h b (by simp [hb])
    subst ha
    show State.companionSteps (s.companionStep .reenable) rest = s ∨ _
    rw [show s.companionSteps (.reenable :: rest) = State.companionSteps (s.companionStep .reenable) rest from rfl]
    simp only [State.companionStep, State.reenable]
    split
    · exact ih s hr
    · rename_i hh
      split
      · rename_i n out hs
        rcases ih (s.goto (.bellSet n out)) hr with e | ⟨_, _, _, hs', _⟩
        · exact .inr ⟨n, out, by simpa using hh, hs, e⟩
        · simp at hs'
      · exact ih s hr

/-- No step of the companion touches these. -/
theorem State.companionStep_same (s : State) (a : CompAct) :
    ∃ pend step comp, s.companionStep a =
      { s with wk := { s.wk with pending := pend }, seq := { s.seq with step := step }, comp := comp } := by
  cases a <;> simp only [State.companionStep, State.interruptInput, State.reenable, State.goto]
  case irq => split <;> exact ⟨_, _, _, rfl⟩
  case mem => split <;> exact ⟨_, _, _, rfl⟩
  case reenable =>
    split
    · exact ⟨_, _, _, rfl⟩
    · split <;> exact ⟨_, _, _, rfl⟩
  all_goals exact ⟨_, _, _, rfl⟩

/-- What no run of companion steps touches, with the session Closed or not. -/
structure CompanionSame (s t : State) : Prop where
  cfg : t.cfg = s.cfg
  sess : t.sess = s.sess
  waiting : t.waiting = s.waiting
  ch : t.ch = s.ch
  wkState : t.wk.state = s.wk.state
  phase : t.wk.phase = s.wk.phase
  bitmap : t.wk.bitmap = s.wk.bitmap
  closed : s.sess.isOpen = false → t.wk.pending = s.wk.pending
  armed : t.armed = s.armed
  clients : t.clients = s.clients
  handlerPort : t.handlerPort = s.handlerPort
  flt : t.flt = s.flt
  owner : t.seq.owner = s.seq.owner
  cmd : t.seq.cmd = s.seq.cmd
  step : t.seq.step = s.seq.step ∨ ∃ n out, s.seq.step = .hold n out ∧ t.seq.step = .bellSet n out
  rx : t.rx = s.rx
  log : t.log = s.log
  busResult : t.busResult = s.busResult
  turns : t.turns = s.turns
  inputs : t.inputs = s.inputs
  clock : t.clock = s.clock
  wf : Memory.wf s.comp.mem = true → Memory.wf t.comp.mem = true

theorem CompanionSame.refl (s : State) : CompanionSame s s := by constructor <;> simp

theorem CompanionSame.trans {s t u : State} (h : CompanionSame s t) (k : CompanionSame t u) : CompanionSame s u where
  cfg := k.cfg.trans h.cfg
  sess := k.sess.trans h.sess
  waiting := k.waiting.trans h.waiting
  ch := k.ch.trans h.ch
  wkState := k.wkState.trans h.wkState
  phase := k.phase.trans h.phase
  bitmap := k.bitmap.trans h.bitmap
  closed := fun e => (k.closed (by rw [h.sess]; exact e)).trans (h.closed e)
  armed := k.armed.trans h.armed
  clients := k.clients.trans h.clients
  handlerPort := k.handlerPort.trans h.handlerPort
  flt := k.flt.trans h.flt
  owner := k.owner.trans h.owner
  cmd := k.cmd.trans h.cmd
  step := by
    rcases h.step with e | ⟨n, out, e1, e2⟩
    · rw [← e]; exact k.step
    · rcases k.step with e' | ⟨n', out', e1', _⟩
      · exact .inr ⟨n, out, e1, e'.trans e2⟩
      · rw [e2] at e1'; cases e1'
  rx := k.rx.trans h.rx
  log := k.log.trans h.log
  busResult := k.busResult.trans h.busResult
  turns := k.turns.trans h.turns
  inputs := k.inputs.trans h.inputs
  clock := k.clock.trans h.clock
  wf := fun e => k.wf (h.wf e)

theorem State.companionStep_companionSame (s : State) (a : CompAct) : CompanionSame s (s.companionStep a) := by
  have hwf := State.companionStep_wf s a
  cases a <;> simp only [State.companionStep, State.interruptInput, State.reenable] at hwf ⊢
  case irq =>
    split
    · rename_i h; constructor <;> simp_all
    · exact .refl s
  case mem =>
    split
    · exact .refl s
    · rename_i h; constructor <;> simp_all
  case reenable =>
    split
    · exact .refl s
    · split
      · rename_i n out h; constructor <;> simp_all
      · exact .refl s
  all_goals constructor <;> simp

theorem State.companionSteps_companionSame (s : State) (acts : List CompAct) : CompanionSame s (s.companionSteps acts) := by
  induction acts generalizing s with
  | nil => exact .refl s
  | cons a rest ih => exact (s.companionStep_companionSame a).trans (ih _)

/-! ### A run of turns -/

/-- What holds at the start of a run of turns and is kept by every turn holds at its end. -/
theorem State.runTurns_ind {P : State → Prop} {turn : State → State} {ts : List Turn} {s : State} (h0 : P s)
    (hs : ∀ u (t : Turn), t ∈ ts → P u → u.ended = false → P (turn { u.companionSteps t.before with draw := t.draw })) :
    P (State.runTurns turn ts s) := by
  induction ts generalizing s with
  | nil => exact h0
  | cons t ts ih =>
    unfold State.runTurns
    split
    · exact h0
    · rename_i h
      exact ih (hs s t (by simp) h0 (by simpa using h)) fun u t' ht => hs u t' (by simp [ht])

/-- A run of turns that has ended stays. -/
theorem State.runTurns_ended {turn : State → State} {ts : List Turn} {s : State} (h : s.ended = true) :
    State.runTurns turn ts s = s := by
  cases ts with
  | nil => rfl
  | cons t ts => simp [State.runTurns, h]

/-- A run of turns, one at a time. -/
theorem State.runTurns_cons {turn : State → State} {t : Turn} {ts : List Turn} {s : State} (h : s.ended = false) :
    State.runTurns turn (t :: ts) s = State.runTurns turn ts (turn { s.companionSteps t.before with draw := t.draw }) := by
  simp [State.runTurns, h]

/-! ### A command -/

/-- When and how a command's meaning answers a next state. -/
theorem State.runCommand_next {b turn : State → State} {s t : State} (h : s.runCommand b turn = .next t) :
    ∃ p, s.seq.owner = some (.port p) ∧ s.halted = false ∧ s.seq.step ≠ .off ∧
      t = State.runTurns turn s.turns { (if s.seq.step = .entry then b s else s) with turns := [] } := by
  unfold State.runCommand at h
  split at h
  · rename_i p hp
    split at h
    · cases h
    · rename_i hh
      split at h
      · cases h
      · rename_i hs
        injection h with h
        exact ⟨p, hp, by simpa using hh, hs, h.symm⟩
  · cases h

/-- The other way round: a command that holds the lock in a running block answers a next state. -/
theorem State.runCommand_eq {b turn : State → State} {s : State} {p : PortId} (ho : s.seq.owner = some (.port p))
    (hh : s.halted = false) (hs : s.seq.step ≠ .off) :
    s.runCommand b turn = .next (State.runTurns turn s.turns { (if s.seq.step = .entry then b s else s) with turns := [] }) := by
  simp [State.runCommand, ho, hh, hs]

/-- Every command's meaning is one run: its beginning, then its turns. -/
theorem exec_command {i : Instr} (h : isCommand i = true) (s : State) :
    exec i s = s.runCommand (State.enter i (commandBody i)) (commandTurn i) := by
  cases i <;> first | rfl | cases h

/-- A command word never spells a bus transaction. -/
theorem isCommand_of_decode {w : Word} {payload : List Word} {i : Instr} (h : decodeCommand w payload = .ok i) :
    isCommand i = true := by
  unfold decodeCommand at h
  split at h; · cases h
  split at h; · cases h
  split at h
  · split at h <;> cases h; rfl
  · split at h
    · split at h <;> cases h; rfl
    · split at h
      · split at h <;> cases h; rfl
      · split at h
        · split at h
          · cases h
          · split at h <;> cases h; rfl
        · split at h <;> cases h; rfl

/-- A failed Q_INIT invalidates its channel; for every other command nothing changes. -/
theorem State.failInit_cases (i : Instr) (s : State) :
    (s.failInit i = s ∧ ∀ c, i ≠ .qInit c) ∨ ∃ c, i = .qInit c ∧ s.failInit i = s.setChan c.toNat (s.chan c.toNat).invalidated := by
  cases i <;> first | exact .inr ⟨_, rfl, rfl⟩ | exact .inl ⟨rfl, fun _ h => by cases h⟩

@[simp] theorem State.failInit_seq (i : Instr) (s : State) : (s.failInit i).seq = s.seq := by cases i <;> rfl

@[simp] theorem State.turnedAway_comp (i : Instr) (st : Status) (s : State) : (s.turnedAway i st).comp = s.comp := by
  cases i <;> rfl

@[simp] theorem State.turnedAway_seq (i : Instr) (st : Status) (s : State) :
    (s.turnedAway i st).seq = { s.seq with step := .respond st 0 [] } := by
  cases i <;> rfl

/-- What a command's beginning can end in. -/
theorem State.enter_ind {P : State → Prop} {i : Instr} {body : State → State} {s : State}
    (hraise : ∀ code, code ≠ .none → P (s.raise code)) (haway : ∀ st, P (s.turnedAway i st))
    (hbody : operandFault s.cfg i = none → s.sess.isOpen = true → (∀ c, checkedChannel i = some c → (s.chan c.toNat).valid = true) →
      P (body s)) : P (s.enter i body) := by
  unfold State.enter
  split
  · rename_i code hc
    refine hraise code ?_
    rintro rfl
    cases i <;> simp only [operandFault] at hc <;> (repeat' (split at hc)) <;> cases hc
  · rename_i hf
    split
    · exact haway _
    · rename_i ho
      split
      · exact haway _
      · split
        · rename_i c hc
          split
          · rename_i hv
            exact hbody hf (by simpa using ho) fun c' h' => by rw [hc] at h'; cases h'; exact hv
          · exact hraise _ (by simp)
        · rename_i hc
          exact hbody hf (by simpa using ho) fun c' h' => by rw [hc] at h'; cases h'

end Sys2Proof.Machine
end

