-- ==== Sys2Proof/Laws/Command.lean ====
section
/-! SUPPORT. What one turn of any command can do: it responds, or it keeps everything but the sequencer's position, the command's descriptors, the companion, `wedged` and, when it halts the block, the fault record. -/

namespace Sys2Proof.Machine

/-- What no turn of a command touches before its response. -/
structure TurnSame (s t : State) : Prop where
  cfg : t.cfg = s.cfg
  waiting : t.waiting = s.waiting
  wk : t.wk = s.wk
  armed : t.armed = s.armed
  clients : t.clients = s.clients
  handlerPort : t.handlerPort = s.handlerPort
  rx : t.rx = s.rx
  log : t.log = s.log
  turns : t.turns = s.turns
  inputs : t.inputs = s.inputs
  clock : t.clock = s.clock
  isOpen : t.sess.isOpen = s.sess.isOpen
  lock : t.sess.lock = s.sess.lock
  bus : t.sess.bus = s.sess.bus
  lastC2H : t.sess.lastC2H = s.sess.lastC2H
  wedged : s.sess.wedged = true → t.sess.wedged = true
  owner : t.seq.owner = s.seq.owner
  cmd : t.seq.cmd = s.seq.cmd
  step : s.seq.step ≠ .off → t.seq.step ≠ .off
  entry : s.seq.step ≠ .entry → t.seq.step ≠ .entry
  flt : t.halted = false → t.flt = s.flt
  busy : t.comp.busy = s.comp.busy
  size : t.ch.length = s.ch.length

theorem TurnSame.refl (s : State) : TurnSame s s := by constructor <;> simp

theorem TurnSame.trans {s t u : State} (h : TurnSame s t) (k : TurnSame t u) (hf : u.halted = false → t.halted = false) :
    TurnSame s u where
  cfg := k.cfg.trans h.cfg
  waiting := k.waiting.trans h.waiting
  wk := k.wk.trans h.wk
  armed := k.armed.trans h.armed
  clients := k.clients.trans h.clients
  handlerPort := k.handlerPort.trans h.handlerPort
  rx := k.rx.trans h.rx
  log := k.log.trans h.log
  turns := k.turns.trans h.turns
  inputs := k.inputs.trans h.inputs
  clock := k.clock.trans h.clock
  isOpen := k.isOpen.trans h.isOpen
  lock := k.lock.trans h.lock
  bus := k.bus.trans h.bus
  lastC2H := k.lastC2H.trans h.lastC2H
  wedged := fun w => k.wedged (h.wedged w)
  owner := k.owner.trans h.owner
  cmd := k.cmd.trans h.cmd
  step := fun w => k.step (h.step w)
  entry := fun w => k.entry (h.entry w)
  flt := fun w => (k.flt w).trans (h.flt (hf w))
  busy := k.busy.trans h.busy
  size := k.size.trans h.size

theorem TurnSame.port {s t : State} (h : TurnSame s t) (p : PortId) : t.port p = s.port p := by
  cases p <;> simp [State.port, h.clients, h.handlerPort]

theorem TurnSame.hasPort {s t : State} (h : TurnSame s t) (p : PortId) : t.hasPort p = s.hasPort p := by
  cases p <;> simp [State.hasPort, h.clients]

theorem TurnSame.commandPort {s t : State} (h : TurnSame s t) : t.commandPort = s.commandPort := by
  simp [State.commandPort, h.owner]

theorem TurnSame.goto (s : State) {l : Label} (h : l ≠ .off ∧ l ≠ .entry) : TurnSame s (s.goto l) := by constructor <;> simp [h]

theorem TurnSame.setChan (s : State) (i : Nat) (d : Chan) : TurnSame s (s.setChan i d) := by constructor <;> simp

theorem TurnSame.wedge (s : State) : TurnSame s s.wedge := by constructor <;> simp

theorem TurnSame.raise (s : State) {code : FaultCode} (h : code ≠ .none) : TurnSame s (s.raise code) := by
  constructor <;> simp [State.halted, h]

theorem TurnSame.transact (r : BusRec) (s : State) : TurnSame s (s.transact r) := by
  constructor <;> first | (intro h; exact State.transact_flt h) | simp

/-- Following a turn's step by a change of position, descriptor or `wedged`. -/
theorem TurnSame.andGoto {s t : State} (h : TurnSame s t) {l : Label} (hl : l ≠ .off ∧ l ≠ .entry) : TurnSame s (t.goto l) :=
  h.trans (.goto t hl) (by simp)

theorem TurnSame.andSetChan {s t : State} (h : TurnSame s t) (i : Nat) (d : Chan) : TurnSame s (t.setChan i d) :=
  h.trans (.setChan t i d) (by simp)

theorem TurnSame.andWedge {s t : State} (h : TurnSame s t) : TurnSame s t.wedge := h.trans (.wedge t) (by simp)

theorem TurnSame.endEarly {s t : State} (h : TurnSame s t) (st : Status) : TurnSame s (t.endEarly st) := by
  obtain ⟨n, data, e⟩ := t.endEarly_eq st
  rw [e]; exact h.andGoto (by simp)

theorem TurnSame.afterPoll {s t : State} (h : TurnSame s t) (second : Bool) (polls : Nat) (v : Half) {next : Label}
    (hn : next ≠ .off ∧ next ≠ .entry) : TurnSame s (t.afterPoll second polls v next) := by
  rcases t.afterPoll_cases second polls v next with e | e | e <;> rw [e]
  · exact h.andGoto hn
  · exact h.andGoto (by simp)
  · exact h.andWedge.andGoto (by simp)

theorem TurnSame.afterBell {s t : State} (h : TurnSame s t) : TurnSame s t.afterBell := by
  rcases t.afterBell_cases with e | ⟨l, hl, e⟩ <;> rw [e]
  · exact h
  · exact h.andGoto hl

/-- A turn responds or keeps what `TurnSame` names. -/
def RespondsOrSame (s t : State) : Prop :=
  (∃ st n data, s.seq.step = .respond st n data ∧ t = s.respond st n data) ∨ TurnSame s t

theorem State.localTurn_cases (s : State) : RespondsOrSame s s.localTurn := by
  unfold State.localTurn
  split
  · split
    · exact .inr ((TurnSame.wedge s).andGoto (by simp))
    · exact .inr (.refl s)
  · unfold State.respondTurn
    split
    · rename_i h; exact .inl ⟨_, _, _, h, rfl⟩
    · exact .inr (.refl s)

theorem State.turnWith_cases {record : Option BusRec} {onValue : Half → State → State} {onWritten : State → State} (s : State)
    (hv : ∀ v t, TurnSame s t → TurnSame s (onValue v t)) (hw : ∀ t, TurnSame s t → TurnSame s (onWritten t)) :
    RespondsOrSame s (s.turnWith record onValue onWritten) := by
  apply State.turnWith_ind (P := RespondsOrSame s)
  · intro _; exact s.localTurn_cases
  · intro r _ _; exact .inr (.transact r s)
  · intro r _ _; exact .inr (.transact r s)
  · intro r _ _; exact .inr ((TurnSame.transact r s).endEarly _)
  · intro r v _ _ _ _; exact .inr (hv v _ (.transact r s))
  · intro r _ _ _; exact .inr (hw _ (.transact r s))

theorem TurnSame.bodyValue {s t : State} (h : TurnSame s t) (c : BitVec 4) {onOk : State → State} {bad : Status} (v : Half)
    (hOk : ∀ u, TurnSame s u → TurnSame s (onOk u)) : TurnSame s (t.bodyValue c onOk bad v) := by
  unfold State.bodyValue
  split
  · exact h.afterPoll _ _ _ (by simp)
  · exact h.andGoto (by simp)
  · dsimp only
    split
    · exact h.andGoto (by simp)
    · unfold State.finishBody
      split
      · split
        · exact h.andGoto (by simp)
        · exact hOk _ (h.andSetChan _ _)
      · exact h
  · exact h

theorem TurnSame.readValue {s t : State} (h : TurnSame s t) (c : BitVec 4) (max : Nat) (v : Half) :
    TurnSame s (t.readValue c max v) := by
  unfold State.readValue
  split
  · exact h.afterPoll _ _ _ (by simp)
  · exact h.andGoto (by simp)
  · unfold State.readRefreshed
    dsimp only
    split
    · exact h.andGoto (by simp)
    · exact (h.andSetChan _ _).andGoto (by unfold afterGet; split <;> simp)
  · exact h.andGoto (by simp)
  · exact h.andGoto (by unfold afterGet; split <;> simp)
  · exact h

theorem TurnSame.readWritten {s t : State} (h : TurnSame s t) (c : BitVec 4) : TurnSame s (t.readWritten c) := by
  unfold State.readWritten
  split
  · exact h.andGoto (by simp)
  · exact (h.andSetChan _ _).andGoto (by simp)
  · exact h.afterBell

theorem TurnSame.writeValue {s t : State} (h : TurnSame s t) (c : BitVec 4) (words : List Word) (v : Half) :
    TurnSame s (t.writeValue c words v) := by
  unfold State.writeValue
  split
  · exact h.afterPoll _ _ _ (by simp)
  · exact h.andGoto (by simp)
  · unfold State.writeRefreshed
    dsimp only
    split
    · exact h.andGoto (by simp)
    · split
      · exact (h.andSetChan _ _).andGoto (by simp)
      · exact (h.andSetChan _ _).andGoto (by unfold afterPut; split <;> simp)
  · exact h

theorem TurnSame.writeWritten {s t : State} (h : TurnSame s t) (c : BitVec 4) (words : List Word) :
    TurnSame s (t.writeWritten c words) := by
  unfold State.writeWritten
  split
  · exact h.andGoto (by simp)
  · exact h.andGoto (by unfold afterPut; split <;> simp)
  · exact h.andGoto (by simp)
  · exact (h.andSetChan _ _).andGoto (by simp)
  · exact h.afterBell

/-- Every turn of every command responds or keeps what `TurnSame` names. -/
theorem commandTurn_cases (i : Instr) (s : State) : RespondsOrSame s (commandTurn i s) := by
  cases i with
  | qInit c => exact s.turnWith_cases (fun v t h => h.bodyValue c v fun u k => k.andGoto (by simp)) fun t h => h
  | qRead c n => exact s.turnWith_cases (fun v t h => h.readValue c _ v) fun t h => h.readWritten c
  | qWrite c ws => exact s.turnWith_cases (fun v t h => h.writeValue c ws v) fun t h => h.writeWritten c ws
  | openPair tx rx ctx =>
    refine s.turnWith_cases (fun v t h => h.bodyValue _ v fun u k => ?_) fun t h => h
    unfold State.openNext
    split
    · exact ((k.andSetChan _ _).andSetChan _ _).andGoto (by simp)
    · exact (k.andSetChan _ _).andGoto (by simp)
  | shutdown =>
    show RespondsOrSame s s.respondTurn
    unfold State.respondTurn
    split
    · rename_i h; exact .inl ⟨_, _, _, h, rfl⟩
    · exact .inr (.refl s)
  | busRd16 _ => exact .inr (.refl s)
  | busWr16 _ _ => exact .inr (.refl s)

/-- A command other than SHUTDOWN begins by keeping what `TurnSame` names. -/
theorem commandBegin_same {i : Instr} (hi : i ≠ .shutdown) (s : State) : TurnSame s (s.enter i (commandBody i)) := by
  apply State.enter_ind
  · intro code hc; exact .raise s hc
  · intro st
    unfold State.turnedAway
    rcases s.failInit_cases i with ⟨e, _⟩ | ⟨c, _, e⟩ <;> rw [e]
    · exact .goto s (by simp)
    · exact (TurnSame.setChan s _ _).andGoto (by simp)
  · intro _ _ _
    cases i with
    | qInit c => exact (TurnSame.setChan s _ _).andGoto (by simp)
    | qRead c n => exact .goto s (by simp)
    | qWrite c ws => exact .goto s (by simp)
    | openPair tx rx ctx => exact (TurnSame.setChan s _ _).andGoto (by simp)
    | shutdown => exact absurd rfl hi
    | busRd16 _ => exact .refl s
    | busWr16 _ _ => exact .refl s

/-- SHUTDOWN begins by ending the session, or by going straight to its response. -/
theorem shutdownBegin_cases (s : State) :
    s.enter .shutdown (commandBody .shutdown) = (if s.sess.isOpen then s.shutDown else s.goto (.respond .noSession 0 [])) := by
  cases h : s.sess.isOpen <;> simp [State.enter, State.turnedAway, State.failInit, operandFault, h, checkedChannel, commandBody]

/-! ### The refresh of the cached offset, case by case (R210, R220, R195) -/

theorem State.readRefreshed_none {c : BitVec 4} {max : Nat} {wv : Word} {s : State}
    (h : norm wv.toNat (s.chan c.toNat).size = none) : s.readRefreshed c max wv = s.goto (.respond .protocolError 0 []) := by
  simp only [State.readRefreshed, h]

theorem State.readRefreshed_some {c : BitVec 4} {max w : Nat} {wv : Word} {s : State}
    (h : norm wv.toNat (s.chan c.toNat).size = some w) :
    s.readRefreshed c max wv = (s.setChan c.toNat { s.chan c.toNat with wr := w }).goto
      (afterGet (readSpans (s.chan c.toNat).rd w (s.chan c.toNat).size max).1 []
        (readSpans (s.chan c.toNat).rd w (s.chan c.toNat).size max).2) := by
  simp only [State.readRefreshed, h]

theorem State.writeRefreshed_none {c : BitVec 4} {words : List Word} {rv : Word} {s : State}
    (h : norm rv.toNat (s.chan c.toNat).size = none) : s.writeRefreshed c words rv = s.goto (.respond .protocolError 0 []) := by
  simp only [State.writeRefreshed, h]

theorem State.writeRefreshed_full {c : BitVec 4} {words : List Word} {r : Nat} {rv : Word} {s : State}
    (h : norm rv.toNat (s.chan c.toNat).size = some r)
    (hf : free r (s.chan c.toNat).wr (s.chan c.toNat).size < words.length) :
    s.writeRefreshed c words rv =
      (s.setChan c.toNat { s.chan c.toNat with rd := r }).goto (.respond .wouldBlock 0 []) := by
  simp only [State.writeRefreshed, h, if_pos hf]

theorem State.writeRefreshed_some {c : BitVec 4} {words : List Word} {r : Nat} {rv : Word} {s : State}
    (h : norm rv.toNat (s.chan c.toNat).size = some r)
    (hf : words.length ≤ free r (s.chan c.toNat).wr (s.chan c.toNat).size) :
    s.writeRefreshed c words rv = (s.setChan c.toNat { s.chan c.toNat with rd := r }).goto
      (afterPut ((writeSpans r (s.chan c.toNat).wr (s.chan c.toNat).size words.length).1.zip words)
        (writeSpans r (s.chan c.toNat).wr (s.chan c.toNat).size words.length).2 words.length) := by
  simp only [State.writeRefreshed, h, if_neg (Nat.not_lt.2 hf)]

/-! ### What a turn does to the companion -/

@[simp] theorem State.respond_half (s : State) (st : Status) (n : Nat) (data : List Word) (a : Word) :
    (s.respond st n data).half a = s.half a := by simp [State.half]

theorem State.localTurn_comp (s : State) : s.localTurn.comp = s.comp := by
  unfold State.localTurn
  split
  · split <;> simp
  · unfold State.respondTurn; split <;> simp

theorem State.endEarly_comp (st : Status) (s : State) : (s.endEarly st).comp = s.comp := by
  obtain ⟨n, data, e⟩ := s.endEarly_eq st; rw [e]; rfl

theorem State.afterPoll_comp (second : Bool) (polls : Nat) (v : Half) (next : Label) (s : State) :
    (s.afterPoll second polls v next).comp = s.comp := by
  rcases s.afterPoll_cases second polls v next with e | e | e <;> rw [e] <;> rfl

theorem State.afterBell_comp (s : State) : s.afterBell.comp = s.comp := by
  rcases s.afterBell_cases with e | ⟨l, _, e⟩ <;> rw [e]; rfl

theorem State.bodyValue_comp (c : BitVec 4) {onOk : State → State} (bad : Status) (v : Half) (s : State)
    (h : ∀ u, (onOk u).comp = u.comp) : (s.bodyValue c onOk bad v).comp = s.comp := by
  unfold State.bodyValue
  split
  · exact State.afterPoll_comp ..
  · rfl
  · dsimp only
    split
    · rfl
    · unfold State.finishBody
      split
      · split
        · rfl
        · rw [h]; rfl
      · rfl
  · rfl

theorem State.readValue_comp (c : BitVec 4) (max : Nat) (v : Half) (s : State) : (s.readValue c max v).comp = s.comp := by
  unfold State.readValue
  split
  · exact State.afterPoll_comp ..
  · rfl
  · unfold State.readRefreshed; dsimp only; split <;> rfl
  · rfl
  · rfl
  · rfl

theorem State.readWritten_comp (c : BitVec 4) (s : State) : (s.readWritten c).comp = s.comp := by
  unfold State.readWritten
  split
  · rfl
  · rfl
  · exact State.afterBell_comp s

theorem State.writeValue_comp (c : BitVec 4) (words : List Word) (v : Half) (s : State) :
    (s.writeValue c words v).comp = s.comp := by
  unfold State.writeValue
  split
  · exact State.afterPoll_comp ..
  · rfl
  · unfold State.writeRefreshed; dsimp only
    split
    · rfl
    · split <;> rfl
  · rfl

theorem State.writeWritten_comp (c : BitVec 4) (words : List Word) (s : State) : (s.writeWritten c words).comp = s.comp := by
  unfold State.writeWritten
  split
  · rfl
  · rfl
  · rfl
  · rfl
  · exact State.afterBell_comp s

theorem State.openNext_comp (tx rx : BitVec 4) (ctx : Word) (second : Bool) (s : State) :
    (s.openNext tx rx ctx second).comp = s.comp := by
  unfold State.openNext; split <;> rfl

theorem State.turnWith_comp {record : Option BusRec} {onValue : Half → State → State} {onWritten : State → State} (s : State)
    (hv : ∀ v t, (onValue v t).comp = t.comp) (hw : ∀ t, (onWritten t).comp = t.comp) :
    (s.turnWith record onValue onWritten).comp = match record with
      | none => s.comp
      | some r => (s.transact r).comp := by
  apply State.turnWith_ind (P := fun t => t.comp = match record with
      | none => s.comp
      | some r => (s.transact r).comp)
  · rintro rfl; exact s.localTurn_comp
  · rintro r rfl _; rfl
  · rintro r rfl _; rfl
  · rintro r rfl _; exact State.endEarly_comp _ _
  · rintro r v rfl _ _ _; exact hv _ _
  · rintro r rfl _ _; exact hw _

/-- A turn changes the companion exactly as its transaction does. -/
theorem commandTurn_comp (i : Instr) (s : State) :
    (commandTurn i s).comp = match turnRecord i s with
      | none => s.comp
      | some r => (s.transact r).comp := by
  cases i with
  | qInit c => exact s.turnWith_comp (fun v t => t.bodyValue_comp c _ v fun _ => rfl) fun _ => rfl
  | qRead c n => exact s.turnWith_comp (fun v t => t.readValue_comp c _ v) fun t => t.readWritten_comp c
  | qWrite c ws => exact s.turnWith_comp (fun v t => t.writeValue_comp c ws v) fun t => t.writeWritten_comp c ws
  | openPair tx rx ctx =>
    exact s.turnWith_comp (fun v t => t.bodyValue_comp _ _ v fun u => u.openNext_comp tx rx ctx _) fun _ => rfl
  | shutdown => show s.respondTurn.comp = s.comp; unfold State.respondTurn; split <;> simp
  | busRd16 _ => rfl
  | busWr16 _ _ => rfl

/-- A command's beginning makes no transaction. -/
theorem commandBegin_comp (i : Instr) (s : State) : (s.enter i (commandBody i)).comp = s.comp := by
  apply State.enter_ind (P := fun t => t.comp = s.comp)
  · intro code _; rfl
  · intro st; exact State.turnedAway_comp i st s
  · intro _ _ _; cases i <;> rfl

/-- A turn keeps the canonical form of memory. -/
theorem commandTurn_wf (i : Instr) (s : State) (h : Memory.wf s.comp.mem = true) :
    Memory.wf (commandTurn i s).comp.mem = true := by
  rw [commandTurn_comp]
  split
  · exact h
  · exact State.transact_wf _ s h

end Sys2Proof.Machine
end

