-- ==== Sys2Proof/Laws/Config.lean ====
section
/-! SUPPORT. What well-formed parameters say of the three registers and of the descriptor table (spec/00_scope.md R7, spec/20_memory.md R76), and the parity of companion addresses. -/

namespace Sys2Proof.Machine

/-- The registers of well-formed parameters: even, and three different addresses (R76). -/
structure RegistersApart (p : Params) : Prop where
  statusEven : oddAddress p.regStatus = false
  h2cEven : oddAddress p.regH2C = false
  c2hEven : oddAddress p.regC2H = false
  statusH2C : p.regStatus ≠ p.regH2C
  statusC2H : p.regStatus ≠ p.regC2H
  h2cC2H : p.regH2C ≠ p.regC2H

theorem Params.wf_registers {p : Params} (h : p.wf = true) : RegistersApart p := by
  simp only [Params.wf, Bool.and_eq_true, decide_eq_true_eq, Bool.not_eq_true'] at h
  obtain ⟨⟨⟨⟨⟨⟨⟨⟨⟨⟨⟨⟨⟨_, _⟩, _⟩, _⟩, h2⟩, h3⟩, h4⟩, h5⟩, h6⟩, h7⟩, _⟩, _⟩, _⟩, _⟩ := h
  exact ⟨h2, h3, h4, h5, h6, h7⟩

/-- An address is odd when its value is. -/
theorem oddAddress_iff (a : Word) : oddAddress a = true ↔ a.toNat % 2 = 1 := by
  simp [oddAddress, BitVec.getLsbD, Nat.testBit_zero]

theorem evenAddress_iff (a : Word) : oddAddress a = false ↔ a.toNat % 2 = 0 := by
  have := oddAddress_iff a
  cases h : oddAddress a <;> simp_all

/-- An even distance keeps an address's parity, modulo 2^32 too. -/
theorem oddAddress_add {a : Word} (n : Nat) (hn : n % 2 = 0) : oddAddress (a + BitVec.ofNat 32 n) = oddAddress a := by
  have e : (a + BitVec.ofNat 32 n).toNat % 2 = a.toNat % 2 := by
    simp only [BitVec.toNat_add, BitVec.toNat_ofNat]; omega
  cases h : oddAddress a
  · rw [evenAddress_iff] at h ⊢; omega
  · rw [oddAddress_iff] at h ⊢; omega

theorem oddAddress_add_two (a : Word) : oddAddress (a + 2) = oddAddress a := oddAddress_add 2 rfl

@[simp] theorem oddAddress_slotAddr (base : Word) (j : Nat) : oddAddress (slotAddr base j) = oddAddress base :=
  oddAddress_add (4 * j) (by omega)

/-- The k-th field of descriptor c stands at byte 16·c + 4·k of the table. -/
theorem descField_eq (p : Params) (c : BitVec 4) (k : Nat) :
    descField p c k = p.descTableBase + BitVec.ofNat 32 (2 * (8 * c.toNat + 2 * k)) := by
  simp only [descField, descAddr, BitVec.add_assoc, ← BitVec.ofNat_add]; congr 2; omega

theorem descField_eq_high (p : Params) (c : BitVec 4) (k : Nat) :
    descField p c k + 2 = p.descTableBase + BitVec.ofNat 32 (2 * (8 * c.toNat + 2 * k + 1)) := by
  rw [descField_eq, show (2 : Word) = BitVec.ofNat 32 2 from rfl, BitVec.add_assoc, ← BitVec.ofNat_add]; congr 2

/-- The half-words of channel c's descriptor are in the table. -/
theorem descField_mem {p : Params} {c : BitVec 4} {k : Nat} (hc : c.toNat < p.nCh) (hk : k < 4) :
    descField p c k ∈ p.descriptorHalves ∧ descField p c k + 2 ∈ p.descriptorHalves := by
  rw [descField_eq_high, descField_eq]
  constructor
  · exact List.mem_map.2 ⟨8 * c.toNat + 2 * k, List.mem_range.2 (by omega), rfl⟩
  · exact List.mem_map.2 ⟨8 * c.toNat + 2 * k + 1, List.mem_range.2 (by omega), rfl⟩

/-- An even address that is no register: plain companion memory (R76). -/
structure PlainAddr (p : Params) (a : Word) : Prop where
  even : oddAddress a = false
  status : a ≠ p.regStatus
  h2c : a ≠ p.regH2C
  c2h : a ≠ p.regC2H

/-- Every half of a channel's descriptor lies in plain companion memory (R76). -/
theorem descField_plain {p : Params} {c : BitVec 4} {k : Nat} (h : p.wf = true) (hc : c.toNat < p.nCh) (hk : k < 4) :
    PlainAddr p (descField p c k) ∧ PlainAddr p (descField p c k + 2) := by
  obtain ⟨m1, m2⟩ := descField_mem hc hk
  simp only [Params.wf, Bool.and_eq_true, decide_eq_true_eq, Bool.not_eq_true'] at h
  obtain ⟨⟨⟨⟨⟨⟨⟨⟨⟨⟨⟨⟨⟨_, _⟩, _⟩, he⟩, _⟩, _⟩, _⟩, _⟩, _⟩, _⟩, d1⟩, d2⟩, d3⟩, _⟩ := h
  have he' : oddAddress (descField p c k) = false := by
    rw [descField_eq, oddAddress_add _ (by omega)]; exact he
  have apart {a r : Word} (ha : a ∈ p.descriptorHalves) (hr : p.descriptorHalves.contains r = false) : a ≠ r := by
    rintro rfl; simp [ha] at hr
  exact ⟨⟨he', apart m1 d1, apart m1 d2, apart m1 d3⟩, ⟨by rw [oddAddress_add_two]; exact he', apart m2 d1, apart m2 d2, apart m2 d3⟩⟩

end Sys2Proof.Machine
end

