-- ==== Sys2Proof/Laws/Encoding.lean ====
section
/-! SUPPORT. The fields of a command word taken apart and put together (spec/30_encoding.md R121), and payload lengths. -/

namespace Sys2Proof

@[simp] theorem cmdOp_mkCmd (op ch ch2 rsv : BitVec 4) (n : BitVec 16) : cmdOp (mkCmd op ch ch2 rsv n) = op := by
  apply BitVec.eq_of_getLsbD_eq; intro i hi
  simp only [cmdOp, mkCmd, BitVec.getLsbD_extractLsb', BitVec.getLsbD_append]
  simp (disch := omega) only [if_neg, hi, decide_true, Bool.true_and]
  congr 1; omega

@[simp] theorem cmdCh_mkCmd (op ch ch2 rsv : BitVec 4) (n : BitVec 16) : cmdCh (mkCmd op ch ch2 rsv n) = ch := by
  apply BitVec.eq_of_getLsbD_eq; intro i hi
  simp only [cmdCh, mkCmd, BitVec.getLsbD_extractLsb', BitVec.getLsbD_append]
  simp (disch := omega) only [if_neg, if_pos, hi, decide_true, Bool.true_and]
  congr 1; omega

@[simp] theorem cmdCh2_mkCmd (op ch ch2 rsv : BitVec 4) (n : BitVec 16) : cmdCh2 (mkCmd op ch ch2 rsv n) = ch2 := by
  apply BitVec.eq_of_getLsbD_eq; intro i hi
  simp only [cmdCh2, mkCmd, BitVec.getLsbD_extractLsb', BitVec.getLsbD_append]
  simp (disch := omega) only [if_neg, if_pos, hi, decide_true, Bool.true_and]
  congr 1; omega

@[simp] theorem cmdRsv_mkCmd (op ch ch2 rsv : BitVec 4) (n : BitVec 16) : cmdRsv (mkCmd op ch ch2 rsv n) = rsv := by
  apply BitVec.eq_of_getLsbD_eq; intro i hi
  simp only [cmdRsv, mkCmd, BitVec.getLsbD_extractLsb', BitVec.getLsbD_append]
  simp (disch := omega) only [if_neg, if_pos, hi, decide_true, Bool.true_and]
  congr 1; omega

@[simp] theorem cmdCount_mkCmd (op ch ch2 rsv : BitVec 4) (n : BitVec 16) : cmdCount (mkCmd op ch ch2 rsv n) = n := by
  apply BitVec.eq_of_getLsbD_eq; intro i hi
  simp only [cmdCount, mkCmd, BitVec.getLsbD_extractLsb', BitVec.getLsbD_append]
  simp (disch := omega) only [if_pos, hi, decide_true, Bool.true_and]
  congr 1; omega

/-- A command word is its fields (R121). -/
theorem mkCmd_fields (w : Word) : mkCmd (cmdOp w) (cmdCh w) (cmdCh2 w) (cmdRsv w) (cmdCount w) = w := by
  apply BitVec.eq_of_getLsbD_eq; intro i hi
  simp only [mkCmd, cmdOp, cmdCh, cmdCh2, cmdRsv, cmdCount, BitVec.getLsbD_extractLsb', BitVec.getLsbD_append]
  repeat' split
  all_goals
    rename_i h
    simp (disch := omega) only [decide_eq_true, Bool.true_and]
    congr 1; omega

/-- A list has exactly `n` entries when its length is `n`. -/
theorem hasLength_iff {α : Type} (n : Nat) (l : List α) : hasLength n l = true ↔ l.length = n := by
  induction n generalizing l with
  | zero => cases l <;> simp [hasLength]
  | succ n ih => cases l <;> simp [hasLength, ih]

end Sys2Proof
end

