-- ==== Sys2Proof/Laws/Events.lean ====
section
/-! SUPPORT. What a step of each agent can do, and how a property is carried through a command's run. -/

namespace Sys2Proof.Machine

/-! ### A command's run -/

/-- What a command's beginning, the companion's steps and every turn keep holds when the command's run answers. -/
theorem exec_ind {P : State → Prop} {i : Instr} {s t : State} (hi : isCommand i = true) (h : exec i s = .next t)
    (h0 : P { (if s.seq.step = .entry then s.enter i (commandBody i) else s) with turns := [] })
    (hs : ∀ u d acts, (∃ x ∈ s.turns, x.before = acts ∧ x.draw = d) → P u → u.ended = false →
      P (commandTurn i { u.companionSteps acts with draw := d })) : P t := by
  rw [exec_command hi] at h
  obtain ⟨p, ho, hh, hst, rfl⟩ := State.runCommand_next h
  exact State.runTurns_ind h0 fun u x hx hu he => hs u _ _ ⟨x, hx, rfl, rfl⟩ hu he

/-- A property that each kind of update keeps is kept by a command's whole run. -/
theorem exec_keeps {P : State → Prop} {i : Instr} {s t : State} (hi : isCommand i = true) (h : exec i s = .next t) (hs : P s)
    (hturns : ∀ u, P u → P { u with turns := [] }) (hdraw : ∀ u d, P u → P { u with draw := d })
    (hcomp : ∀ u v, P u → CompanionSame u v → P v) (hsame : ∀ u v, P u → TurnSame u v → P v)
    (hresp : ∀ u st n data, P u → P (u.respond st n data)) (hshut : ∀ u, P u → u.sess.isOpen = true → P u.shutDown) : P t := by
  refine exec_ind hi h ?_ ?_
  · apply hturns
    split
    · by_cases hsd : i = .shutdown
      · subst hsd
        rw [shutdownBegin_cases]
        split
        · rename_i ho; exact hshut _ hs ho
        · exact hsame _ _ hs (.goto _ (by simp))
      · exact hsame _ _ hs (commandBegin_same hsd s)
    · exact hs
  · intro u d acts _ hu _
    have h1 := hdraw _ d (hcomp _ _ hu (u.companionSteps_companionSame acts))
    rcases commandTurn_cases i { u.companionSteps acts with draw := d } with ⟨st, n, data, _, e⟩ | h2
    · rw [e]; exact hresp _ _ _ _ h1
    · exact hsame _ _ h1 h2

/-! ### Grants and turns -/

theorem State.portInstr_isCommand {s : State} {p : PortId} {i : Instr} (h : s.portInstr p = some i) : isCommand i = true := by
  unfold State.portInstr at h
  split at h
  · split at h
    · rename_i hd; injection h with h; subst h; exact isCommand_of_decode hd
    · cases h
  · cases h

/-- A grant that answers: not enabled, the worker's locked phase, or a command's run. -/
theorem State.grant_next {q : Requester} {ts : List Turn} {s t : State} (h : State.grant q ts s = .next t) :
    (s.canGrant q = false ∧ t = s) ∨
    (s.canGrant q = true ∧ q = .worker ∧ t = (s.granted .worker).lockedPhase) ∨
    ∃ p i, s.canGrant q = true ∧ q = .port p ∧ s.portInstr p = some i ∧ isCommand i = true ∧
      exec i (s.grantedPort p ts) = .next t := by
  unfold State.grant at h
  split at h
  · rename_i hc
    split at h
    · injection h with h; exact .inr (.inl ⟨hc, rfl, h.symm⟩)
    · rename_i p
      split at h
      · rename_i i hi
        exact .inr (.inr ⟨p, i, hc, rfl, hi, State.portInstr_isCommand hi, h⟩)
      · cases h
  · rename_i hc
    injection h with h
    exact .inl ⟨by simpa using hc, h.symm⟩

/-- Turns that answer: nobody's, or the run of the lock holder's command. -/
theorem State.takeTurns_next {ts : List Turn} {s t : State} (h : State.takeTurns ts s = .next t) :
    t = s ∨ ∃ p i, s.seq.owner = some (.port p) ∧ s.halted = false ∧ s.portInstr p = some i ∧ isCommand i = true ∧
      exec i { s with turns := ts } = .next t := by
  unfold State.takeTurns at h
  split at h
  · rename_i p hp
    split at h
    · injection h with h; exact .inl h.symm
    · rename_i hh
      split at h
      · rename_i i hi
        exact .inr ⟨p, i, hp, by simpa using hh, hi, State.portInstr_isCommand hi, h⟩
      · cases h
  · injection h with h; exact .inl h.symm

/-! ### Every other agent's step -/

/-- What the steps of the worker, the timer, the handler, the ports and the clients all leave alone; a lock timeout leaves it alone too,
but for the descriptor of a Q_INIT that ends so. -/
structure AgentSame (s t : State) : Prop where
  cfg : t.cfg = s.cfg
  isOpen : t.sess.isOpen = s.sess.isOpen
  wedged : s.sess.wedged = true → t.sess.wedged = true
  bus : t.sess.bus = s.sess.bus
  ch : t.ch = s.ch
  closed : s.sess.isOpen = false → (s.armed = false → t.armed = false) ∧ (s.wk.pending = false → t.wk.pending = false)
  flt : s.halted = true → t.flt = s.flt
  cmd : t.seq.cmd = s.seq.cmd
  step : t.seq.step = s.seq.step ∨ t.seq.step = .off
  wf : Memory.wf s.comp.mem = true → Memory.wf t.comp.mem = true
  log : s.log <+: t.log
  access : (t.comp = s.comp ∧ t.busResult = s.busResult) ∨ s.seq.owner = some .worker
  turns : t.turns = s.turns
  inputs : t.inputs = s.inputs
  clock : t.clock = s.clock

theorem AgentSame.refl (s : State) : AgentSame s s := by constructor <;> simp

theorem AgentSame.trans {s t u : State} (h : AgentSame s t) (k : AgentSame t u) (ho : t.seq.owner = s.seq.owner) :
    AgentSame s u where
  cfg := k.cfg.trans h.cfg
  isOpen := k.isOpen.trans h.isOpen
  wedged := fun w => k.wedged (h.wedged w)
  bus := k.bus.trans h.bus
  ch := k.ch.trans h.ch
  closed := fun e =>
    let a := h.closed e
    let b := k.closed (h.isOpen.trans e)
    ⟨fun w => b.1 (a.1 w), fun w => b.2 (a.2 w)⟩
  flt := fun e => (k.flt (by rw [State.halted, h.flt e]; exact e)).trans (h.flt e)
  cmd := k.cmd.trans h.cmd
  step := by
    rcases k.step with e | e
    · exact e ▸ h.step
    · exact .inr e
  wf := fun e => k.wf (h.wf e)
  log := h.log.trans k.log
  access := by
    rcases k.access with e | e
    · rcases h.access with e' | e'
      · exact .inl ⟨e.1.trans e'.1, e.2.trans e'.2⟩
      · exact .inr e'
    · exact .inr (ho ▸ e)
  turns := k.turns.trans h.turns
  inputs := k.inputs.trans h.inputs
  clock := k.clock.trans h.clock

theorem AgentSame.setPort (s : State) (p : PortId) (v : Port) : AgentSame s (s.setPort p v) := by
  constructor <;> simp

theorem AgentSame.present (p : PortId) (cmd : Word) (payload : List Word) (s : State) :
    AgentSame s (s.present p cmd payload) ∧ (s.present p cmd payload).seq.owner = s.seq.owner := by
  unfold State.present
  split
  · exact ⟨.setPort _ _ _, by simp⟩
  · exact ⟨.refl s, rfl⟩

theorem AgentSame.presentInstr (p : PortId) (i : Instr) (s : State) : AgentSame s (s.presentInstr p i) := by
  unfold State.presentInstr
  split
  · exact (AgentSame.present _ _ _ s).1
  · exact .refl s

theorem AgentSame.scanBit (j : Nat) (s : State) : AgentSame s (s.scanBit j) := by
  unfold State.scanBit
  dsimp only
  (repeat' split) <;> constructor <;> simp [State.emit]

/-- Leaving the locked phase with nothing to dispatch. -/
theorem AgentSame.releaseNoDispatch (s : State) : AgentSame s s.release.noDispatch where
  cfg := rfl
  isOpen := rfl
  wedged := id
  bus := rfl
  ch := rfl
  closed := fun _ => ⟨id, id⟩
  flt := fun _ => rfl
  cmd := rfl
  step := .inr rfl
  wf := id
  log := List.prefix_refl _
  access := .inl ⟨rfl, rfl⟩
  turns := rfl
  inputs := rfl
  clock := rfl

theorem AgentSame.emit (s : State) (k : LogKind) (c : Option Nat) : AgentSame s (s.emit k c) := by
  constructor <;> simp [State.emit]

theorem AgentSame.workerBusError (s : State) : AgentSame s s.workerBusError :=
  (AgentSame.emit s .workerBusError none).trans (.releaseNoDispatch _) rfl

theorem State.afterMboxRead_value {s : State} {m : Half} (h : s.busResult = .value m) :
    s.afterMboxRead = if m = 0 then { s with sess := { s.sess with lastC2H := m } }.release.noDispatch
      else { s with sess := { s.sess with lastC2H := m }, wk := { s.wk with phase := .clearMbox m } } := by
  unfold State.afterMboxRead
  rw [h]

theorem AgentSame.afterMboxRead (s : State) : AgentSame s s.afterMboxRead := by
  cases h : s.busResult
  case value m =>
    rw [State.afterMboxRead_value h]
    by_cases hm : m = 0
    · rw [if_pos hm]
      exact (show AgentSame s { s with sess := { s.sess with lastC2H := m } } by constructor <;> simp).trans
        (.releaseNoDispatch _) rfl
    · rw [if_neg hm]; constructor <;> simp
  case busError => rw [show s.afterMboxRead = s.workerBusError by simp [State.afterMboxRead, h]]; exact .workerBusError s
  case idle => rw [show s.afterMboxRead = s by simp [State.afterMboxRead, h]]; exact .refl s
  case written => rw [show s.afterMboxRead = s by simp [State.afterMboxRead, h]]; exact .refl s

theorem AgentSame.afterMboxClear (m : Half) (s : State) : AgentSame s (s.afterMboxClear m) := by
  unfold State.afterMboxClear
  split
  · constructor <;> simp
  · exact .workerBusError s
  · exact .refl _

/-- A transaction by the worker. -/
theorem AgentSame.workerTransact {d : Draw} {s : State} (r : BusRec) (ho : s.seq.owner = some .worker) (hh : s.halted = false) :
    AgentSame s (State.transact r { s with draw := d }) := by
  constructor <;> first | exact State.transact_wf r { s with draw := d } | simp [hh, ho]

theorem AgentSame.workerStep (d : Draw) (s : State) : AgentSame s (s.workerStep d) := by
  unfold State.workerStep
  split
  · exact .refl s
  · rename_i hn
    have hh : s.halted = false := by
      by_contra hc; exact hn (.inl (by simpa using hc))
    have tr (f : State → State) (r : BusRec) (ho : s.seq.owner = some .worker) (hf : ∀ t, AgentSame t (f t)) :
        AgentSame s (if (State.transact r { s with draw := d }).halted then State.transact r { s with draw := d }
          else f (State.transact r { s with draw := d })) := by
      have h := AgentSame.workerTransact (d := d) r ho hh
      split
      · exact h
      · exact h.trans (hf _) (by simp)
    split
    · split
      · rename_i ho; exact tr _ _ ho AgentSame.afterMboxRead
      · exact .refl s
    · split
      · rename_i ho; exact tr _ _ ho (AgentSame.afterMboxClear _)
      · exact .refl s
    · split
      · exact .scanBit _ s
      · constructor <;> simp [State.passEnd]
        intro h1 h2; simp [h1, h2]
    · exact .refl s

theorem AgentSame.handlerReturn (ok : Bool) (s : State) : AgentSame s (s.handlerReturn ok) := by
  unfold State.handlerReturn
  split
  · exact .refl s
  · split
    · rename_i k _
      have h1 (t : State) (ht : t = { s with wk := { s.wk with phase := .scan (k + 1) }, rx := none }) : AgentSame s t := by
        subst ht; constructor <;> simp
      have h2 : AgentSame s (State.emit { s with wk := { s.wk with phase := .scan (k + 1) }, rx := none } .callbackFailed (some k)) :=
        (h1 _ rfl).trans (by constructor <;> simp [State.emit]) rfl
      cases ok
      · simp only [Bool.false_eq_true, if_false]
        split
        · exact h2.trans (.scanBit _ _) rfl
        · exact h2
      · simp only [if_true]
        split
        · exact (h1 _ rfl).trans (.scanBit _ _) rfl
        · exact h1 _ rfl
    · exact .refl s

/-- What a lock timeout writes to the descriptors: those of a Q_INIT that ends so (R205). -/
theorem State.lockTimeout_ch (q : Requester) (s : State) : (s.lockTimeout q).ch = s.ch ∨
    ∃ p c, q = .port p ∧ Requester.port p ∈ s.waiting ∧ s.cfg.lockTimeout = true ∧ s.halted = false ∧
      s.portInstr p = some (.qInit c) ∧ (s.lockTimeout q).ch = s.ch.set c.toNat (s.chan c.toNat).invalidated := by
  unfold State.lockTimeout
  split
  · rename_i h
    rcases q with p | _
    · cases hi : s.portInstr p with
      | none => exact .inl (by simp [hi])
      | some i =>
        rcases State.failInit_cases i (s.dropWaiting (.port p)).wedge with ⟨e, _⟩ | ⟨c, rfl, e⟩
        · exact .inl (by simp [hi, e])
        · exact .inr ⟨p, c, rfl, by simpa using h.2.1, h.1, h.2.2, hi, by simp [hi, e]⟩
    · exact .inl rfl
  · exact .inl rfl

/-- A lock timeout leaves every descriptor as it is or invalidated. -/
theorem State.lockTimeout_chan (q : Requester) (s : State) (k : Nat) :
    (s.lockTimeout q).chan k = s.chan k ∨ (s.lockTimeout q).chan k = (s.chan k).invalidated := by
  rcases s.lockTimeout_ch q with e | ⟨_, c, _, _, _, _, _, e⟩
  · exact .inl (by simp [State.chan, e])
  · have h : (s.lockTimeout q).chan k = (s.setChan c.toNat (s.chan c.toNat).invalidated).chan k := by simp [State.chan, e]
    rw [h, State.setChan_chan]
    split
    · rename_i hk; exact .inr (by rw [hk.1])
    · exact .inl rfl

/-- A port's lock timeout, but for the descriptors: the waiting set, `wedged` and the port's response. -/
theorem State.lockTimeout_port {p : PortId} {s : State}
    (h : s.cfg.lockTimeout = true ∧ s.waiting.contains (.port p) = true ∧ s.halted = false) :
    s.lockTimeout (.port p) = { (s.dropWaiting (.port p)).wedge.setPortState p (.responded (respWord .timeout 0) []) with
      ch := (s.lockTimeout (.port p)).ch } := by
  unfold State.lockTimeout
  rw [if_pos h]
  cases hi : s.portInstr p with
  | none => simp only [hi]
  | some i =>
    rcases State.failInit_cases i (s.dropWaiting (.port p)).wedge with ⟨e, _⟩ | ⟨c, rfl, e⟩
    · simp only [hi, e]
    · simp only [hi, e]
      cases p <;> rfl

/-- But for the descriptors, a lock timeout leaves alone what the other agents do. -/
theorem State.lockTimeout_same (q : Requester) (s : State) : AgentSame { s with ch := (s.lockTimeout q).ch } (s.lockTimeout q) := by
  by_cases h : s.cfg.lockTimeout = true ∧ s.waiting.contains q = true ∧ s.halted = false
  · rcases q with p | _
    · generalize e : s.lockTimeout (.port p) = t
      rw [State.lockTimeout_port h] at e
      subst e
      constructor <;> simp
    · unfold State.lockTimeout
      rw [if_pos h]
      constructor <;> simp [State.noDispatch]
  · unfold State.lockTimeout
    rw [if_neg h]
    exact .refl s

/-- The event is the step of an agent other than a command, the companion and the platform, and no lock timeout. -/
def otherAgent : Event → Bool
  | .grant (.port _) _ => false
  | .turns _ => false
  | .companion _ => false
  | .reset _ => false
  | .lockTimeout _ => false
  | _ => true

/-- Every other agent's step keeps what `AgentSame` names. -/
theorem State.perform_other {e : Event} {s t : State} (he : otherAgent e = true) (h : s.perform e = .next t) : AgentSame s t := by
  cases e <;> simp only [State.perform] at h
  case grant q ts =>
    rcases State.grant_next h with ⟨_, rfl⟩ | ⟨_, rfl, rfl⟩ | ⟨p, i, _, rfl, _⟩
    · exact .refl _
    · unfold State.lockedPhase State.granted
      dsimp only
      split
      · constructor <;> simp
      · split <;> constructor <;> simp [State.noDispatch]
    · cases he
  case turns ts => cases he
  case companion a => cases he
  case reset b => cases he
  case lockTimeout q => cases he
  all_goals (injection h with h; subst h)
  case present p cmd payload =>
    unfold State.clientPresent
    split
    · exact .refl s
    · exact (AgentSame.present _ _ _ s).1
  case take p =>
    unfold State.take
    split
    · exact .setPort s _ _
    · exact .refl s
  case accept p =>
    unfold State.accept
    split
    · exact .refl s
    · rename_i hh
      split
      · split
        · constructor <;> simp_all
        · constructor <;> simp
      · exact .refl s
  case passStart =>
    unfold State.passStart
    split
    · constructor <;> simp_all
    · exact .refl s
  case worker d => exact .workerStep d s
  case handlerReturn ok => exact .handlerReturn ok s
  case timerFire =>
    unfold State.timerFire
    split
    · constructor <;> simp_all
    · exact .refl s
  case frameWrite p c grp typ words =>
    unfold State.frameWrite
    split
    · exact .presentInstr _ _ s
    · exact .refl s
  case frameRead p c =>
    unfold State.frameRead
    split
    · exact .setPort s _ _
    · exact .refl s
  case writeRetry p c words =>
    unfold State.writeRetry
    split
    · exact .setPort s _ _
    · exact .refl s
  case progress p =>
    unfold State.progress
    split
    · split
      · split
        · exact (AgentSame.setPort s _ _).trans (.presentInstr _ _ _) (by simp)
        · exact .setPort s _ _
      · exact (AgentSame.setPort s _ _).trans (.presentInstr _ _ _) (by simp)
      · exact .refl s
    · exact .refl s
  case frameDeadline p =>
    unfold State.frameDeadline
    split
    · split
      · exact .setPort s _ _
      · exact .refl s
    · exact .refl s

/-- While a command holds the lock no other agent's step moves it. -/
theorem State.perform_seq {e : Event} {s t : State} {p : PortId} (he : otherAgent e = true ∨ ∃ q, e = .lockTimeout q)
    (h : s.perform e = .next t) (hl : s.sess.lock ≠ none) (ho : s.seq.owner = some (.port p)) : t.seq = s.seq := by
  rcases he with he | ⟨q, rfl⟩
  swap
  · injection h with h; subst h
    unfold State.lockTimeout
    dsimp only
    (repeat' split) <;> simp [State.noDispatch]
  cases e <;> simp only [State.perform] at h
  case grant q ts =>
    rcases State.grant_next h with ⟨_, rfl⟩ | ⟨hc, _⟩ | ⟨_, _, hc, _⟩
    · rfl
    · simp [State.canGrant, hl] at hc
    · simp [State.canGrant, hl] at hc
  case turns ts => cases he
  case companion a => cases he
  case reset b => cases he
  case lockTimeout q => cases he
  all_goals (injection h with h; subst h)
  case present p cmd payload => unfold State.clientPresent State.present; (repeat' split) <;> simp
  case take p => unfold State.take; split <;> simp
  case accept p => unfold State.accept; (repeat' split) <;> simp
  case passStart => unfold State.passStart; split <;> simp
  case worker d =>
    unfold State.workerStep
    simp only [ho, Option.some.injEq, reduceCtorEq, if_false]
    (repeat' split) <;> first | rfl | skip
    unfold State.scanBit; dsimp only; (repeat' split) <;> rfl
  case handlerReturn ok =>
    unfold State.handlerReturn State.scanBit
    cases ok <;> dsimp only <;> (repeat' split) <;> rfl
  case timerFire => unfold State.timerFire; split <;> rfl
  case frameWrite p c grp typ words => unfold State.frameWrite State.presentInstr State.present; (repeat' split) <;> simp
  case frameRead p c => unfold State.frameRead; split <;> simp
  case writeRetry p c words => unfold State.writeRetry; split <;> simp
  case progress p => unfold State.progress State.presentInstr State.present; (repeat' split) <;> simp
  case frameDeadline p => unfold State.frameDeadline; (repeat' split) <;> simp
/-! ### The next event -/

/-- Choosing the next event touches only the tape and its clock. -/
theorem State.nextEvent_same (s : State) : ∃ rest k, s.nextEvent.2 = { s with inputs := rest, clock := k } := by
  unfold State.nextEvent; split <;> exact ⟨_, _, rfl⟩

/-- A step is the next event's agent's step. -/
theorem step_next {s t : State} (h : step s = .next t) :
    ∃ rest k, State.perform s.event { s with inputs := rest, clock := k } = .next t := by
  obtain ⟨rest, k, e⟩ := s.nextEvent_same
  exact ⟨rest, k, e ▸ h⟩

/-- With an event in front of the tape, the step is that event's. -/
theorem step_cons (s : State) (e : Event) : step { s with inputs := e :: s.inputs } = s.perform e := rfl

/-- Every event is a command's, the companion's, a reset, a lock timeout, or another agent's. -/
theorem State.perform_cases {e : Event} {s t : State} (h : s.perform e = .next t) :
    (∃ p ts i, e = .grant (.port p) ts ∧ s.canGrant (.port p) = true ∧ s.portInstr p = some i ∧ isCommand i = true ∧
      exec i (s.grantedPort p ts) = .next t) ∨
    (∃ p ts i, e = .turns ts ∧ s.seq.owner = some (.port p) ∧ s.halted = false ∧ s.portInstr p = some i ∧
      isCommand i = true ∧ exec i { s with turns := ts } = .next t) ∨
    (∃ a, e = .companion a ∧ t = s.companionStep a) ∨ (∃ b, e = .reset b ∧ t = s.resetStep b) ∨
    (∃ q, e = .lockTimeout q ∧ t = s.lockTimeout q) ∨ AgentSame s t := by
  by_cases he : otherAgent e = true
  · exact .inr (.inr (.inr (.inr (.inr (State.perform_other he h)))))
  · cases e <;> first | exact absurd rfl he | skip
    case grant q ts =>
      rcases State.grant_next h with ⟨_, rfl⟩ | ⟨_, rfl, _⟩ | ⟨p, i, hc, rfl, hp, hi, hx⟩
      · exact .inr (.inr (.inr (.inr (.inr (.refl _)))))
      · exact absurd rfl he
      · exact .inl ⟨p, ts, i, rfl, hc, hp, hi, hx⟩
    case turns ts =>
      rcases State.takeTurns_next h with rfl | ⟨p, i, ho, hh, hp, hi, hx⟩
      · exact .inr (.inr (.inr (.inr (.inr (.refl _)))))
      · exact .inr (.inl ⟨p, ts, i, rfl, ho, hh, hp, hi, hx⟩)
    case companion a =>
      simp only [State.perform] at h
      injection h with h
      exact .inr (.inr (.inl ⟨a, rfl, h.symm⟩))
    case reset b =>
      simp only [State.perform] at h
      injection h with h
      exact .inr (.inr (.inr (.inl ⟨b, rfl, h.symm⟩)))
    case lockTimeout q =>
      simp only [State.perform] at h
      injection h with h
      exact .inr (.inr (.inr (.inr (.inl ⟨q, rfl, h.symm⟩))))

end Sys2Proof.Machine
end

