-- ==== Sys2Proof/Laws/PerInstr.lean ====
section
/-! SUPPORT. Statements made per instruction: the packet an instruction encodes to carries as many payload words as its command word says (spec/30_encoding.md R126, R132). -/

/-- An encodable instruction's packet can be presented: its payload has the length its first word gives. -/
def Sys2Proof.Laws.PayloadLength.Statement (i : Sys2Proof.Instr) : Prop :=
  i.encodable = true → ∀ w payload, Sys2Proof.encode i = .command w payload → Sys2Proof.payloadFits w payload = true

namespace Sys2Proof.Laws

theorem PayloadLength.qInit (ch : BitVec 4) : PayloadLength.Statement (.qInit ch) := by
  intro _ w payload h
  obtain ⟨rfl, rfl⟩ := by simpa [encode] using h
  simp [payloadFits, payloadLength, hasLength]

theorem PayloadLength.qRead (ch : BitVec 4) (count : BitVec 16) : PayloadLength.Statement (.qRead ch count) := by
  intro _ w payload h
  obtain ⟨rfl, rfl⟩ := by simpa [encode] using h
  simp [payloadFits, payloadLength, hasLength]

theorem PayloadLength.qWrite (ch : BitVec 4) (words : List Word) : PayloadLength.Statement (.qWrite ch words) := by
  intro hn w payload h
  obtain ⟨rfl, rfl⟩ := by simpa [encode] using h
  have : words.length < 65536 := by simpa [Instr.encodable] using hn
  simp [payloadFits, payloadLength, hasLength_iff, Nat.mod_eq_of_lt this]

theorem PayloadLength.openPair (tx rx : BitVec 4) (ctx : Word) : PayloadLength.Statement (.openPair tx rx ctx) := by
  intro _ w payload h
  obtain ⟨rfl, rfl⟩ := by simpa [encode] using h
  simp [payloadFits, payloadLength, hasLength]

theorem PayloadLength.shutdown : PayloadLength.Statement .shutdown := by
  intro _ w payload h
  obtain ⟨rfl, rfl⟩ := by simpa [encode] using h
  simp [payloadFits, payloadLength, hasLength]

theorem PayloadLength.busRd16 (addr : Word) : PayloadLength.Statement (.busRd16 addr) := by
  intro _ w payload h
  simp [encode] at h

theorem PayloadLength.busWr16 (addr : Word) (data : Half) : PayloadLength.Statement (.busWr16 addr data) := by
  intro _ w payload h
  simp [encode] at h

end Sys2Proof.Laws
end

