-- ==== Sys2Proof/Laws/Smooth.lean ====
section
/-! SUPPORT. Runs in which every transaction succeeds and the companion only re-enables: how a command moves from one position to the next. -/

namespace Sys2Proof.Machine

/-- A coming turn that goes well. -/
def Turn.smooth (t : Turn) : Prop := t.draw.fail = false ∧ t.before = [.reenable]

theorem State.smooth_iff (s : State) : s.smooth = true ↔ ∀ t ∈ s.turns, Turn.smooth t := by
  simp [State.smooth, List.all_eq_true, Turn.smooth]

/-- A state at a position of its command's pseudocode, whatever the last draw and the last bus answer were. -/
def State.mid (s : State) (l : Label) (d : Draw) (b : BusResult) : State :=
  { s with seq := { s.seq with step := l }, draw := d, busResult := b }

section Mid
variable (s : State) (l : Label) (d : Draw) (b : BusResult)
@[simp] theorem State.mid_cfg : (s.mid l d b).cfg = s.cfg := rfl
@[simp] theorem State.mid_sess : (s.mid l d b).sess = s.sess := rfl
@[simp] theorem State.mid_ch : (s.mid l d b).ch = s.ch := rfl
@[simp] theorem State.mid_chan (i : Nat) : (s.mid l d b).chan i = s.chan i := rfl
@[simp] theorem State.mid_comp : (s.mid l d b).comp = s.comp := rfl
@[simp] theorem State.mid_half (a : Word) : (s.mid l d b).half a = s.half a := rfl
@[simp] theorem State.mid_word (a : Word) : (s.mid l d b).word a = s.word a := rfl
@[simp] theorem State.mid_flt : (s.mid l d b).flt = s.flt := rfl
@[simp] theorem State.mid_halted : (s.mid l d b).halted = s.halted := rfl
@[simp] theorem State.mid_step : (s.mid l d b).seq.step = l := rfl
@[simp] theorem State.mid_owner : (s.mid l d b).seq.owner = s.seq.owner := rfl
@[simp] theorem State.mid_commandPort : (s.mid l d b).commandPort = s.commandPort := rfl
@[simp] theorem State.mid_draw : (s.mid l d b).draw = d := rfl
@[simp] theorem State.mid_goto (l' : Label) : (s.mid l d b).goto l' = s.mid l' d b := rfl
@[simp] theorem State.mid_setChan (i : Nat) (x : Chan) : (s.mid l d b).setChan i x = (s.setChan i x).mid l d b := rfl
@[simp] theorem State.mid_companionReenable (n : Nat) (out : List Word) (h : s.halted = false) :
    (s.mid (.hold n out) d b).companionStep .reenable = s.mid (.bellSet n out) d b := by
  simp [State.companionStep, State.reenable, h]
end Mid

/-- In `k` smooth turns the command gets from position `l` of `s` to position `l'` of `s'`. -/
def Reaches (turn : State → State) (s : State) (l : Label) (k : Nat) (s' : State) (l' : Label) : Prop :=
  ∀ ts, (∀ t ∈ ts, Turn.smooth t) → k ≤ ts.length → ∀ d b, ∃ d' b',
    State.runTurns turn ts (s.mid l d b) = State.runTurns turn (ts.drop k) (s'.mid l' d' b')

theorem Reaches.refl (turn : State → State) (s : State) (l : Label) : Reaches turn s l 0 s l :=
  fun _ _ _ d b => ⟨d, b, rfl⟩

theorem Reaches.trans {turn : State → State} {s s' s'' : State} {l l' l'' : Label} {k m : Nat}
    (h : Reaches turn s l k s' l') (h' : Reaches turn s' l' m s'' l'') : Reaches turn s l (k + m) s'' l'' := by
  intro ts hs hk d b
  obtain ⟨d1, b1, e1⟩ := h ts hs (by omega) d b
  obtain ⟨d2, b2, e2⟩ := h' (ts.drop k) (fun t ht => hs t (List.mem_of_mem_drop ht)) (by simp; omega) d1 b1
  exact ⟨d2, b2, by rw [e1, e2, List.drop_drop]⟩

/-- One smooth turn of a command that is in no ReenableWait. -/
theorem Reaches.one {turn : State → State} {s s' : State} {l l' : Label} (hh : s.halted = false) (hl : l ≠ .off)
    (hold : ∀ n out, l ≠ .hold n out)
    (ht : ∀ d b, d.fail = false → ∃ d' b', turn (s.mid l d b) = s'.mid l' d' b') : Reaches turn s l 1 s' l' := by
  intro ts hs hk d b
  cases ts with
  | nil => simp at hk
  | cons t ts =>
    obtain ⟨hf, hb⟩ := hs t (by simp)
    have he : (s.mid l d b).ended = false := by
      simp only [State.ended, Bool.or_eq_false_iff, decide_eq_false_iff_not]; exact ⟨hh, hl⟩
    have hc : (s.mid l d b).companionSteps t.before = s.mid l d b := by
      rcases (s.mid l d b).companionSteps_silent t.before (by simp [hb]) with e | ⟨n, out, _, e, _⟩
      · exact e
      · exact absurd e (hold n out)
    obtain ⟨d', b', e⟩ := ht t.draw b hf
    refine ⟨d', b', ?_⟩
    rw [State.runTurns_cons he, hc]
    show State.runTurns turn ts (turn (s.mid l t.draw b)) = _
    rw [e]; rfl

/-- In a ReenableWait the companion re-enables first, then the doorbell's first write is made. -/
theorem Reaches.ofHold {turn : State → State} {s s' : State} {l' : Label} {n : Nat} {out : List Word} {k : Nat}
    (hh : s.halted = false) (h : Reaches turn s (.bellSet n out) (k + 1) s' l') : Reaches turn s (.hold n out) (k + 1) s' l' := by
  intro ts hs hk d b
  obtain ⟨d', b', e⟩ := h ts hs hk d b
  refine ⟨d', b', ?_⟩
  rw [← e]
  cases ts with
  | nil => simp at hk
  | cons t ts =>
    obtain ⟨hf, hb⟩ := hs t (by simp)
    have h1 : (s.mid (.hold n out) d b).ended = false := by simp [State.ended, hh]
    have h2 : (s.mid (.bellSet n out) d b).ended = false := by simp [State.ended, hh]
    rw [State.runTurns_cons h1, State.runTurns_cons h2, hb]
    simp [State.companionSteps, hh, show (s.mid (.bellSet n out) d b).companionStep .reenable = s.mid (.bellSet n out) d b by
      simp [State.companionStep, State.reenable, hh]]

/-- One smooth turn that reads a half-word of plain memory. -/
theorem turnWith_rd16 {s : State} {a : Word} {l : Label} {d : Draw} {b : BusResult} {onValue : Half → State → State}
    {onWritten : State → State} (hh : s.halted = false) (ha : PlainAddr s.cfg a) (hf : d.fail = false) :
    (s.mid l d b).turnWith (some (rd16 a)) onValue onWritten =
      onValue (s.half a) (s.mid l d (.value (s.half a))) := by
  have hv : (s.mid l d b).comp.read16 (s.mid l d b).cfg (s.mid l d b).draw.noise a = s.half a :=
    Comp.read16_plain _ _ _ _ ha.status ha.h2c ha.c2h
  have ht : (s.mid l d b).transact (rd16 a) = s.mid l d (.value (s.half a)) := by
    rw [State.transact_rd16 ha.even (show (s.mid l d b).draw.fail = false from hf), hv]; rfl
  have hh' : (s.mid l d (.value (s.half a))).halted = false := hh
  simp only [State.turnWith, ht, hh']
  rfl

/-- One smooth turn that polls the status register. -/
theorem turnWith_poll {s : State} {l : Label} {d : Draw} {b : BusResult} {onValue : Half → State → State}
    {onWritten : State → State} (hh : s.halted = false) (he : oddAddress s.cfg.regStatus = false) (hf : d.fail = false) :
    (s.mid l d b).turnWith (some (pollRecord s.cfg)) onValue onWritten =
      onValue (statusRead s.cfg s.comp.busy d.noise) (s.mid l d (.value (statusRead s.cfg s.comp.busy d.noise))) := by
  have hv : (s.mid l d b).comp.read16 (s.mid l d b).cfg (s.mid l d b).draw.noise s.cfg.regStatus =
      statusRead s.cfg s.comp.busy d.noise := by simp [Comp.read16, State.mid]
  have ht : (s.mid l d b).transact (rd16 s.cfg.regStatus) = s.mid l d (.value (statusRead s.cfg s.comp.busy d.noise)) := by
    rw [State.transact_rd16 he (show (s.mid l d b).draw.fail = false from hf), hv]; rfl
  have hh' : (s.mid l d (.value (statusRead s.cfg s.comp.busy d.noise))).halted = false := hh
  simp only [State.turnWith, pollRecord, ht, hh']
  rfl

/-- One smooth turn that writes a half-word. -/
theorem turnWith_wr16 {s : State} {a : Word} {v : Half} {l : Label} {d : Draw} {b : BusResult}
    {onValue : Half → State → State} {onWritten : State → State} (hh : s.halted = false) (he : oddAddress a = false)
    (hf : d.fail = false) :
    (s.mid l d b).turnWith (some (wr16 a v)) onValue onWritten =
      onWritten ({ s with comp := s.comp.write16 s.cfg a v }.mid l d .written) := by
  have ht : (s.mid l d b).transact (wr16 a v) = { s with comp := s.comp.write16 s.cfg a v }.mid l d .written := by
    rw [State.transact_wr16 he (show (s.mid l d b).draw.fail = false from hf)]; rfl
  have hh' : ({ s with comp := s.comp.write16 s.cfg a v }.mid l d .written).halted = false := hh
  simp only [State.turnWith, ht, hh']
  rfl

/-- A status read of an idle companion shows no BUSY; of a busy one it shows it (R33). -/
theorem busySeen_statusRead (p : Params) (busy : Bool) (noise : Half) : busySeen p (statusRead p busy noise) = busy := by
  have h := p.busyBit.isLt
  unfold busySeen statusRead
  cases busy <;> simp [h]

/-! ### A command's whole run -/

/-- A command that gets to its response in smooth turns answers with it, and releases the lock. -/
theorem exec_smooth {i : Instr} {s s1 s' : State} {p : PortId} {l : Label} {st n data k} (hi : isCommand i = true)
    (he : s.AtEntry p) (hsm : s.smooth = true)
    (hb : { s.enter i (commandBody i) with turns := [] } = s1.mid l s.draw s.busResult)
    (hr : Reaches (commandTurn i) s1 l k s' (.respond st n data)) (hk : k + 1 ≤ s.turns.length) (hh : s'.halted = false)
    (hturn : ∀ d b, commandTurn i (s'.mid (.respond st n data) d b) =
      (s'.mid (.respond st n data) d b).respond st n data) :
    ∃ d b, exec i s = .next ((s'.mid (.respond st n data) d b).respond st n data) := by
  rw [State.smooth_iff] at hsm
  obtain ⟨d, b, e⟩ := hr s.turns hsm (by omega) s.draw s.busResult
  have hl : k < s.turns.length := by omega
  refine ⟨(s.turns[k]).draw, b, ?_⟩
  rw [exec_command hi, State.runCommand_eq he.owner he.running (by rw [he.entry]; simp), if_pos he.entry, hb, e]
  rw [List.drop_eq_getElem_cons hl]
  have h1 : (s'.mid (.respond st n data) d b).ended = false := by simp [State.ended, hh]
  rw [State.runTurns_cons h1]
  obtain ⟨_, hbf⟩ := hsm _ (List.getElem_mem hl)
  have : (s'.mid (.respond st n data) d b).companionSteps s.turns[k].before = s'.mid (.respond st n data) d b := by
    rw [hbf]; simp [State.companionSteps, State.companionStep, State.reenable, hh]
  rw [this]
  have e2 : ({ s'.mid (.respond st n data) d b with draw := s.turns[k].draw } : State) = s'.mid (.respond st n data) s.turns[k].draw b := rfl
  rw [e2, hturn, State.runTurns_ended]
  simp [State.ended]

/-- What a response step shows (R124, R102). -/
theorem State.respond_answered {s' : State} {p st n data d b} (ho : s'.seq.owner = some (.port p)) (hp : s'.hasPort p = true) :
   ((s'.mid (.respond st n data) d b).respond st n data).Answered p st n data := by
  have hcp : s'.commandPort = p := by simp [State.commandPort, ho]
  constructor
  · show (((s'.mid (.respond st n data) d b).setPortState (s'.mid (.respond st n data) d b).commandPort _).release.port p).state = _
    rw [State.mid_commandPort, hcp]
    have : ∀ w : State, w.release.port p = w.port p := by intro w; cases p <;> rfl
    rw [this, State.setPortState, State.setPort_port_same]
    cases p <;> exact hp
  · simp
  · simp

/-! ### The Q_INIT body -/

/-- A turn function that runs the Q_INIT body of `c` (R205, R226). -/
def IsBodyTurn (turn : State → State) (second : Bool) (c : BitVec 4) (onOk : State → State) (bad : Status) : Prop :=
  ∀ s : State, ((∃ n, s.seq.step = .poll second n) ∨ (∃ f, s.seq.step = .descLow second f) ∨ ∃ f lo, s.seq.step = .descHigh second f lo) →
    turn s = s.turnWith (bodyRecord s.cfg c s.seq.step) (State.bodyValue c onOk bad) (fun t => t)

/-- The low half of a descriptor field. -/
theorem body_low {turn second c onOk bad} (ht : IsBodyTurn turn second c onOk bad) {s : State} (hh : s.halted = false)
    (hwf : s.cfg.wf = true) (hc : c.toNat < s.cfg.nCh) (f : List Word) (hf : f.length < 4) :
    Reaches turn s (.descLow second f) 1 s (.descHigh second f (s.half (descField s.cfg c f.length))) := by
  refine Reaches.one hh (by simp) (by simp) fun d b hd => ?_
  have hp := descField_plain hwf hc hf
  rw [ht _ (.inr (.inl ⟨f, rfl⟩))]
  simp only [State.mid_step, bodyRecord, rd32Low, State.mid_cfg]
  rw [turnWith_rd16 hh hp.1 hd]
  simp [State.bodyValue]

/-- A whole descriptor field but the last. -/
theorem body_word {turn second c onOk bad} (ht : IsBodyTurn turn second c onOk bad) {s : State} (hh : s.halted = false)
    (hwf : s.cfg.wf = true) (hc : c.toNat < s.cfg.nCh) (f : List Word) (hf : f.length < 3) :
    Reaches turn s (.descLow second f) 2 s (.descLow second (f ++ [s.word (descField s.cfg c f.length)])) := by
  refine (body_low ht hh hwf hc f (by omega)).trans (k := 1) (m := 1) ?_
  refine Reaches.one hh (by simp) (by simp) fun d b hd => ?_
  have hp := descField_plain hwf hc (by omega : f.length < 4)
  rw [ht _ (.inr (.inr ⟨f, _, rfl⟩))]
  simp only [State.mid_step, bodyRecord, rd32High, State.mid_cfg]
  rw [turnWith_rd16 hh hp.2 hd]
  simp [State.bodyValue, State.word]
  rw [if_pos (by omega)]; exact ⟨_, _, rfl⟩

/-- The whole body: the poll, then the four fields. -/
theorem body_reaches {turn second c onOk bad} (ht : IsBodyTurn turn second c onOk bad) {s s' : State} {l'}
    (hh : s.halted = false) (hwf : s.cfg.wf = true) (hc : c.toNat < s.cfg.nCh) (hbusy : s.comp.busy = false) (n : Nat)
    (hfin : ∀ d b, ∃ d' b',
      State.finishBody c onOk bad
        [s.word (descField s.cfg c 0), s.word (descField s.cfg c 1), s.word (descField s.cfg c 2), s.word (descField s.cfg c 3)]
        (s.mid (.descHigh second [s.word (descField s.cfg c 0), s.word (descField s.cfg c 1), s.word (descField s.cfg c 2)]
          (s.half (descField s.cfg c 3))) d b) = s'.mid l' d' b') :
    Reaches turn s (.poll second n) 9 s' l' := by
  have h0 : Reaches turn s (.poll second n) 1 s (.descLow second []) := by
    refine Reaches.one hh (by simp) (by simp) fun d b hd => ?_
    rw [ht _ (.inl ⟨n, rfl⟩)]
    simp only [State.mid_step, bodyRecord, State.mid_cfg]
    rw [turnWith_poll hh (Params.wf_registers hwf).statusEven hd]
    simp [State.bodyValue, State.afterPoll, busySeen_statusRead, hbusy]
  have h1 := body_word ht hh hwf hc [] (by simp)
  have h2 := body_word ht hh hwf hc [s.word (descField s.cfg c 0)] (by simp)
  have h3 := body_word ht hh hwf hc [s.word (descField s.cfg c 0), s.word (descField s.cfg c 1)] (by simp)
  have h4 := body_low ht hh hwf hc [s.word (descField s.cfg c 0), s.word (descField s.cfg c 1), s.word (descField s.cfg c 2)] (by simp)
  refine ((((h0.trans h1).trans h2).trans h3).trans h4).trans (m := 1) ?_
  refine Reaches.one hh (by simp) (by simp) fun d b hd => ?_
  have hp := descField_plain hwf hc (by omega : 3 < 4)
  rw [ht _ (.inr (.inr ⟨_, _, rfl⟩))]
  simp only [State.mid_step, bodyRecord, rd32High, State.mid_cfg, List.length_cons, List.length_nil]
  rw [turnWith_rd16 hh hp.2 hd]
  exact hfin _ _

end Sys2Proof.Machine
end

