-- ==== Sys2Proof/Laws/Trace.lean ====
section
/-! SUPPORT. The moments of a step are its atomic steps: one after another they lead from where the step starts to where it ends, and each is itself a step of the machine with an event of one atomic step (log 3). -/

namespace Sys2Proof.Machine

/-! ### Moments follow one another -/

/-- The moments lead from `s` to `t`, each starting where the one before it ended. -/
def Chained : List Moment → State → State → Prop
  | [], s, t => s = t
  | x :: rest, s, t => x.before = s ∧ Chained rest x.after t

theorem Chained.append {l m : List Moment} {s t u : State} (h : Chained l s t) (k : Chained m t u) : Chained (l ++ m) s u := by
  induction l generalizing s with
  | nil => exact h ▸ k
  | cons x rest ih => exact ⟨h.1, ih h.2⟩

theorem companionMoments_chained (acts : List CompAct) (s : State) :
    Chained (companionMoments acts s) s (s.companionSteps acts) := by
  induction acts generalizing s with
  | nil => rfl
  | cons a rest ih => exact ⟨rfl, ih _⟩

theorem turnMoments_chained (turn : State → State) (ts : List Turn) (s : State) :
    Chained (turnMoments turn ts s) s (State.runTurns turn ts s) := by
  induction ts generalizing s with
  | nil => rfl
  | cons t ts ih =>
    unfold turnMoments State.runTurns
    split
    · rfl
    · exact (companionMoments_chained _ _).append ⟨rfl, ih _⟩

/-! ### A state inside a command's run -/

/-- Port `p`'s command `i` is running, past its entry, with no turns left over. -/
structure State.Inside (s : State) (p : PortId) (i : Instr) : Prop where
  owner : s.seq.owner = some (.port p)
  instr : s.portInstr p = some i
  entry : s.seq.step ≠ .entry
  turns : s.turns = []

/-- Taking off turns where there are none changes nothing. -/
theorem State.turns_nil {s : State} (h : s.turns = []) : ({ s with turns := [] } : State) = s := by rw [← h]

theorem State.portInstr_congr {s t : State} {p : PortId} (h : t.port p = s.port p) : t.portInstr p = s.portInstr p := by
  simp only [State.portInstr, h]

theorem State.Inside.companionStep {s : State} {p : PortId} {i : Instr} (h : s.Inside p i) (a : CompAct) :
    (s.companionStep a).Inside p i := by
  have k := s.companionStep_companionSame a
  refine ⟨k.owner.trans h.owner, ?_, ?_, k.turns.trans h.turns⟩
  · rw [← h.instr]; exact State.portInstr_congr (by cases p <;> simp [State.port, k.clients, k.handlerPort])
  · rcases k.step with e | ⟨_, _, _, e⟩ <;> rw [e]
    · exact h.entry
    · simp

theorem State.Inside.companionSteps {s : State} {p : PortId} {i : Instr} (h : s.Inside p i) (acts : List CompAct) :
    (s.companionSteps acts).Inside p i := by
  induction acts generalizing s with
  | nil => exact h
  | cons a rest ih => exact ih (h.companionStep a)

/-- One turn ends the command or leaves it inside. -/
theorem State.Inside.turn {s : State} {p : PortId} {i : Instr} (h : s.Inside p i) (d : Draw) :
    (commandTurn i { s with draw := d }).ended = true ∨ (commandTurn i { s with draw := d }).Inside p i := by
  rcases commandTurn_cases i { s with draw := d } with ⟨st, n, data, _, e⟩ | k
  · left; rw [e]; simp [State.ended]
  · right
    exact ⟨k.owner.trans h.owner, (State.portInstr_congr (k.port p)).trans h.instr, k.entry h.entry, k.turns.trans h.turns⟩

/-- A command's turn is the step of the machine whose event is that one turn. -/
theorem State.Inside.perform_turn {s : State} {p : PortId} {i : Instr} (h : s.Inside p i) (he : s.ended = false) (d : Draw) :
    s.perform (.turns [{ before := [], draw := d }]) = .next (commandTurn i { s with draw := d }) := by
  obtain ⟨hh, hs⟩ : s.halted = false ∧ s.seq.step ≠ .off := by simpa [State.ended] using he
  have hi : isCommand i = true := State.portInstr_isCommand h.instr
  show s.takeTurns _ = _
  simp only [State.takeTurns, h.owner, hh, Bool.false_eq_true, if_false, h.instr]
  have key := State.runCommand_eq (b := State.enter i (commandBody i)) (turn := commandTurn i)
    (s := { s with turns := [{ before := [], draw := d }] }) h.owner hh hs
  rw [exec_command hi, key, if_neg h.entry]
  show Host.Outcome.next (State.runTurns (Machine.commandTurn i) [{ before := [], draw := d }] { s with turns := [] }) = _
  rw [State.turns_nil h.turns, State.runTurns_cons he]
  rfl

/-- Every moment of a run of turns is a step of the machine. -/
theorem State.Inside.moments {s : State} {p : PortId} {i : Instr} (h : s.Inside p i) (ts : List Turn) :
    ∀ x ∈ turnMoments (commandTurn i) ts s, x.before.perform x.event = .next x.after := by
  have companion : ∀ (acts : List CompAct) (u : State), ∀ x ∈ companionMoments acts u,
      x.before.perform x.event = .next x.after := by
    intro acts
    induction acts with
    | nil => intro u x hx; cases hx
    | cons a rest ih =>
      intro u x hx
      rcases List.mem_cons.1 hx with rfl | hx
      · rfl
      · exact ih _ x hx
  induction ts generalizing s with
  | nil => intro x hx; cases hx
  | cons t ts ih =>
    intro x hx
    unfold turnMoments at hx
    split at hx
    · cases hx
    · rename_i he
      have hu := h.companionSteps t.before
      have hue : (s.companionSteps t.before).ended = false := by
        have k := s.companionSteps_companionSame t.before
        obtain ⟨hh, hs⟩ : s.halted = false ∧ s.seq.step ≠ .off := by simpa [State.ended] using he
        have : (s.companionSteps t.before).seq.step ≠ .off := by
          rcases k.step with e | ⟨_, _, _, e⟩ <;> rw [e]
          · exact hs
          · simp
        simp [State.ended, State.halted, k.flt, this]
        simpa [State.halted] using hh
      rcases List.mem_append.1 hx with hx | hx
      · exact companion _ _ x hx
      · rcases List.mem_cons.1 hx with rfl | hx
        · exact hu.perform_turn hue t.draw
        · rcases hu.turn t.draw with e | e
          · exfalso
            revert hx
            cases ts with
            | nil => simp [turnMoments]
            | cons t' ts => simp [turnMoments, e]
          · exact ih e x hx

/-! ### The moments of a step -/

/-- A command's beginning does not look at the coming turns. -/
theorem State.begun_turns (i : Instr) (s : State) (ts : List Turn) : ({ s with turns := ts } : State).begun i = s.begun i := by
  unfold State.begun
  dsimp only
  split
  · have same : ∀ u v : State, u = { v with turns := u.turns } →
        ({ u.enter i (commandBody i) with turns := [] } : State) = { v.enter i (commandBody i) with turns := [] } := by
      intro u v e
      rw [e]
      cases hop : operandFault v.cfg i with
      | some code => simp only [State.enter, hop]; rfl
      | none =>
        have hch : ∀ k, State.chan { v with turns := u.turns } k = v.chan k := fun _ => rfl
        simp only [State.enter, hop, hch]
        by_cases h1 : v.sess.isOpen = false
        · rw [if_pos h1, if_pos h1]; cases i <;> rfl
        · rw [if_neg h1, if_neg h1]
          by_cases h2 : v.sess.wedged = true ∧ i ≠ .shutdown
          · rw [if_pos h2, if_pos h2]; cases i <;> rfl
          · rw [if_neg h2, if_neg h2]
            cases hk : checkedChannel i with
            | none => cases i <;> rfl
            | some c =>
              cases hv : (v.chan c.toNat).valid
              · simp only [hv]; rfl
              · simp only [hv]; cases i <;> rfl
    exact same _ _ rfl
  · rfl

/-- A command just begun is past its entry, or the block is halted. -/
theorem State.begun_entry {i : Instr} (hi : isCommand i = true) (s : State) :
    (s.begun i).halted = true ∨ (s.begun i).seq.step ≠ .entry := by
  unfold State.begun
  split
  · show (s.enter i (commandBody i)).halted = true ∨ (s.enter i (commandBody i)).seq.step ≠ .entry
    apply State.enter_ind (P := fun t => t.halted = true ∨ t.seq.step ≠ .entry)
    · intro code hc; exact .inl (decide_eq_true hc)
    · intro st; exact .inr (by simp)
    · intro _ _ _
      right
      cases i <;> first | (simp [commandBody, State.startBody, State.shutDown]; done) | cases hi
  · rename_i h; exact .inr h

/-- A granted command begins with the port's instruction running. -/
theorem State.begun_inside {s : State} {p : PortId} {i : Instr} {ts : List Turn} (hi : s.portInstr p = some i)
    (hh : ((s.grantedPort p ts).begun i).halted = false) : ((s.grantedPort p ts).begun i).Inside p i := by
  have hc := State.portInstr_isCommand hi
  have hg : (s.grantedPort p ts).portInstr p = some i := by
    rw [← hi]; exact State.portInstr_congr (by cases p <;> rfl)
  have key : ((s.grantedPort p ts).begun i).seq.owner = some (.port p) ∧
      ((s.grantedPort p ts).begun i).port p = (s.grantedPort p ts).port p := by
    unfold State.begun
    split
    · by_cases hsd : i = .shutdown
      · subst hsd
        rw [shutdownBegin_cases]
        split <;> exact ⟨rfl, by cases p <;> rfl⟩
      · have k := commandBegin_same hsd (s.grantedPort p ts)
        exact ⟨k.owner, (by cases p <;> rfl : _ = _).trans (k.port p)⟩
    · exact ⟨rfl, by cases p <;> rfl⟩
  refine ⟨key.1, (State.portInstr_congr key.2).trans hg, ?_, rfl⟩
  rcases State.begun_entry hc (s.grantedPort p ts) with e | e
  · rw [e] at hh; cases hh
  · exact e

/-- A grant with its turns is the grant's own step, then the turns. -/
theorem State.perform_grant {s : State} {p : PortId} {i : Instr} (ts : List Turn) (hc : s.canGrant (.port p) = true)
    (hi : s.portInstr p = some i) :
    s.perform (.grant (.port p) ts) = .next (State.runTurns (commandTurn i) ts ((s.grantedPort p ts).begun i)) := by
  have hh : s.halted = false := by simp [State.canGrant] at hc; exact hc.2
  show s.grant _ _ = _
  simp only [State.grant, hc, if_true, hi]
  have key := State.runCommand_eq (b := State.enter i (commandBody i)) (turn := commandTurn i) (s := s.grantedPort p ts)
    (p := p) rfl hh (by simp [State.grantedPort])
  rw [exec_command (State.portInstr_isCommand hi), key]
  rfl

/-- On a halted block no turns are taken. -/
theorem State.takeTurns_halted {s t : State} {ts : List Turn} (hh : s.halted = true) (h : s.takeTurns ts = .next t) : s = t := by
  simp only [State.takeTurns, hh, if_true] at h
  split at h <;> (injection h)

/-- Where no command holds the lock no turns are taken. -/
theorem State.takeTurns_none {s t : State} {ts : List Turn} (hi : s.currentInstr = none) (h : s.takeTurns ts = .next t) :
    s = t := by
  unfold State.currentInstr at hi
  unfold State.takeTurns at h
  split at hi
  · rename_i p ho
    simp only [ho, hi] at h
    split at h
    · injection h
    · cases h
  · rename_i hno
    split at h
    · rename_i p ho; exact absurd ho (hno p)
    · injection h

/-- The current instruction is the lock holder's. -/
theorem State.currentInstr_port {s : State} {i : Instr} (h : s.currentInstr = some i) :
    ∃ p, s.seq.owner = some (.port p) ∧ s.portInstr p = some i := by
  unfold State.currentInstr at h
  split at h
  · exact ⟨_, ‹_›, h⟩
  · cases h

/-- A command past its entry takes its turns. -/
theorem State.takeTurns_runs {s t : State} {ts : List Turn} {p : PortId} {i : Instr} (ho : s.seq.owner = some (.port p))
    (hh : s.halted = false) (hp : s.portInstr p = some i) (hs : s.seq.step ≠ .entry) (ht : s.turns = [])
    (h : s.takeTurns ts = .next t) : s.seq.step ≠ .off ∧ State.runTurns (commandTurn i) ts s = t := by
  simp only [State.takeTurns, ho, hh, Bool.false_eq_true, if_false, hp] at h
  rw [exec_command (State.portInstr_isCommand hp)] at h
  obtain ⟨_, _, _, hst, hx⟩ := State.runCommand_next h
  rw [if_neg (show ({ s with turns := ts } : State).seq.step ≠ .entry from hs)] at hx
  replace hx : t = State.runTurns (commandTurn i) ts { s with turns := [] } := hx
  rw [State.turns_nil ht] at hx
  exact ⟨hst, hx.symm⟩

/-- No turns are left over, and no command of a running block stands at its entry. -/
structure State.Settled (s : State) : Prop where
  turns : s.turns = []
  entry : s.halted = true ∨ s.seq.step ≠ .entry

/-- A reset state is settled. -/
theorem State.resetWith_settled (p : Params) : (State.resetWith p).Settled := ⟨rfl, .inr (by simp [State.resetWith])⟩

theorem State.Settled.keep {s t : State} (h : s.Settled) (ht : t.turns = s.turns) (hf : s.halted = true → t.halted = true)
    (hs : t.seq.step = s.seq.step ∨ t.seq.step ≠ .entry) : t.Settled := by
  refine ⟨ht.trans h.turns, ?_⟩
  rcases hs with e | e
  · rcases h.entry with k | k
    · exact .inl (hf k)
    · exact .inr (e ▸ k)
  · exact .inr e

/-- A command's run ends settled. -/
theorem exec_settled {i : Instr} {s t : State} (hi : isCommand i = true) (h : exec i s = .next t) : t.Settled := by
  have hx := h
  rw [exec_command hi] at hx
  obtain ⟨p, _, _, _, rfl⟩ := State.runCommand_next hx
  refine State.runTurns_ind (P := State.Settled) ⟨rfl, State.begun_entry hi s⟩ fun u x _ hu _ => ?_
  have k := u.companionSteps_companionSame x.before
  have h1 : ({ u.companionSteps x.before with draw := x.draw } : State).Settled := by
    refine hu.keep k.turns (fun e => by simpa [State.halted, k.flt] using e) ?_
    rcases k.step with e | ⟨_, _, _, e⟩
    · exact .inl e
    · exact .inr (by simp [e])
  rcases commandTurn_cases i { u.companionSteps x.before with draw := x.draw } with ⟨st, n, data, _, e⟩ | k2
  · rw [e]; exact ⟨by simpa using h1.turns, .inr (by simp)⟩
  · refine ⟨k2.turns.trans h1.turns, ?_⟩
    rcases h1.entry with e | e
    · by_cases hh : (commandTurn i { u.companionSteps x.before with draw := x.draw }).halted = true
      · exact .inl hh
      · have := k2.flt (by simpa using hh)
        rw [State.halted, this] at hh
        exact absurd e hh
    · exact .inr (k2.entry e)

/-- Every step of the machine from a settled state ends settled. -/
theorem step_settled {s t : State} (hs : s.Settled) (h : step s = .next t) : t.Settled := by
  obtain ⟨rest, k, h⟩ := step_next h
  have hs : State.Settled { s with inputs := rest, clock := k } := ⟨hs.turns, hs.entry⟩
  rcases State.perform_cases h with ⟨_, _, i, _, _, _, hi, hx⟩ | ⟨_, _, i, _, _, _, _, hi, hx⟩ | ⟨a, _, rfl⟩ | ⟨b, _, rfl⟩ |
    ⟨q, _, rfl⟩ | c
  · exact exec_settled hi hx
  · exact exec_settled hi hx
  · have c := State.companionStep_companionSame { s with inputs := rest, clock := k } a
    refine hs.keep c.turns (fun e => by simpa [State.halted, c.flt] using e) ?_
    rcases c.step with e | ⟨_, _, _, e⟩
    · exact .inl e
    · exact .inr (by simp [e])
  · exact ⟨rfl, .inr (by simp [State.resetStep, State.resetWith])⟩
  · have c := State.lockTimeout_same q { s with inputs := rest, clock := k }
    exact hs.keep c.turns (fun e => by rw [State.halted, c.flt e]; exact e) (by rcases c.step with e | e <;> simp [e])
  · refine hs.keep c.turns (fun e => by rw [State.halted, c.flt e]; exact e) ?_
    rcases c.step with e | e
    · exact .inl e
    · exact .inr (by simp [e])

/-- The moments of a step from a settled state lead from its start to its end. -/
theorem State.momentsOf_chained {e : Event} {s t : State} (h : s.perform e = .next t) (hset : s.Settled) : Chained (s.momentsOf e) s t := by
  unfold State.momentsOf
  split
  · rename_i p ts
    split
    · rename_i hc
      split
      · rename_i i hi
        rw [State.perform_grant ts hc hi] at h
        injection h with h
        exact ⟨rfl, h ▸ turnMoments_chained _ _ _⟩
      · rename_i hi
        simp [State.perform, State.grant, hc, hi] at h
    · rename_i hc
      simp only [State.perform, State.grant, if_neg hc] at h
      injection h
  · rename_i ts
    split
    · rename_i hh
      exact State.takeTurns_halted hh h
    · rename_i hh
      have hh : s.halted = false := by simpa using hh
      split
      · rename_i i hi
        obtain ⟨p, ho, hp⟩ := State.currentInstr_port hi
        obtain ⟨hst, e⟩ := State.takeTurns_runs ho hh hp (hset.entry.resolve_left (by simp [hh])) hset.turns h
        exact e ▸ turnMoments_chained _ _ _
      · rename_i hi
        exact State.takeTurns_none hi h
  · rw [h]; exact ⟨rfl, rfl⟩

/-- Every moment of a step is itself a step of the machine, with an event of one atomic step. -/
theorem State.momentsOf_perform {e : Event} {s : State} (hset : s.Settled) :
    ∀ x ∈ s.momentsOf e, x.before.perform x.event = .next x.after := by
  intro x hx
  unfold State.momentsOf at hx
  split at hx
  · rename_i p ts
    split at hx
    · rename_i hc
      split at hx
      · rename_i i hi
        rcases List.mem_cons.1 hx with rfl | hx
        · rw [State.perform_grant [] hc hi]
          show Host.Outcome.next ((s.grantedPort p []).begun i) = _
          rw [show s.grantedPort p [] = { s.grantedPort p ts with turns := [] } from rfl, State.begun_turns]
        · cases hh : ((s.grantedPort p ts).begun i).halted
          · exact (State.begun_inside hi hh).moments ts x hx
          · exfalso; revert hx
            cases ts <;> simp [turnMoments, State.ended, hh]
      · cases hx
    · cases hx
  · rename_i ts
    split at hx
    · cases hx
    · rename_i hh
      split at hx
      · rename_i i hi
        obtain ⟨p, ho, hp⟩ := State.currentInstr_port hi
        exact State.Inside.moments ⟨ho, hp, hset.entry.resolve_left hh, hset.turns⟩ ts x hx
      · cases hx
  · split at hx
    · rename_i t h
      obtain rfl := List.mem_singleton.1 hx
      exact h
    · cases hx

end Sys2Proof.Machine
end

