-- ==== Sys2Proof/Tests/Slice0.lean ====
section
/-! SUPPORT. Tests of the model against spec/95_test_vectors.md (each names its vector), the well-formedness smoke test, and a concrete witness for the hypotheses of every statement in Certificates/Slice0/Obligations.lean. -/

namespace Sys2Proof.Tests

open Sys2Proof.Machine

/-! ### Well-formedness: each check refuses a term -/

theorem test_wf_parameters : Config.tc.wf = true ∧
    ({ Config.tc with nCh := 0 } : Params).wf = false ∧ ({ Config.tc with nCh := 17 } : Params).wf = false ∧
    ({ Config.tc with nClients := 0 } : Params).wf = false ∧ ({ Config.tc with descTableBase := 0x1001 } : Params).wf = false ∧
    ({ Config.tc with regStatus := 0x101 } : Params).wf = false ∧ ({ Config.tc with regH2C := 0x105 } : Params).wf = false ∧
    ({ Config.tc with regC2H := 0x109 } : Params).wf = false ∧ ({ Config.tc with regStatus := 0x104 } : Params).wf = false ∧
    ({ Config.tc with regStatus := 0x108 } : Params).wf = false ∧ ({ Config.tc with regH2C := 0x108 } : Params).wf = false ∧
    ({ Config.tc with regStatus := 0x1000 } : Params).wf = false ∧ ({ Config.tc with regH2C := 0x105E } : Params).wf = false ∧
    ({ Config.tc with regC2H := 0x1024 } : Params).wf = false ∧ ({ Config.tc with idleMaxPolls := some 0 } : Params).wf = false := by
  decide

theorem test_wf_instructions :
    (Instr.qInit 5).wf Config.tc = true ∧ (Instr.qInit 6).wf Config.tc = false ∧
    (Instr.qRead 5 1).wf Config.tc = true ∧ (Instr.qRead 6 1).wf Config.tc = false ∧ (Instr.qRead 0 0).wf Config.tc = false ∧
    (Instr.qWrite 5 [7]).wf Config.tc = true ∧ (Instr.qWrite 6 [7]).wf Config.tc = false ∧
    (Instr.qWrite 0 []).wf Config.tc = false ∧
    (Instr.openPair 5 5 0).wf Config.tc = true ∧ (Instr.openPair 6 0 0).wf Config.tc = false ∧
    (Instr.openPair 0 6 0).wf Config.tc = false ∧ Instr.shutdown.wf Config.tc = true ∧
    (Instr.busRd16 0x108).wf Config.tc = true ∧ (Instr.busRd16 0x109).wf Config.tc = false ∧
    (Instr.busWr16 0x108 5).wf Config.tc = true ∧ (Instr.busWr16 0x109 5).wf Config.tc = false := by
  decide

theorem test_wf_long_write : (Instr.qWrite 0 (List.replicate 65535 0)).encodable = true ∧
    (Instr.qWrite 0 (List.replicate 65536 0)).encodable = false ∧
    (Instr.qWrite 0 (List.replicate 65536 0)).wf Config.tc = false := by
  simp only [Instr.encodable, Instr.wf, List.length_replicate]; decide

theorem test_wf_records : (rd16 0x108).wf = true ∧ (wr16 0x108 5).wf = true ∧ (rd16 0x109).wf = false ∧
    (wr16 0x2003 5).wf = false ∧ ({ write := false, addr := 0x108, data := 1 } : BusRec).wf = false := by
  decide

/-! ### Decoding: words written out from R121-R123, R136 and the vectors V-D1..V-D21 -/

/-- OP 1, CH 2: the bits of `q.init 2` (V-D21). -/
theorem test_decode_qInit : decode (.command 0b0001_0010_0000_0000_0000000000000000 []) = .ok (.qInit 2) := by decide

/-- OP 2, CH 5, COUNT 65535 (V-D17). -/
theorem test_decode_qRead : decode (.command 0b0010_0101_0000_0000_1111111111111111 []) = .ok (.qRead 5 65535) := by decide

/-- `q.write 1, 2, [0x8201_0002, 0]` (V-D21). -/
theorem test_decode_qWrite :
    decode (.command 0b0011_0001_0000_0000_0000000000000010 [0x82010002, 0]) = .ok (.qWrite 1 [0x82010002, 0]) := by decide

/-- `q.open 0, 2, 0x77` (V-D21). -/
theorem test_decode_openPair : decode (.command 0b0100_0000_0010_0000_0000000000000000 [0x77]) = .ok (.openPair 0 2 0x77) := by
  decide

/-- `q.shutdown` (V-D19). -/
theorem test_decode_shutdown : decode (.command 0b0101_0000_0000_0000_0000000000000000 []) = .ok .shutdown := by decide

/-- MODE 0 reads (R129). -/
theorem test_decode_busRd16 : decode (.bus { write := false, addr := 0x0108, data := 0 }) = .ok (.busRd16 0x0108) := by decide

/-- MODE 1 writes (R129). -/
theorem test_decode_busWr16 : decode (.bus { write := true, addr := 0x0104, data := 0x0020 }) = .ok (.busWr16 0x0104 0x20) := by
  decide

/-- V-D1..V-D3, V-D16: no opcode; V-D4, V-D14: RSV; V-D5..V-D8: fields that must be 0; a payload of another length (R126). -/
theorem test_decode_refuses :
    decode (.command 0x00000000 []) = .error .illegalOpcode ∧ decode (.command 0x60000000 []) = .error .illegalOpcode ∧
    decode (.command 0xF0000000 []) = .error .illegalOpcode ∧ decode (.command 0x06010000 []) = .error .illegalOpcode ∧
    decode (.command 0x20010001 []) = .error .reservedBits ∧ decode (.command 0x26010000 []) = .error .reservedBits ∧
    decode (.command 0x20100001 []) = .error .fieldNotZero ∧ decode (.command 0x10000001 []) = .error .fieldNotZero ∧
    decode (.command 0x41200001 [0]) = .error .fieldNotZero ∧ decode (.command 0x51000000 []) = .error .fieldNotZero ∧
    decode (.command 0x30000002 [1]) = .error .payloadLength ∧ decode (.command 0x40000000 []) = .error .payloadLength := by
  decide

/-- The host's numbering: a command word in 32 bits, and the model's numbering of a bus record in 56 (log 24). -/
theorem test_table_words : decodeTableWord 32 0x12000000 = some (.qInit 2) ∧
    decodeTableWord 32 0x41200000 = some (.openPair 1 2 0) ∧ decodeTableWord 32 0x60000000 = none ∧
    decodeTableWord 56 (0x108 * 2) = some (.busRd16 0x108) ∧
    decodeTableWord 56 (5 * 2 ^ 33 + 0x108 * 2 + 1) = some (.busWr16 0x108 5) ∧ decodeTableWord 16 0x1200 = none := by
  decide

/-- Assembler text (R133, R135). -/
theorem test_assembler_text : (Instr.qWrite 1 [5, 6]).asm = "q.write 1, 2, [5,6]" ∧ (Instr.busRd16 0x108).asm = "bus.rd16 264" := by
  decide

/-- V-D22: response words. -/
theorem test_response_words : respWord .ok 7 = 0x00000007 ∧ respWord .busError 3 = 0x10000003 ∧
    respWord .invalidChannel 0 = 0x20000000 ∧ respWord .wouldBlock 0 = 0x30000000 ∧ respWord .timeout 0 = 0x40000000 ∧
    respWord .protocolError 0 = 0x50000000 ∧ respWord .channelUnavailable 0 = 0x60000000 ∧
    respWord .noSession 0 = 0x70000000 := by
  decide

/-! ### Ring arithmetic (V-R1..V-R4) -/

theorem test_used_and_free : (used 3 2 8, free 3 2 8) = (7, 0) ∧ (used 6 2 8, free 6 2 8) = (4, 3) ∧
    (used 0 0 1, free 0 0 1) = (0, 0) ∧ (used 1 0 2, free 1 0 2) = (1, 0) ∧ (used 0 65534 65535, free 0 65534 65535) = (65534, 0) ∧
    ringFull 1 0 8 = true ∧ ringFull 0 0 1 = false ∧ ringEmpty 0 0 = true := by
  decide

theorem test_norm : norm 7 8 = some 7 ∧ norm 8 8 = some 0 ∧ norm 9 8 = none ∧ norm 0x10000 8 = none ∧ norm 1 1 = some 0 ∧
    norm 2 1 = none := by
  decide

theorem test_writeSpans : writeSpans 0 5 8 2 = ([5, 6], 7) ∧ writeSpans 3 5 8 5 = ([5, 6, 7, 0, 1], 2) ∧
    writeSpans 6 2 8 3 = ([2, 3, 4], 5) ∧ writeSpans 3 3 8 7 = ([3, 4, 5, 6, 7, 0, 1], 2) ∧ writeSpans 1 7 8 1 = ([7], 0) ∧
    writeSpans 0 0 2 1 = ([0], 1) := by
  decide

theorem test_readSpans : readSpans 3 2 8 7 = ([3, 4, 5, 6, 7, 0, 1], 2) ∧ readSpans 6 2 8 10 = ([6, 7, 0, 1], 2) ∧
    readSpans 6 2 8 2 = ([6, 7], 0) ∧ readSpans 6 2 8 3 = ([6, 7, 0], 1) ∧ readSpans 2 2 8 4 = ([], 2) ∧
    readSpans 2 5 8 65535 = ([2, 3, 4], 5) ∧ readSpans 1 0 2 5 = ([1], 0) := by
  decide

/-! ### Small states -/

/-- Companion memory holding these half-words. -/
def halves (l : List (Nat × Half)) : List Cell := l.foldl (fun m x => Memory.write m x.1 x.2) []

/-- The half-words of a 32-bit value at an address (R77). -/
def wordAt (a : Nat) (v : Word) : List (Nat × Half) := [(a, lowHalf v), (a + 2, highHalf v)]

/-- TC's descriptor `c` in companion memory (R36, R75): FLAGS, BASE, RD_OFF, WR_OFF. -/
def desc (c : Nat) (flags base rd wr : Word) : List (Nat × Half) :=
  wordAt (0x1000 + 16 * c) flags ++ wordAt (0x1004 + 16 * c) base ++ wordAt (0x1008 + 16 * c) rd ++ wordAt (0x100C + 16 * c) wr

/-- Reset, with these half-words in companion memory. -/
def start (l : List (Nat × Half)) : State := { State.reset with comp := { State.reset.comp with mem := halves l } }

/-- Client 0 holds the lock with this command at a position of its pseudocode, and these turns come. -/
def running (cmd : Word) (payload : List Word) (l : Label) (turns : List Turn) (s : State) : State :=
  { s.setPortState (.client 0) (.executing cmd payload) with
    sess := { s.sess with lock := some (.port (.client 0)) }
    seq := { owner := some (.port (.client 0)), cmd := cmd, step := l }
    turns := turns }

/-- Client 0's command has just been granted, and `n` turns come in which all goes well. -/
def granted (cmd : Word) (payload : List Word) (n : Nat) (s : State) : State :=
  running cmd payload .entry (List.replicate n Turn.reenabled) s

/-- Client 0's command waits for the lock. -/
def waitingFor (cmd : Word) (payload : List Word) (s : State) : State :=
  { s.setPortState (.client 0) (.executing cmd payload) with waiting := [.port (.client 0)] }

/-- Channel 0 as `q.init 0` leaves it (V-I1): S = 8, BASE 0x2000, with these offsets. -/
def ring (rd wr : Nat) : Chan := { Chan.zero with valid := true, inUse := true, size := 8, base := 0x2000, rd := rd, wr := wr }

/-- The state of V-Q1 and V-W3: channel 0 with cached offsets, its descriptor with RD_OFF and WR_OFF, slots 6, 7, 0, 1 filled. -/
def ringState (rd wr : Nat) (rdOff wrOff : Word) : State :=
  (start (desc 0 0x00080001 0x2000 rdOff wrOff ++ wordAt 0x2018 0x16 ++ wordAt 0x201C 0x17 ++ wordAt 0x2000 0x10 ++
    wordAt 0x2004 0x11)).setChan 0 (ring rd wr)

/-- What a field is after a next state. -/
def onNext {α : Type} (f : State → α) : Host.Outcome State Fault Refusal → Option α
  | .next t => some (f t)
  | _ => none

/-- The next state, or reset where there is none. -/
def after : Host.Outcome State Fault Refusal → State
  | .next t => t
  | _ => State.reset

/-- Client 0's response word and data. -/
def answer (t : State) : Word × List Word :=
  match (t.port (.client 0)).state with
  | .responded r d => (r, d)
  | _ => (0xFFFFFFFF, [])

/-- A turn whose transaction fails, with or without effect. -/
def failing (landed : Bool) : Turn := { before := [], draw := { Draw.good with fail := true, landed := landed } }

/-! ### The instructions, one step each -/

/-- V-I1: Q_INIT of a fresh descriptor. -/
theorem test_qInit_good :
    onNext (fun t => (answer t, t.chan 0)) (exec (.qInit 0) (granted 0x10000000 [] 10 (start (desc 0 0x00080001 0x2000 0 0)))) =
      some ((0, []), ring 0 0) := by
  decide

/-- V-Q1: Q_READ across the end of the ring; the read offset ends at 2 in the descriptor and at the companion. -/
theorem test_qRead_wraps :
    onNext (fun t => (answer t, (t.chan 0).rd, (t.chan 0).wr, t.word 0x1008, t.comp.irqFromHost))
      (exec (.qRead 0 10) (granted 0x2000000A [] 17 (ringState 6 0 6 2))) =
      some ((0x00000004, [0x16, 0x17, 0x10, 0x11]), 2, 2, 2, 1) := by
  decide

/-- V-Q11: an odd BASE faults at the first slot; the refreshed write offset stays. -/
theorem test_qRead_odd_base :
    onNext (fun t => (t.flt, (t.chan 0).wr, t.sess.lock))
      (exec (.qRead 0 1) (granted 0x20000001 [] 9 ((start (desc 0 0x00080001 0x2001 0 1)).setChan 0 { ring 0 0 with base := 0x2001 }))) =
      some ({ code := .misalignedBusAddress, port := .client 0, cmd := 0x20000001 }, 1, some (.port (.client 0))) := by
  decide

/-- V-W3: Q_WRITE of five words around the end of the ring. -/
theorem test_qWrite_wraps :
    onNext (fun t => (answer t, (t.chan 0).rd, (t.chan 0).wr, t.word 0x100C, t.word 0x201C, t.word 0x2004))
      (exec (.qWrite 0 [6, 7, 8, 9, 10]) (granted 0x30000005 [6, 7, 8, 9, 10] 19 (ringState 0 5 3 5))) =
      some ((0x00000005, []), 3, 2, 2, 8, 10) := by
  decide

/-- V-W14: the write-back of WR_OFF fails but takes effect: BUS_ERROR, the cached offset unmoved, the companion's moved. -/
theorem test_qWrite_diverges :
    onNext (fun t => (answer t, (t.chan 0).wr, t.word 0x100C))
      (exec (.qWrite 0 [10, 11]) { ringState 0 0 0 0 with
        clients := (running 0x30000002 [10, 11] .entry [] (ringState 0 0 0 0)).clients
        seq := (running 0x30000002 [10, 11] .entry [] (ringState 0 0 0 0)).seq
        turns := List.replicate 7 Turn.quiet ++ [failing true, Turn.quiet] }) =
      some ((0x10000000, []), 0, 2) := by
  decide

/-- V-O1: OPEN of two fresh descriptors. -/
theorem test_openPair_good :
    onNext (fun t => (answer t, t.chan 1, t.chan 2))
      (exec (.openPair 1 2 0xCAFE) (granted 0x41200000 [0xCAFE] 19
        (start (desc 1 0x00080001 0x2800 0 0 ++ desc 2 0x00080003 0x3000 0 0)))) =
      some ((0, []),
        { ring 0 0 with base := 0x2800, cbValid := true, cbCtx := 0xCAFE },
        { ring 0 0 with base := 0x3000, dir := .companionToHost, cbValid := true, cbCtx := 0xCAFE }) := by
  decide

/-- V-O3: the second descriptor is not fresh; the first channel keeps no callback. -/
theorem test_openPair_unavailable :
    onNext (fun t => (answer t, t.chan 1, t.chan 2))
      (exec (.openPair 1 2 0xCAFE) (granted 0x41200000 [0xCAFE] 19
        (start (desc 1 0x00080001 0x2800 0 0 ++ desc 2 0x00080003 0x3000 1 0)))) =
      some ((0x60000000, []), { ring 0 0 with base := 0x2800 }, Chan.zero) := by
  decide

/-- V-S1: SHUTDOWN. -/
theorem test_shutdown :
    onNext (fun t => (answer t, t.chan 0, t.sess.isOpen, t.armed)) (exec .shutdown (granted 0x50000000 [] 1 (ringState 2 2 2 2))) =
      some ((0, []), Chan.zero, false, false) := by
  decide

/-- V-G7: SHUTDOWN on a Closed session. -/
theorem test_shutdown_closed :
    onNext answer (exec .shutdown (granted 0x50000000 [] 1
      { State.reset with sess := { State.reset.sess with isOpen := false } })) = some (0x70000000, []) := by
  decide

/-- V-B1: reading REG_C2H_MBOX clears nothing. -/
theorem test_busRd16_mailbox :
    onNext (fun t => (t.busResult, t.comp.c2h))
      (exec (.busRd16 0x108) (granted 0 [] 0 { State.reset with comp := { State.reset.comp with c2h := 5 } })) =
      some (.value 5, 5) := by
  decide

/-- V-B7: an odd address. -/
theorem test_busRd16_odd :
    onNext (fun t => (t.flt.code, t.busResult)) (exec (.busRd16 0x101) (granted 0x10000000 [] 0 State.reset)) =
      some (.misalignedBusAddress, .idle) := by
  decide

/-- V-B2: writing REG_C2H_MBOX clears the bits written. -/
theorem test_busWr16_write_one_to_clear :
    onNext (fun t => t.comp.c2h)
      (exec (.busWr16 0x108 5) (granted 0 [] 0 { State.reset with comp := { State.reset.comp with c2h := 0x25 } })) = some 0x20 := by
  decide

/-- V-B5, V-B6: only IRQ_BIT of a status write asserts the interrupt. -/
theorem test_busWr16_status :
    onNext (fun t => t.comp.irqFromHost) (exec (.busWr16 0x100 2) (granted 0 [] 0 State.reset)) = some 1 ∧
    onNext (fun t => t.comp.irqFromHost) (exec (.busWr16 0x100 1) (granted 0 [] 0 State.reset)) = some 0 := by
  decide

/-- V-B11: a torn 32-bit read; the companion writes between the two halves. -/
theorem test_torn_read :
    onNext (fun t => t.seq.step)
      (exec (.qInit 1) (running 0x11000000 [] (.descLow false [])
        [Turn.quiet, { before := [.mem 0x1010 0, .mem 0x1012 1], draw := Draw.good }] (start (wordAt 0x1010 0xFFFF)))) =
      some (.descLow false [0x0001FFFF]) := by
  decide

/-- R12, R90: a burst is its atomic steps; here V-B11's two halves with the companion's writes between them, and the
response that never comes, since no turn is left for it. -/
theorem test_moments : let s := running 0x11000000 [] (.descLow false []) [] (start (wordAt 0x1010 0xFFFF))
    (s.momentsOf (.turns [Turn.quiet, { before := [.mem 0x1010 0, .mem 0x1012 1], draw := Draw.good }])).map
      (fun x => (x.event, x.transaction, x.after.word 0x1010)) =
      [(.turns [Turn.quiet], some (rd16 0x1010), 0xFFFF), (.companion (.mem 0x1010 0), none, 0),
        (.companion (.mem 0x1012 1), none, 0x10000), (.turns [Turn.quiet], some (rd16 0x1012), 0x10000)] := by
  decide

/-- R322, R359: while `q.init 0` reads a companion→host descriptor the producer's duty holds. It bars a store to FLAGS and to an
offset's high half, and lets WR_OFF move forward, which publishes data; setting it back to 0 on a channel out of service does not. -/
theorem test_duties_in_body :
    let s := running 0x10000000 [] (.descLow false []) [] (start (desc 0 0x00080003 0x2000 0 0))
    let u := start (desc 0 0x00080003 0x2000 0 2)
    let store (t : State) (a : Word) (v : Half) : Moment :=
      { before := t, event := .companion (.mem a v), after := t.companionStep (.mem a v) }
    (s.inService 0 ∧ (s.ring 0).dir = .companionToHost) ∧
      (¬ s.producerStep 0 (.mem 0x1000 7) ∧ ¬ s.producerStep 0 (.mem 0x100E 1) ∧ ¬ s.producerStep 0 (.mem 0x100C 9)) ∧
      (store s 0x100C 2).publishes 0 ∧ ¬ (store u 0x100C 0).publishes 0 := by
  refine ⟨⟨.inr ⟨by decide, .qInit 0, by decide, by decide⟩, by decide⟩, ⟨fun h => ?_, fun h => ?_, fun h => ?_⟩,
    ⟨⟨_, _, rfl⟩, .inr ⟨by decide, .qInit 0, by decide, by decide⟩, by decide, by decide, by decide, by decide⟩, fun h => ?_⟩
  · exact (h.2.1 0 (by decide)).1 (by decide)
  · exact absurd (h.2.2.1 (by decide)) (by decide)
  · exact absurd (h.2.2.2 (by decide)).1 (by decide)
  · rcases h.2.1 with e | ⟨_, i, e, _⟩
    · exact absurd e (by decide)
    · exact absurd e (by simp [State.currentInstr, start, State.reset, State.resetWith])

/-! ### Steps of the other agents -/

/-- The worker holds the lock in a phase of its pass, with V-K1's channel 2 open. -/
def workerAt (ph : Phase) (bitmap c2h : Half) : State :=
  { State.reset.setChan 2 { ring 0 0 with dir := .companionToHost, cbValid := true, cbClient := .client 1, cbCtx := 0x77 } with
    sess := { State.reset.sess with lock := some .worker }
    seq := { State.reset.seq with owner := some .worker }
    wk := { state := .dispatching, pending := false, phase := ph, bitmap := bitmap }
    comp := { State.reset.comp with c2h := c2h } }

/-- The state with this event next. -/
def offer (e : Event) (s : State) : State := { s with inputs := [e] }

/-- V-K1: a doorbell racing between the worker's read and clear is not cleared. -/
theorem test_worker_clear :
    onNext (fun t => (t.comp.c2h, t.wk.bitmap, t.sess.lock)) (step (offer (.worker Draw.good) (workerAt (.clearMbox 5) 0 0x25))) =
      some (0x20, 5, none) := by
  decide

/-- V-K1: bit 2 of the bitmap hands channel 2's receive event to port 1's handler. -/
theorem test_worker_delivers :
    onNext (fun t => (t.wk.phase, t.rx)) (step (offer (.worker Draw.good) (workerAt (.scan 1) 5 0))) =
      some (.await 2, some { client := .client 1, ch := 2, ctx := 0x77 }) := by
  decide

/-- V-F1 and V-F3: a frame header, and `frame.write 0, 0x01, 0x02, [0xAAAA_0001]`. -/
theorem test_frame_write : frameHeader 2 0x01 0x02 = 0x02010002 ∧
    onNext (fun t => (t.port (.client 0)).state) (step (offer (.frameWrite (.client 0) 0 0x01 0x02 [0xAAAA0001]) State.reset)) =
      some (.requested 0x30000002 [0x02010002, 0xAAAA0001]) := by
  decide

/-- The host's placement: the very next step runs the word (log 25): an untouched descriptor is invalid, a read answers. -/
theorem test_placed_word :
    onNext answer (step (State.reset.withFetchWord 32 0x12000000)) = some (0x20000000, []) ∧
    onNext (fun t => t.busResult) (step (State.reset.withFetchWord 56 (0x108 * 2))) = some (.value 0) ∧
    onNext (fun t => t.comp.h2c) (step (State.reset.withFetchWord 56 (5 * 2 ^ 33 + 0x104 * 2 + 1))) = some 5 := by
  decide

/-! ### Witnesses: for each statement with hypotheses, states and operands that meet all of them -/

theorem witness_DecodeEncodeRoundTrip : (Instr.qWrite 5 [1, 2]).encodable = true ∧ (Instr.openPair 15 15 0xCAFE).encodable = true := by
  decide

theorem witness_CommandWordHasOneMeaning : decode (.command 0x45500000 [7]) = .ok (.openPair 5 5 7) ∧
    decode (.command 0x2500FFFF []) = .ok (.qRead 5 65535) := by
  decide

/-- One word for each clause of the accept step, at the clause's boundary, and two that pass. -/
theorem witness_AcceptChecksInOrder :
    [((0x00000000 : Word), ([] : List Word)), (0x60000000, []), (0x20010001, []), (0x2010_0001, []), (0x10000001, []), (0x41200001, [0]),
      (0x51000000, []), (0x26000001, []), (0x41600000, [0]), (0x20000000, []), (0x2500FFFF, []), (0x30000001, [7])].all (fun x =>
        let s := State.reset.setPortState (.client 1) (.requested x.1 x.2)
        decide (s.halted = false) && decide ((s.port (.client 1)).state = .requested x.1 x.2) && payloadFits x.1 x.2) = true := by
  decide

theorem witness_OnlyFittingPayloadIsPresented : State.reset.hasPort .handler = true ∧
    (State.reset.port .handler).state = .empty ∧ (State.reset.port .handler).prog.active = false := by
  decide

theorem witness_GrantRunsTheDecodedCommand : let s := waitingFor 0x20000003 [] (ringState 6 2 6 2)
    s.sess.lock = none ∧ s.waiting.contains (.port (.client 0)) = true ∧ s.halted = false ∧
    (s.port (.client 0)).state = .executing 0x20000003 [] ∧ decode (.command 0x20000003 []) = .ok (.qRead 0 3) := by
  decide

theorem witness_TurnsRunTheDecodedCommand : let s := running 0x20000003 [] .offLow [] (ringState 6 2 6 2)
    s.seq.owner = some (.port (.client 0)) ∧ s.halted = false ∧ (s.port (.client 0)).state = .executing 0x20000003 [] ∧
    decode (.command 0x20000003 []) = .ok (.qRead 0 3) := by
  decide

/-- Both phases. -/
theorem witness_WorkerRunsBusInstructions : ∀ ph ∈ [Phase.readMbox, .clearMbox 5],
    (workerAt ph 0 5).halted = false ∧ (workerAt ph 0 5).wk.state = .dispatching ∧ (workerAt ph 0 5).seq.owner = some .worker ∧
    (workerAt ph 0 5).wk.phase = ph := by
  decide

/-- Each register and plain memory, for a read and a write. -/
theorem witness_BusReadResult_BusWriteResult : let s := granted 0 [] 0 (ringState 6 2 6 2)
    s.seq.owner = some (.port (.client 0)) ∧ s.halted = false ∧ s.MemInv ∧ s.cfg.regStatus = 0x100 ∧ s.cfg.regH2C = 0x104 ∧
    s.cfg.regC2H = 0x108 ∧ oddAddress 0x100 = false ∧ oddAddress 0x104 = false ∧ oddAddress 0x108 = false ∧
    oddAddress 0x2018 = false ∧ oddAddress 0xFFFFFFFE = false :=
  ⟨rfl, rfl, rfl, rfl, rfl, rfl, rfl, rfl, rfl, rfl, rfl⟩

/-- A command and the worker as the lock holder. -/
theorem witness_OddAddressFaults : (granted 0x10000000 [] 0 State.reset).seq.owner = some (.port (.client 0)) ∧
    (granted 0x10000000 [] 0 State.reset).halted = false ∧ (workerAt .readMbox 0 5).seq.owner = some .worker ∧
    (workerAt .readMbox 0 5).halted = false ∧ oddAddress 0x101 = true ∧ oddAddress 0xFFFFFFFF = true :=
  ⟨rfl, rfl, rfl, rfl, rfl, rfl⟩

theorem witness_BusReadFrame : ∃ t, exec (.busRd16 0x2018) (granted 0 [] 0 (ringState 6 2 6 2)) = .next t := ⟨_, rfl⟩

/-- A register, memory. -/
theorem witness_BusWriteFrame : (∃ t, exec (.busWr16 0x104 5) (granted 0 [] 0 (ringState 6 2 6 2)) = .next t) ∧
    ∃ t, exec (.busWr16 0x2018 5) (granted 0 [] 0 (ringState 6 2 6 2)) = .next t :=
  ⟨⟨_, rfl⟩, ⟨_, rfl⟩⟩

/-- Offsets, spans and requests at their bounds. -/
theorem witness_ring_laws : 0 < 1 ∧ 7 < 8 ∧ 65534 < 65535 ∧ 7 ≤ free 0 0 8 ∧ 5 ≤ free 3 5 8 ∧ 0 ≤ free 1 0 8 := by decide +kernel

/-- What InitResult and OpenResult ask of a state. -/
theorem ready_start (cmd : Word) (payload : List Word) (n : Nat) (l : List (Nat × Half)) :
    (granted cmd payload n (start l)).AtEntry (.client 0) ∧ (granted cmd payload n (start l)).Serving ∧
      (granted cmd payload n (start l)).Ready :=
  ⟨⟨rfl, rfl, rfl, rfl⟩, ⟨rfl, rfl⟩, ⟨show Config.tc.wf = true by decide, rfl, rfl⟩⟩

/-- What the queue statements ask of a state. -/
theorem ready_ring (cmd : Word) (payload : List Word) (n rd wr : Nat) (rdOff wrOff : Word) :
    let s := granted cmd payload n (ringState rd wr rdOff wrOff)
    s.AtEntry (.client 0) ∧ s.Serving ∧ s.Ready :=
  ⟨⟨rfl, rfl, rfl, rfl⟩, ⟨rfl, rfl⟩, ⟨show Config.tc.wf = true by decide, rfl, rfl⟩⟩

/-- The four fields of channel `c`'s descriptor in companion memory. -/
def fieldsOf (s : State) (c : BitVec 4) : List Word := (List.range 4).map fun k => s.word (descField s.cfg c k)

/-- The state of V-I1..V-I6 for channel 5: its descriptor, its command just granted. -/
def initState (flags base rd wr : Word) : State := granted 0x15000000 [] 10 (start (desc 5 flags base rd wr))

/-- The good descriptor, and each of its failures (V-I1..V-I6). -/
theorem witness_InitResult :
    (∀ f b r w, (initState f b r w).AtEntry (.client 0) ∧ (initState f b r w).Serving ∧ (initState f b r w).Ready ∧
      (5 : BitVec 4).toNat < (initState f b r w).cfg.nCh ∧ (initState f b r w).smooth = true ∧
      10 ≤ (initState f b r w).turns.length) ∧
    fieldsOf (initState 0x00080001 0x2000 0 0) 5 = [0x00080001, 0x2000, 0, 0] ∧
    fieldsOf (initState 0 0x2000 0 0) 5 = [0, 0x2000, 0, 0] ∧
    fieldsOf (initState 0x00080001 0 0 0) 5 = [0x00080001, 0, 0, 0] ∧
    fieldsOf (initState 0x00080001 0x2000 1 0) 5 = [0x00080001, 0x2000, 1, 0] ∧
    fieldsOf (initState 0x00080001 0x2000 0 0x10000) 5 = [0x00080001, 0x2000, 0, 0x10000] ∧
    fieldsOf (initState 1 0x2000 0 0) 5 = [1, 0x2000, 0, 0] :=
  ⟨fun f b r w => ⟨(ready_start _ _ _ _).1, (ready_start _ _ _ _).2.1, (ready_start _ _ _ _).2.2, (by decide : 5 < 6), rfl,
    Nat.le_refl 10⟩, by decide, by decide, by decide, by decide, by decide, by decide⟩

/-- V-Q1 (all queued words), V-Q2 (one), V-Q5 (an empty ring), V-Q6 (WR_OFF = S). -/
theorem witness_ReadResult : ∀ x ∈ [(10, 6, (2 : Word), 2, 4), (1, 6, 2, 2, 1), (4, 2, 2, 2, 0), (9, 6, 8, 0, 2)],
    let s := granted 0x2000000A [] 17 (ringState x.2.1 0 0 x.2.2.1)
    s.AtEntry (.client 0) ∧ s.Serving ∧ s.Ready ∧ s.MemInv ∧ (s.chan 0).bounded ∧
    (0 : BitVec 4).toNat < s.cfg.nCh ∧ BitVec.ofNat 16 x.1 ≠ 0 ∧ (s.chan 0).valid = true ∧ ringPlaced s.cfg (s.chan 0) = true ∧
    norm (s.word (wrOffAddr s.cfg 0)).toNat (s.chan 0).size = some x.2.2.2.1 ∧
    min x.1 (used (s.chan 0).rd x.2.2.2.1 (s.chan 0).size) = x.2.2.2.2 ∧ s.smooth = true ∧ 9 + 2 * x.2.2.2.2 ≤ s.turns.length := by
  intro x hx
  refine ⟨(ready_ring _ _ _ _ _ _ _).1, (ready_ring _ _ _ _ _ _ _).2.1, (ready_ring _ _ _ _ _ _ _).2.2, ?_⟩
  revert x; simp only [State.MemInv, Chan.bounded]; decide

/-- V-W3 (exactly the free words), V-W6 (a full ring from empty), V-W8 (RD_OFF = S). -/
theorem witness_WriteResult : ∀ x ∈ [(5, 5, (3 : Word), 3), (0, 7, 0, 0), (0, 1, 8, 0)],
    let words : List Word := List.replicate x.2.1 9
    let s := granted 0x30000005 words 23 (ringState 0 x.1 x.2.2.1 0)
    s.AtEntry (.client 0) ∧ s.Serving ∧ s.Ready ∧ s.MemInv ∧ (s.chan 0).bounded ∧
    (0 : BitVec 4).toNat < s.cfg.nCh ∧ words ≠ [] ∧ words.length < 65536 ∧ (s.chan 0).valid = true ∧
    ringPlaced s.cfg (s.chan 0) = true ∧ norm (s.word (rdOffAddr s.cfg 0)).toNat (s.chan 0).size = some x.2.2.2 ∧
    words.length ≤ free x.2.2.2 (s.chan 0).wr (s.chan 0).size ∧ s.smooth = true ∧ 9 + 2 * words.length ≤ s.turns.length := by
  intro x hx
  refine ⟨(ready_ring _ _ _ _ _ _ _).1, (ready_ring _ _ _ _ _ _ _).2.1, (ready_ring _ _ _ _ _ _ _).2.2, ?_⟩
  revert x; simp only [State.MemInv, Chan.bounded]; decide

/-- V-W4: one word more than free. -/
theorem witness_WriteWouldBlock : let s := granted 0x30000006 [6, 7, 8, 9, 10, 11] 4 (ringState 0 5 3 5)
    s.AtEntry (.client 0) ∧ s.Serving ∧ s.Ready ∧ (0 : BitVec 4).toNat < s.cfg.nCh ∧ (s.chan 0).valid = true ∧
    norm (s.word (rdOffAddr s.cfg 0)).toNat (s.chan 0).size = some 3 ∧
    free 3 (s.chan 0).wr (s.chan 0).size < ([6, 7, 8, 9, 10, 11] : List Word).length ∧ s.smooth = true ∧ 4 ≤ s.turns.length :=
  ⟨(ready_ring _ _ _ _ _ _ _).1, (ready_ring _ _ _ _ _ _ _).2.1, (ready_ring _ _ _ _ _ _ _).2.2, by decide⟩

/-- V-Q7 and V-W9: offsets one above S. -/
theorem witness_OffsetAboveSizeIsProtocolError : let s := granted 0x20000009 [] 4 (ringState 6 0 9 9)
    s.AtEntry (.client 0) ∧ s.Serving ∧ s.Ready ∧ (0 : BitVec 4).toNat < s.cfg.nCh ∧ (9 : BitVec 16) ≠ 0 ∧
    (s.chan 0).valid = true ∧ s.smooth = true ∧ 4 ≤ s.turns.length ∧
    (s.chan 0).size < (s.word (wrOffAddr s.cfg 0)).toNat ∧ (s.chan 0).size < (s.word (rdOffAddr s.cfg 0)).toNat :=
  ⟨(ready_ring _ _ _ _ _ _ _).1, (ready_ring _ _ _ _ _ _ _).2.1, (ready_ring _ _ _ _ _ _ _).2.2, by decide⟩

/-- The state of V-O1..V-O3: FLAGS of descriptor 1 and RD_OFF of descriptor 2 as given. -/
def openState (flags rd : Word) : State :=
  granted 0x41200000 [0xCAFE] 19 (start (desc 1 flags 0x2800 0 0 ++ desc 2 0x00080003 0x3000 rd 0))

/-- V-O1 (both good), V-O2 (tx bad), V-O3 (rx bad); with tx = rx = 2 the first and the third serve V-O6. -/
theorem witness_OpenResult :
    (∀ f r, (openState f r).AtEntry (.client 0) ∧ (openState f r).Serving ∧ (openState f r).Ready ∧
      (1 : BitVec 4).toNat < (openState f r).cfg.nCh ∧ (2 : BitVec 4).toNat < (openState f r).cfg.nCh ∧
      (openState f r).smooth = true ∧ 19 ≤ (openState f r).turns.length) ∧
    fieldsOf (openState 0x00080001 0) 1 = [0x00080001, 0x2800, 0, 0] ∧
    fieldsOf (openState 0x00080001 0) 2 = [0x00080003, 0x3000, 0, 0] ∧
    fieldsOf (openState 0 0) 1 = [0, 0x2800, 0, 0] ∧ fieldsOf (openState 0x00080001 1) 1 = [0x00080001, 0x2800, 0, 0] ∧
    fieldsOf (openState 0x00080001 1) 2 = [0x00080003, 0x3000, 1, 0] :=
  ⟨fun f r => ⟨(ready_start _ _ _ _).1, (ready_start _ _ _ _).2.1, (ready_start _ _ _ _).2.2, (by decide : 1 < 6),
    (by decide : 2 < 6), rfl, Nat.le_refl 19⟩, by decide, by decide, by decide, by decide, by decide⟩

/-- An Open session, wedged and not. -/
theorem witness_ShutdownResult : ∀ w ∈ [true, false],
    let s := granted 0x50000000 [] 1 { ringState 6 2 6 2 with sess := { State.reset.sess with wedged := w } }
    s.AtEntry (.client 0) ∧ s.sess.isOpen = true ∧ s.companionSilent = true ∧ 1 ≤ s.turns.length := by
  intro w _; exact ⟨⟨rfl, rfl, rfl, rfl⟩, rfl, rfl, Nat.le_refl 1⟩

/-- V-G4 with R205's "any non-OK outcome": a wedged session turns Q_INIT of a valid channel away and takes its `valid` and callback; a
Q_READ's channel stays, and so do an OPEN's (R200, R226). -/
theorem test_wedged_init :
    (let s := granted 0x10000000 [] 1 ((ringState 0 2 0 2).register 0 0xCAFE).wedge
     onNext (fun t => (answer t, (t.chan 0).valid, (t.chan 0).cbValid)) (exec (.qInit 0) s) =
       some ((0x40000000, []), false, false)) ∧
    (let s := granted 0x20000001 [] 1 (ringState 0 2 0 2).wedge
     onNext (fun t => (answer t, t.chan 0)) (exec (.qRead 0 1) s) = some ((0x40000000, []), ring 0 2)) ∧
    (let s := granted 0x40100000 [5] 1 (ringState 0 2 0 2).wedge
     onNext (fun t => (answer t, t.chan 0)) (exec (.openPair 0 1 5) s) = some ((0x40000000, []), ring 0 2)) := by decide

/-- V-G6, V-G7 (Closed), V-G3, V-G4 (wedged). -/
theorem witness_ClosedOrWedgedAnswers : ∀ o w, ∀ i ∈ [Instr.qRead 3 1, .qInit 0, .qWrite 5 [7], .openPair 5 5 0, .shutdown],
    let s := granted 0x23000001 [] 1 { State.reset with sess := { State.reset.sess with isOpen := o, wedged := w } }
    s.AtEntry (.client 0) ∧ operandFault s.cfg i = none ∧ s.companionSilent = true ∧ 1 ≤ s.turns.length ∧
    s.sess.isOpen = o ∧ s.sess.wedged = w := by
  intro o w i hi
  refine ⟨⟨rfl, rfl, rfl, rfl⟩, ?_, rfl, Nat.le_refl 1, rfl, rfl⟩
  revert i; exact (show ∀ i ∈ _, operandFault Config.tc i = none by decide)

/-- V-G1, V-G2. -/
theorem witness_UnopenedChannelFaults : let s := granted 0x23000001 [] 1 State.reset
    checkedChannel (.qRead 3 1) = some 3 ∧ checkedChannel (.qWrite 3 [7]) = some 3 ∧ operandFault s.cfg (.qRead 3 1) = none ∧
    operandFault s.cfg (.qWrite 3 [7]) = none ∧ s.AtEntry (.client 0) ∧ s.Serving ∧ (s.chan 3).valid = false :=
  ⟨rfl, rfl, by decide, by decide, ⟨rfl, rfl, rfl, rfl⟩, ⟨rfl, rfl⟩, rfl⟩

/-- V-Q8 and V-W13 (before the commit), V-Q9 and V-W15 (in the doorbell). -/
theorem witness_BusErrorKeepsOffsets : ∀ x ∈ [(Label.getLow [7, 0] [0x16] 1, rd16 0x201C), (.bellSet 3 [1, 2, 3], wr16 0x104 1)],
    ∀ y ∈ [(Label.putLow [(1, 0xB)] 2, wr16 0x2004 0xB), (.bellIrq 2 [], wr16 0x100 2)],
    let s := running 0x20000003 [] x.1 [failing false] (ringState 6 2 6 2)
    let u := running 0x30000002 [0xA, 0xB] y.1 [failing true] (ringState 0 0 0 0)
    s.seq.owner = some (.port (.client 0)) ∧ s.halted = false ∧ oddAddress x.2.addr = false ∧
    readRecord s.cfg 0 (s.chan 0).base s.seq.step = some x.2 ∧
    u.seq.owner = some (.port (.client 0)) ∧ u.halted = false ∧ oddAddress y.2.addr = false ∧
    writeRecord u.cfg 0 (u.chan 0).base u.seq.step = some y.2 := by
  decide

/-- The response step of V-Q8's BUS_ERROR and of V-B24's TIMEOUT, whose words moved stay. -/
theorem witness_BusErrorKeepsOffsets_response : ∀ x ∈ [(Status.busError, 0, ([] : List Word)), (.timeout, 3, [1, 2, 3])],
    let s := running 0x20000003 [] (.respond x.1 x.2.1 x.2.2) [Turn.quiet] (ringState 6 2 6 2)
    s.seq.owner = some (.port (.client 0)) ∧ s.hasPort (.client 0) = true ∧ s.halted = false ∧
      s.seq.step = .respond x.1 x.2.1 x.2.2 ∧ s.turns = [{ before := [], draw := Draw.good }] := by
  decide

/-- V-I11 (Q_INIT's `rd16 0x1004`) and V-O4 (OPEN's `rd16 0x1022`), each in its body. -/
theorem witness_BusErrorKeepsOffsets_bodies :
    (let s := running 0x10000000 [] (.descLow false [0x00080001]) [failing false] State.reset
     s.portInstr (.client 0) = some (.qInit 0) ∧ bodyRecord s.cfg 0 s.seq.step = some (rd16 0x1004) ∧ s.BodyInv) ∧
    (let s := running 0x41200000 [0xCAFE] (.descHigh true [] 3) [failing false] (State.reset.setChan 1 { ring 0 0 with base := 0x2800 })
     s.portInstr (.client 0) = some (.openPair 1 2 0xCAFE) ∧ bodyRecord s.cfg 2 s.seq.step = some (rd16 0x1022) ∧
     (2 : BitVec 4) = (if inSecondBody s.seq.step then 2 else 1) ∧ s.BodyInv) := by
  refine ⟨⟨by decide, by decide, ?_⟩, ⟨by decide, by decide, by decide, ?_⟩⟩ <;> intro i c hi hc
  · obtain rfl := Option.some.inj ((by decide : State.currentInstr _ = some (.qInit 0)).symm.trans hi)
    obtain rfl := Option.some.inj hc
    rfl
  · obtain rfl := Option.some.inj ((by decide : State.currentInstr _ = some (.openPair 1 2 0xCAFE)).symm.trans hi)
    obtain rfl := Option.some.inj hc
    rfl

/-- V-B14 (idle), V-B15 (busy, no bound), V-B16 (busy at the bound): the companion busy or not, at polls 0 and 1 of 2. -/
theorem witness_IdleWaitPoll : ∀ b m : Bool, ∀ polls ∈ [0, 1],
    let s := running 0x20000003 [] (.poll false polls) [Turn.quiet]
      { ringState 6 2 6 2 with comp := { (ringState 6 2 6 2).comp with busy := b }, cfg := { Config.tc with idleMaxPolls := if m then some 2 else none } }
    s.cfg.wf = true ∧ s.seq.owner = some (.port (.client 0)) ∧ s.halted = false ∧ s.seq.step = .poll false polls ∧
    s.turns = [{ before := [], draw := { fail := false, landed := false, noise := 0, timeout := false } }] := by
  decide

/-- V-B24, V-B25: with REENABLE_TIMEOUT and a timeout drawn, and without. -/
theorem witness_ReenableWaitHolds : ∀ b late,
    let s := running 0x20000003 [] (.hold 3 [1, 2, 3]) [{ before := [], draw := { Draw.good with timeout := late } }]
      { ringState 6 2 6 2 with cfg := { Config.tc with reenableTimeout := b } }
    checkedChannel (.qRead 0 3) = some 0 ∧ s.seq.owner = some (.port (.client 0)) ∧ s.halted = false ∧
    s.seq.step = .hold 3 [1, 2, 3] := by
  decide

/-- A hold, before whose turn the companion sets a doorbell, and whose next step is the companion's interrupt. -/
def held : State :=
  offer (.companion .irq)
    (running 0x20000003 [] (.hold 3 [1, 2, 3]) [{ before := [.setC2H 1, .irq], draw := Draw.good }] (ringState 6 2 6 2))

theorem witness_ReenableWaitHolds_others :
    CompAct.reenable ∉ [CompAct.setC2H 1, .irq] ∧ held.turns = [{ before := [.setC2H 1, .irq], draw := Draw.good }] ∧
      held.LockInv ∧ step held = .next (after (step held)) ∧ held.seq.step = .hold 3 [1, 2, 3] ∧
      held.event ≠ .companion .reenable ∧ (∀ ts, held.event ≠ .turns ts) ∧ ∀ b, held.event ≠ .reset b := by
  refine ⟨by decide, rfl, ⟨rfl, ?_, by decide, ?_, by decide, by decide, by decide, ?_⟩, rfl, rfl, ?_, ?_, ?_⟩
  · simp [held, offer, running]
  · intro q _ h; cases h
  · simp [held, offer, running, ringState, start, State.setPortState, State.setPort, State.setChan, State.reset, State.resetWith]
  all_goals (intros; simp [State.event, State.nextEvent, held, offer])

/-- V-B20: each of the doorbell's writes. -/
theorem witness_DoorbellSequence : ∀ l ∈ [Label.bellSet 3 [1, 2, 3], .bellClear 3 [1, 2, 3], .bellIrq 3 [1, 2, 3]],
    let s := running 0x20000003 [] l [Turn.quiet] (ringState 6 2 6 2)
    checkedChannel (.qRead 0 3) = some 0 ∧ s.cfg.wf = true ∧ s.seq.owner = some (.port (.client 0)) ∧ s.halted = false ∧
    s.turns = [Turn.quiet] ∧ s.seq.step = l := by
  decide

/-- Two words across the end of an empty ring at slot 7, read back by the other client. -/
theorem witness_WrittenWordsAreReadBack :
    let s := granted 0x30000002 [10, 11] 13 (ringState 7 7 7 7)
    let t := after (exec (.qWrite 0 [10, 11]) s)
    let u := { t.setPortState (.client 1) (.executing 0x20000005 []) with
      sess := { t.sess with lock := some (.port (.client 1)) }
      seq := { owner := some (.port (.client 1)), cmd := 0x20000005, step := .entry }
      turns := List.replicate 13 Turn.reenabled }
    (s.AtEntry (.client 0) ∧ s.Serving ∧ s.Ready ∧ u.AtEntry (.client 1) ∧ s.MemInv ∧ (s.chan 0).bounded) ∧
    exec (.qWrite 0 [10, 11]) s = .next t ∧ exec (.qRead 0 5) u = .next (after (exec (.qRead 0 5) u)) ∧
    (s.chan 0).valid = true ∧ ringPlaced s.cfg (s.chan 0) = true ∧ (s.word (rdOffAddr s.cfg 0)).toNat = (s.chan 0).wr ∧
    2 < (s.chan 0).size ∧ s.smooth = true ∧ 13 ≤ s.turns.length ∧ u.cfg = t.cfg ∧ u.sess.isOpen = t.sess.isOpen ∧
    u.sess.wedged = t.sess.wedged ∧ u.ch = t.ch ∧ u.comp = t.comp ∧ u.smooth = true ∧ 13 ≤ u.turns.length := by
  refine ⟨⟨(ready_ring _ _ _ _ _ _ _).1, (ready_ring _ _ _ _ _ _ _).2.1, (ready_ring _ _ _ _ _ _ _).2.2,
    ⟨rfl, rfl, by decide, by decide⟩, ?_, ?_⟩, rfl, rfl, by decide, by decide, by decide, by decide, by decide, by decide, by decide,
    by decide, by decide, by decide, by decide, by decide, by decide⟩
  · simp only [State.MemInv]; decide
  · simp only [Chan.bounded]; decide

/-- From entry, and from the middle of OPEN's second body. -/
theorem witness_InitAndOpenFrame :
    (let s := granted 0x10000000 [] 10 (start (desc 0 0x00080001 0x2000 0 0))
     s.companionSilent = true ∧ exec (.qInit 0) s = .next (after (exec (.qInit 0) s))) ∧
    (let s := running 0x41200000 [0xCAFE] (.descLow true []) [Turn.quiet, Turn.quiet] State.reset
     s.companionSilent = true ∧ exec (.openPair 1 2 0xCAFE) s = .next (after (exec (.openPair 1 2 0xCAFE) s))) :=
  ⟨⟨by decide, rfl⟩, ⟨by decide, rfl⟩⟩

/-- A whole Q_READ, and one that fails at RD_OFF's write with effect. -/
theorem witness_ReadFrame :
    (let s := granted 0x2000000A [] 17 (ringState 6 0 6 2)
     s.companionSilent = true ∧ s.cfg.wf = true ∧ (0 : BitVec 4).toNat < s.cfg.nCh ∧ exec (.qRead 0 10) s = .next (after (exec (.qRead 0 10) s))) ∧
    (let s := running 0x2000000A [] (.backLow 2 1 [7]) [failing true] (ringState 6 0 6 2)
     s.companionSilent = true ∧ exec (.qRead 0 10) s = .next (after (exec (.qRead 0 10) s))) :=
  ⟨⟨by decide, by decide, by decide, rfl⟩, ⟨by decide, rfl⟩⟩

/-- A whole Q_WRITE: its stores are the two halves of slots 7 and 0 and of WR_OFF, none of them REG_C2H_MBOX. -/
theorem witness_WriteFrame : let s := granted 0x30000002 [10, 11] 13 (ringState 7 7 7 7)
    s.companionSilent = true ∧ s.cfg.wf = true ∧ (0 : BitVec 4).toNat < s.cfg.nCh ∧
    exec (.qWrite 0 [10, 11]) s = .next (after (exec (.qWrite 0 [10, 11]) s)) ∧
    s.writeStores 0 [10, 11] = [0x201C, 0x201E, 0x2000, 0x2002, 0x100C, 0x100E] ∧ s.cfg.regC2H ∉ s.writeStores 0 [10, 11] :=
  ⟨by decide, by decide, by decide, rfl, by decide, by decide⟩

theorem witness_ShutdownFrame : let s := granted 0x50000000 [] 1 (ringState 2 2 2 2)
    s.companionSilent = true ∧ exec .shutdown s = .next (after (exec .shutdown s)) :=
  ⟨by decide, rfl⟩

/-- A halted block (V-X2), with a client step, a reset and a timer fire next. -/
theorem witness_HaltedBlockStands_OnlyResetClearsTheFault :
    let s := offer .timerFire (State.reset.raiseOn .zeroCount (.client 0) 0x20000000)
    s.halted = true ∧ step s = .next (after (step s)) ∧ ∀ b, s.event ≠ .reset b :=
  ⟨by decide, rfl, by intro b h; exact absurd h (by simp [State.event, State.nextEvent, offer])⟩

/-- A wedged session through SHUTDOWN, which does not unwedge it. -/
theorem witness_OnlyResetUnwedges :
    let s := offer (.grant (.port (.client 0)) [Turn.quiet]) (waitingFor 0x50000000 [] State.reset.wedge)
    s.sess.wedged = true ∧ step s = .next (after (step s)) ∧ ∀ b, s.event ≠ .reset b :=
  ⟨by decide, rfl, by intro b h; exact absurd h (by simp [State.event, State.nextEvent, offer])⟩

/-- A Closed session and a timer fire (V-S4); an Open one and SHUTDOWN. -/
theorem witness_ClosedUntilReset :
    (let s := offer .timerFire { State.reset with sess := { State.reset.sess with isOpen := false }, armed := false }
     s.ClosedInv ∧ step s = .next (after (step s)) ∧ s.sess.isOpen = false ∧ ∀ b, s.event ≠ .reset b) ∧
    (let s := offer (.grant (.port (.client 0)) [Turn.quiet]) (waitingFor 0x50000000 [] State.reset)
     s.ClosedInv ∧ step s = .next (after (step s)) ∧ (after (step s)).sess.isOpen = false) :=
  ⟨⟨fun _ => ⟨rfl, rfl⟩, rfl, rfl, by intro b h; exact absurd h (by simp [State.event, State.nextEvent, offer])⟩,
    ⟨fun h => absurd h (by decide), rfl, by decide⟩⟩

/-- The pass start, and the worker's grant on a Closed, a wedged and a serving session. -/
theorem witness_PassStartAndGrant :
    (let s := { State.reset with wk := { State.reset.wk with pending := true } }
     s.halted = false ∧ s.wk.state = .idle ∧ s.wk.pending = true ∧ Requester.worker ∉ s.waiting) ∧
    ∀ o w, let s := { State.reset with
                waiting := [.worker], wk := { State.reset.wk with state := .dispatching, phase := .lock }
                sess := { State.reset.sess with isOpen := o, wedged := w } }
      s.halted = false ∧ s.sess.lock = none ∧ Requester.worker ∈ s.waiting ∧ s.sess.isOpen = o ∧ s.sess.wedged = w := by
  decide

/-- V-K1, V-K2 (an empty mailbox), V-K7: any value read, any bitmap cleared. -/
theorem witness_WorkerMailboxSteps (m c2h : Half) :
    ((workerAt .readMbox 0 c2h).cfg.wf = true ∧ (workerAt .readMbox 0 c2h).halted = false ∧
      (workerAt .readMbox 0 c2h).wk.state = .dispatching ∧ (workerAt .readMbox 0 c2h).seq.owner = some .worker ∧
      (workerAt .readMbox 0 c2h).wk.phase = .readMbox) ∧
    ((workerAt (.clearMbox m) 0 c2h).cfg.wf = true ∧ (workerAt (.clearMbox m) 0 c2h).halted = false ∧
      (workerAt (.clearMbox m) 0 c2h).wk.state = .dispatching ∧ (workerAt (.clearMbox m) 0 c2h).seq.owner = some .worker ∧
      (workerAt (.clearMbox m) 0 c2h).wk.phase = .clearMbox m) :=
  ⟨⟨show Config.tc.wf = true by decide, rfl, rfl, rfl, rfl⟩, ⟨show Config.tc.wf = true by decide, rfl, rfl, rfl, rfl⟩⟩

/-- V-K1 (bit 2 after bit 1), V-K7 (bit 15). -/
theorem witness_ScanStep : ∀ x ∈ [(1, 2, (5 : Half)), (3, 15, 0x8005), (0, 0, 1)],
    let s := workerAt (.scan x.1) x.2.2 0
    s.halted = false ∧ s.wk.state = .dispatching ∧ s.wk.phase = .scan x.1 ∧ x.2.1 < 16 ∧ x.1 ≤ x.2.1 ∧
    s.wk.bitmap.getLsbD x.2.1 = true ∧ ∀ i < 16, x.1 ≤ i → i < x.2.1 → s.wk.bitmap.getLsbD i = false := by
  decide

/-- Behind the last bit, and at 16. -/
theorem witness_PassEndStep : ∀ k ∈ [3, 16], let s := workerAt (.scan k) 5 0
    s.halted = false ∧ s.wk.state = .dispatching ∧ s.wk.phase = .scan k ∧ ∀ i < 16, k ≤ i → s.wk.bitmap.getLsbD i = false := by
  decide

/-- V-K6: a return from channel 0 with channel 2 left, and one from channel 2 with none. -/
theorem witness_CallbackReturn :
    (let s := workerAt (.await 0) 5 0
     s.halted = false ∧ s.wk.phase = .await 0 ∧ s.wk.bitmap.getLsbD 2 = true ∧ s.wk.state = .dispatching ∧
       s.handlerPort.prog.active = false) ∧
    let s := workerAt (.await 2) 5 0
    s.halted = false ∧ s.wk.phase = .await 2 ∧ s.handlerPort.prog.active = false ∧ ∀ i < 16, 2 < i → s.wk.bitmap.getLsbD i = false := by
  decide

/-- Channel 2's callback runs, and the handler in it is in a FRAME_READ of channel 2, with this event next. -/
def inFrameRead (e : Event) : State :=
  { State.reset with
    wk := { state := .dispatching, pending := false, phase := .await 2, bitmap := 5 }
    handlerPort := { state := .empty, prog := .reading 2 [] false }
    inputs := [e] }

/-- The handler goes on with its FRAME_READ. -/
theorem witness_CallbackReturn_held : let s := inFrameRead (.progress .handler)
    s.LockInv ∧ s.wk.phase = .await 2 ∧ s.handlerPort.prog = .reading 2 [] false ∧ step s = .next (after (step s)) ∧
    ∀ b, s.event ≠ .reset b := by
  refine ⟨⟨rfl, ⟨fun _ p h => (nomatch h), fun _ => rfl⟩, ?_, fun q hq => (nomatch hq), ?_, ?_, ?_, ⟨fun h => (nomatch h), ?_⟩⟩,
    rfl, rfl, rfl, ?_⟩
  · decide
  · decide
  · decide
  · decide
  · rintro (h | ⟨m, h⟩) <;> cases h
  · intro b h; simp [State.event, State.nextEvent, inFrameRead] at h

/-- R256: the return waits for the FRAME_READ; V-F6's first Q_READ is what the handler does next. -/
theorem test_return_waits :
    onNext (fun t => t.wk.phase) (step (inFrameRead (.handlerReturn true))) = some (.await 2) ∧
    onNext (fun t => (t.port .handler).state) (step (inFrameRead (.progress .handler))) = some (.requested 0x22000001 []) := by
  decide

/-- A response on port H. -/
theorem witness_TakingTheResponse :
    ((State.reset.setPortState .handler (.responded 0x10000003 [1, 2, 3])).port .handler).state = .responded 0x10000003 [1, 2, 3] := by
  decide

/-- A step that is no grant, turn or reset: the worker clearing the mailbox with the lock in its hands. -/
theorem witness_OnlyCommandsWriteDescriptors_MemoryStaysCanonical_LogOnlyGrows :
    let s := offer (.worker Draw.good) (workerAt (.clearMbox 5) 0 0x25)
    step s = .next (after (step s)) ∧ s.MemInv ∧ (∀ p ts, s.event ≠ .grant (.port p) ts) ∧ (∀ ts, s.event ≠ .turns ts) ∧
    ∀ b, s.event ≠ .reset b := by
  refine ⟨rfl, by simp only [State.MemInv]; decide, ?_, ?_, ?_⟩ <;> intros <;> simp [State.event, State.nextEvent, offer]

/-- A Q_READ between its state checks and its commit, the second slot half read, client 1 waiting. -/
def midRead : State :=
  { running 0x20000003 [] (.getLow [7, 0] [0x16] 1) [] (ringState 6 2 6 2) with
    waiting := [.port (.client 1)]
    clients := [{ state := .executing 0x20000003 [], prog := .idle }, { state := .executing 0x50000000 [], prog := .idle }]
    inputs := [.turns [Turn.quiet]] }

theorem midRead_chan (i : Nat) : midRead.chan i = if i = 0 then ring 6 2 else Chan.zero := by
  rcases i with _ | i
  · rfl
  · rcases i with _ | _ | _ | _ | _ | _ <;> rfl

theorem midRead_port (p : PortId) : (midRead.port p).state =
    if p = .client 0 then .executing 0x20000003 [] else if p = .client 1 then .executing 0x50000000 [] else .empty := by
  rcases p with (_ | _ | p) | _
  · rfl
  · rfl
  · simp [State.port, midRead, Port.reset]
  · rfl

/-- The machine's invariant in the middle of a command, and a step from there; it serves LockAndPortDisciplineKept and
OnlyTheHolderUsesTheBus too, whose premises are parts of it. -/
theorem witness_InvariantKept_StepAlwaysGoesOn : midRead.Inv ∧ step midRead = .next (after (step midRead)) := by
  refine ⟨⟨?_, rfl, ?_, ⟨?_, ?_⟩, ⟨rfl, ?_, ?_, ?_, ?_, ?_, ?_, ?_⟩, ⟨?_, ?_, ?_, ?_⟩⟩, rfl⟩
  · simp only [State.MemInv]; decide
  · intro i c hi hc
    obtain rfl := Option.some.inj ((by decide : midRead.currentInstr = some (.qRead 0 3)).symm.trans hi)
    cases hc
  · intro i; rw [midRead_chan]; split
    · intro; simp only [Chan.bounded]; decide
    · intro h; simp [Chan.zero] at h
  · intro c hc
    obtain rfl : c = 0 := by revert c; decide
    refine ⟨fun _ => by decide, by simp only [Chan.bounded]; decide, fun off h => ?_⟩
    obtain rfl := Option.some.inj ((rfl : carriedOffset midRead.seq.step = some 1).symm.trans h)
    decide
  · simp [midRead, running]
  · decide
  · intro q hq; simp [midRead, running] at hq ⊢; simp [← hq]
  · decide
  · decide
  · decide
  · simp [midRead, running, ringState, start, State.setPortState, State.setPort, State.setChan, State.reset, State.resetWith]
  · intro p cmd payload h; rw [midRead_port] at h; split at h <;> [skip; split at h] <;> simp_all
  · intro p cmd payload h; rw [midRead_port] at h
    split at h <;> [skip; split at h] <;> simp_all <;> obtain ⟨rfl, rfl⟩ := h <;> decide
  · intro p h
    obtain rfl : p = .client 1 := by simpa [midRead, running] using h
    exact ⟨_, _, rfl⟩
  · intro p h
    obtain rfl : p = .client 0 := (Requester.port.inj (Option.some.inj h)).symm
    exact ⟨_, rfl⟩

/-- Client 1 and the worker wait at a free lock. -/
def freeLock : State :=
  { ringState 6 2 6 2 with
    waiting := [.port (.client 1), .worker]
    clients := [Port.reset, { state := .executing 0x50000000 [], prog := .idle }]
    wk := { State.reset.wk with state := .dispatching, phase := .lock } }

theorem freeLock_chan (i : Nat) : freeLock.chan i = if i = 0 then ring 6 2 else Chan.zero := by
  rcases i with _ | i
  · rfl
  · rcases i with _ | _ | _ | _ | _ | _ <;> rfl

theorem freeLock_port (p : PortId) :
    (freeLock.port p).state = if p = .client 1 then .executing 0x50000000 [] else .empty := by
  rcases p with (_ | _ | p) | _
  · rfl
  · rfl
  · simp [State.port, freeLock, Port.reset]
  · rfl

/-- Both requesters may be granted, the worker to keep the lock; it serves LockTimeoutStep's LockInv too. -/
theorem witness_AnyWaiterMayBeGranted : freeLock.Inv ∧ freeLock.sess.lock = none ∧ Requester.port (.client 1) ∈ freeLock.waiting ∧
    Requester.worker ∈ freeLock.waiting ∧ freeLock.halted = false := by
  refine ⟨⟨?_, rfl, ?_, ⟨?_, ?_⟩, ⟨rfl, ?_, ?_, ?_, ?_, ?_, ?_, ?_⟩, ⟨?_, ?_, ?_, ?_⟩⟩, rfl, by decide, by decide, rfl⟩
  · simp only [State.MemInv]; decide
  · intro i c hi; exact absurd (hi.symm.trans (by decide : freeLock.currentInstr = none)) (by simp)
  · intro i; rw [freeLock_chan]; split
    · intro; simp only [Chan.bounded]; decide
    · intro h; simp [Chan.zero] at h
  · intro c hc; exact absurd hc (by revert c; decide)
  · exact ⟨fun _ p h => (by cases h), fun _ => rfl⟩
  · decide
  · intro q hq; cases hq
  · decide
  · decide
  · decide
  · exact Iff.intro (fun h => by cases h) (fun h => by rcases h with h | ⟨m, h⟩ <;> cases h)
  · intro p cmd payload h; rw [freeLock_port] at h; split at h <;> simp_all
  · intro p cmd payload h; rw [freeLock_port] at h
    split at h <;> simp_all; obtain ⟨rfl, rfl⟩ := h; decide
  · intro p h
    obtain rfl : p = .client 1 := by simpa [freeLock] using h
    exact ⟨_, _, rfl⟩
  · intro p h; cases h

/-- On a Closed or a wedged session they may be granted too, the worker to release the lock again. -/
theorem witness_AnyWaiterMayBeGranted_closed (o w : Bool) :
    ({ freeLock with sess := { freeLock.sess with isOpen := o, wedged := w } } : State).Inv :=
  have h := witness_AnyWaiterMayBeGranted.1
  ⟨h.mem, h.table, h.body, ⟨h.ring.bounded, h.ring.running⟩,
    ⟨h.lock.holder, h.lock.position, h.lock.once, h.lock.holderLeft, h.lock.idle, h.lock.idleBitmap, h.lock.waits, h.lock.holds⟩,
    ⟨h.ports.presented, h.ports.accepted, h.ports.waiting, h.ports.holding⟩⟩

/-- A port and the worker, with LOCK_TIMEOUT and without. -/
theorem witness_LockTimeoutStep (b : Bool) :
    let s := { freeLock with cfg := { Config.tc with lockTimeout := b } }
    s.LockInv ∧ s.halted = false ∧ Requester.port (.client 1) ∈ s.waiting ∧ Requester.worker ∈ s.waiting ∧
      s.hasPort (.client 1) = true ∧ s.cfg.lockTimeout = b :=
  have h := witness_AnyWaiterMayBeGranted.1.lock
  ⟨⟨h.holder, h.position, h.once, h.holderLeft, h.idle, h.idleBitmap, h.waits, h.holds⟩, rfl, by simp [freeLock],
    by simp [freeLock], rfl, rfl⟩

/-- A Q_INIT that waits for the lock with its channel valid: R205's valid 0 and nothing else (R25), and an OPEN, whose channels stay
(R25, R226). -/
theorem test_lock_timeout_init :
    let s (cmd : Word) (payload : List Word) :=
      offer (.lockTimeout (.port (.client 0)))
        { waitingFor cmd payload (ringState 0 2 0 2) with cfg := { Config.tc with lockTimeout := true } }
    onNext (fun t => (answer t, t.sess.wedged, t.chan 0)) (step (s 0x10000000 [])) = some ((0x40000000, []), true, { ring 0 2 with valid := false }) ∧
      onNext (fun t => (answer t, t.sess.wedged, t.chan 0)) (step (s 0x40100000 [5])) = some ((0x40000000, []), true, ring 0 2) := by
  decide

/-- With LOCK_TIMEOUT, client 0's command of channel 0 runs while client 1's Q_INIT of that channel waits and times out: the state
after the timeout, with `n` turns to come in which all goes well. -/
def underTimeout (cmd : Word) (payload : List Word) (n : Nat) (s : State) : State :=
  let t := running cmd payload (.poll false 0) [] s
  let t := t.setPortState (.client 1) (.executing 0x10000000 [])
  let t := { t with waiting := [.port (.client 1)], cfg := { Config.tc with lockTimeout := true } }
  offer (.turns (List.replicate n Turn.reenabled)) (after (step (offer (.lockTimeout (.port (.client 1))) t)))

/-- R211 with S = 8, rd = 5 and WR_OFF = 0, when a waiting Q_INIT of the channel times out under the Q_READ: still three words, and
the descriptor keeps all but `valid` (R25, R205). -/
theorem test_read_under_lock_timeout :
    onNext (fun t => (answer t, t.chan 0, t.sess.wedged)) (step (underTimeout 0x2000000A [] 16 (ringState 5 5 5 0))) =
      some ((0x00000003, [0, 0x16, 0x17]), { ring 0 0 with valid := false }, true) := by
  decide

/-- R221: the words of a Q_WRITE under which a waiting Q_INIT of the channel times out lie in the ring, none at address 0. -/
theorem test_write_under_lock_timeout :
    onNext (fun t => (answer t, t.word 0x2014, t.word 0x2018, t.word 0x14, (t.chan 0).wr))
      (step (underTimeout 0x30000002 [8, 9] 14 (ringState 5 5 5 5))) = some ((0x00000002, []), 8, 9, 0, 7) := by
  decide

/-- At most 65534 payload words. -/
theorem witness_FrameWriteExpands : State.reset.hasPort (.client 1) = true ∧ (State.reset.port (.client 1)).state = .empty ∧
    (State.reset.port (.client 1)).prog.active = false ∧ ([] : List Word).length ≤ 65534 ∧
    (List.replicate 65534 (0 : Word)).length ≤ 65534 := by
  refine ⟨by decide, by decide, by decide, by decide, Nat.le_of_eq List.length_replicate⟩

/-- No header yet, LEN 0, LEN above MAX_FRAME_WORDS = 4, a word missing, a whole frame (V-F6, V-F7, V-F8, V-F12). -/
theorem witness_FrameReadLoop : ∀ got ∈ [([] : List Word), [0x02010000], [0x00000005], [0x02010003, 0], [0x02010001]],
    let s := { State.reset.setProg (.client 0) (.reading 0 got true) with cfg := { Config.tc with maxFrameWords := some 4 } }
    s.hasPort (.client 0) = true ∧ (s.port (.client 0)).state = .empty ∧ (s.port (.client 0)).prog = .reading 0 got true := by
  decide

/-- Both loops may start: with none before, and after one that ended. -/
theorem witness_FrameReadLoop_start : ∀ g ∈ [Prog.idle, .done .timeout [5]],
    let s := State.reset.setProg (.client 0) g
    s.hasPort (.client 0) = true ∧ (s.port (.client 0)).state = .empty ∧ (s.port (.client 0)).prog = g ∧
      ([7, 8] : List Word).length < 65536 := by
  decide

/-- V-F9: with FRAME_DEADLINE and without, after a read and before the first. -/
theorem witness_FrameReadLoop_deadline : ∀ d ready,
    let s := { State.reset.setProg (.client 0) (.reading 0 [] ready) with cfg := { Config.tc with frameDeadline := d } }
    s.hasPort (.client 0) = true ∧ (s.port (.client 0)).state = .empty ∧ (s.port (.client 0)).prog = .reading 0 [] ready ∧
      s.cfg.frameDeadline = d := by
  decide

/-- Each loop, with a response it keeps and one that ends it. -/
theorem witness_ClientLoopsTakeResponses : ∀ st ∈ [Status.ok, .wouldBlock, .busError],
    ∀ g ∈ [Prog.reading 0 [0x02010002] false, .retrying 0 [7] false],
    let s := (State.reset.setProg (.client 0) g).setPortState (.client 0) (.responded (respWord st 1) [5])
    s.hasPort (.client 0) = true ∧ (s.port (.client 0)).state = .responded (respWord st 1) [5] ∧ (s.port (.client 0)).prog = g := by
  decide

/-- A q.write_retry that goes on after a WOULD_BLOCK, and one just started. -/
theorem witness_ClientLoopsTakeResponses_retry : ∀ ready, let s := State.reset.setProg (.client 0) (.retrying 0 [7, 8] ready)
    s.hasPort (.client 0) = true ∧ (s.port (.client 0)).state = .empty ∧ (s.port (.client 0)).prog = .retrying 0 [7, 8] ready ∧
      ([7, 8] : List Word).length < 65536 := by
  decide

end Sys2Proof.Tests
end

/-! PROOFS. The statements of spec/00_scope.md (R7, R12): the log and the parameters through a step, that the machine goes on from
its invariant, and that grants and turns run the decoded instruction. -/

namespace Sys2Proof.Machine

/-! ### The log and the parameters (R7, R41) -/

/-- A command writes no log event and no parameter. -/
theorem exec_log_cfg {i : Instr} {s t : State} (hi : isCommand i = true) (h : exec i s = .next t) :
    t.log = s.log ∧ t.cfg = s.cfg := by
  refine exec_keeps (P := fun u => u.log = s.log ∧ u.cfg = s.cfg) hi h ⟨rfl, rfl⟩ (fun _ k => k) (fun _ _ k => k) ?_ ?_ ?_
    (fun _ k _ => k)
  · intro u v ⟨hlog, hcfg⟩ k
    exact ⟨k.log.trans hlog, k.cfg.trans hcfg⟩
  · intro u v ⟨hlog, hcfg⟩ k
    exact ⟨k.log.trans hlog, k.cfg.trans hcfg⟩
  · intro u st n data ⟨hlog, hcfg⟩
    exact ⟨by rw [State.respond_log, hlog], by rw [State.respond_cfg, hcfg]⟩

/-- The step of any agent adds to the log at most, and leaves the parameters. -/
theorem State.perform_log_cfg {e : Event} {s t : State} (h : s.perform e = .next t) : s.log <+: t.log ∧ t.cfg = s.cfg := by
  have same {u : State} (k : u.log = s.log ∧ u.cfg = s.cfg) : s.log <+: u.log ∧ u.cfg = s.cfg :=
    ⟨by rw [k.1], k.2⟩
  rcases State.perform_cases h with ⟨p, ts, i, _, _, _, hi, hx⟩ | ⟨p, ts, i, _, _, _, _, hi, hx⟩ | ⟨a, _, rfl⟩ | ⟨b, _, rfl⟩ |
    ⟨q, _, rfl⟩ | k
  · exact same (exec_log_cfg (s := s.grantedPort p ts) hi hx)
  · exact same (exec_log_cfg (s := { s with turns := ts }) hi hx)
  · have k := s.companionStep_companionSame a
    exact same ⟨k.log, k.cfg⟩
  · exact same ⟨rfl, rfl⟩
  · have k := s.lockTimeout_same q
    exact ⟨k.log, k.cfg⟩
  · exact ⟨k.log, k.cfg⟩

/-- Settles O52: every agent's step keeps the log as a prefix and the parameters. -/
theorem logOnlyGrows : Obligations.LogOnlyGrows := by
  intro s t h
  obtain ⟨rest, k, h⟩ := step_next h
  exact State.perform_log_cfg (s := { s with inputs := rest, clock := k }) h

/-! ### Which instruction a port's words spell -/

/-- What the decoder reads from a command packet is what it reads from the words. -/
theorem decodeCommand_of_decode {cmd : Word} {payload : List Word} {i : Instr} (h : decode (.command cmd payload) = .ok i) :
    decodeCommand cmd payload = .ok i := by
  simp only [decode] at h
  split at h
  · cases h
  · rename_i j hj
    split at h
    · injection h with h
      rw [hj, h]
    · cases h

/-- Words the accept step lets through spell an instruction (R130). -/
theorem decodeCommand_of_acceptFault {p : Params} {cmd : Word} {payload : List Word} (h : acceptFault p cmd payload = none) :
    ∃ i, decodeCommand cmd payload = .ok i := by
  unfold acceptFault at h
  split at h
  · cases h
  · exact ⟨_, ‹_›⟩

/-- An executing port's instruction is the one its words decode to. -/
theorem State.portInstr_executing {s : State} {p : PortId} {cmd : Word} {payload : List Word} {i : Instr}
    (hp : (s.port p).state = .executing cmd payload) (hd : decodeCommand cmd payload = .ok i) : s.portInstr p = some i := by
  simp only [State.portInstr, hp, hd]

/-- An executing port's command word. -/
theorem State.portCmd_executing {s : State} {p : PortId} {cmd : Word} {payload : List Word}
    (hp : (s.port p).state = .executing cmd payload) : s.portCmd p = cmd := by
  simp only [State.portCmd, hp]

/-- Every executing port has an instruction, for the accept step let its command through (R130). -/
theorem State.PortInv.portInstr {s : State} (h : s.PortInv) {p : PortId} {cmd : Word} {payload : List Word}
    (hp : (s.port p).state = .executing cmd payload) : ∃ i, s.portInstr p = some i := by
  obtain ⟨_, hf⟩ := h.accepted p cmd payload hp
  obtain ⟨i, hd⟩ := decodeCommand_of_acceptFault hf
  exact ⟨i, State.portInstr_executing hp hd⟩

/-! ### Grants and turns run the port's instruction (R100, R12) -/

/-- The arbiter may grant the free lock of a running block to whoever waits. -/
theorem State.canGrant_iff (s : State) (q : Requester) :
    s.canGrant q = true ↔ s.sess.lock = none ∧ s.waiting.contains q = true ∧ s.halted = false := by
  simp [State.canGrant, and_assoc]

/-- A port's grant is exec of the port's instruction. -/
theorem State.grant_port {s : State} {p : PortId} {i : Instr} (ts : List Turn) (hc : s.canGrant (.port p) = true)
    (hi : s.portInstr p = some i) : s.grant (.port p) ts = exec i (s.grantedPort p ts) := by
  simp only [State.grant, hc, hi, if_true]

/-- The lock holder's turns are exec of its port's instruction. -/
theorem State.takeTurns_port {s : State} {p : PortId} {i : Instr} (ts : List Turn) (ho : s.seq.owner = some (.port p))
    (hh : s.halted = false) (hi : s.portInstr p = some i) : s.takeTurns ts = exec i { s with turns := ts } := by
  simp only [State.takeTurns, ho, hh, hi, Bool.false_eq_true, if_false]

/-- Settles O6: the granted port's instruction is the decoded one, and the state it runs in shows R100's assignments. -/
theorem grantRunsTheDecodedCommand : Obligations.GrantRunsTheDecodedCommand := by
  intro s p ts cmd payload i hlock hwait hh hp hd
  have hc : s.canGrant (.port p) = true := (s.canGrant_iff _).2 ⟨hlock, hwait, hh⟩
  have hi : s.portInstr p = some i := State.portInstr_executing hp (decodeCommand_of_decode hd)
  calc step { s with inputs := .grant (.port p) ts :: s.inputs }
      = s.grant (.port p) ts := step_cons s _
    _ = exec i (s.grantedPort p ts) := State.grant_port ts hc hi
    _ = _ := by rw [State.grantedPort, State.portCmd_executing hp]; rfl

/-- Settles O7: the lock holder's port shows the decoded instruction. -/
theorem turnsRunTheDecodedCommand : Obligations.TurnsRunTheDecodedCommand := by
  intro s p ts cmd payload i ho hh hp hd
  have hi : s.portInstr p = some i := State.portInstr_executing hp (decodeCommand_of_decode hd)
  exact (step_cons s _).trans (State.takeTurns_port ts ho hh hi)

/-! ### The machine goes on (R12, R310) -/

/-- The lock discipline does not speak of the tape of inputs. -/
theorem State.LockInv.withTape {s : State} (h : s.LockInv) (rest : List Event) (k : Nat) :
    State.LockInv { s with inputs := rest, clock := k } :=
  ⟨h.holder, h.position, h.once, h.holderLeft, h.idle, h.idleBitmap, h.waits, h.holds⟩

/-- The ports' coherence does not speak of the tape of inputs. -/
theorem State.PortInv.withTape {s : State} (h : s.PortInv) (rest : List Event) (k : Nat) :
    State.PortInv { s with inputs := rest, clock := k } :=
  ⟨h.presented, h.accepted, h.waiting, h.holding⟩

/-- A command of a running block that has a position and holds the lock answers a next state. -/
theorem exec_goesOn {i : Instr} {s : State} {p : PortId} (hi : isCommand i = true) (ho : s.seq.owner = some (.port p))
    (hh : s.halted = false) (hs : s.seq.step ≠ .off) : ∃ t, exec i s = .next t :=
  ⟨_, (exec_command hi s).trans (State.runCommand_eq ho hh hs)⟩

/-- A port that is granted the lock was let through by the accept step, so its command runs. -/
theorem State.PortInv.grant_goesOn {s : State} (h : s.PortInv) (q : Requester) (ts : List Turn) :
    ∃ t, s.grant q ts = .next t := by
  by_cases hc : s.canGrant q = true
  · cases q with
    | worker => exact ⟨(s.granted .worker).lockedPhase, by simp only [State.grant, hc, if_true]⟩
    | port p =>
      obtain ⟨_, hwait, hh⟩ := (s.canGrant_iff _).1 hc
      obtain ⟨cmd, payload, hp⟩ := h.waiting p (List.contains_iff_mem.1 hwait)
      obtain ⟨i, hi⟩ := h.portInstr hp
      rw [State.grant_port ts hc hi]
      exact exec_goesOn (p := p) (State.portInstr_isCommand hi) rfl hh (by simp [State.grantedPort])
  · exact ⟨s, by simp only [State.grant, hc]; rfl⟩

/-- A port that holds the lock has a command and a position in it, so its turns run. -/
theorem State.takeTurns_goesOn {s : State} (hl : s.LockInv) (h : s.PortInv) (ts : List Turn) : ∃ t, s.takeTurns ts = .next t := by
  by_cases hp : ∃ p, s.seq.owner = some (.port p)
  · obtain ⟨p, ho⟩ := hp
    cases hh : s.halted with
    | true => exact ⟨s, by simp only [State.takeTurns, ho, hh, if_true]⟩
    | false =>
      obtain ⟨payload, hp⟩ := h.holding p ho
      obtain ⟨i, hi⟩ := h.portInstr hp
      have hs : s.seq.step ≠ .off := fun hoff => hl.position.1 hoff p ho
      rw [State.takeTurns_port ts ho hh hi]
      exact exec_goesOn (p := p) (State.portInstr_isCommand hi) ho hh hs
  · refine ⟨s, ?_⟩
    unfold State.takeTurns
    split
    · exact absurd ⟨_, ‹_›⟩ hp
    · rfl

/-- Only grants and turns could stop, and the lock discipline and the ports' coherence rule that out. -/
theorem State.perform_goesOn {s : State} (hl : s.LockInv) (h : s.PortInv) (e : Event) : ∃ t, s.perform e = .next t := by
  cases e with
  | grant q ts => exact h.grant_goesOn q ts
  | turns ts => exact State.takeTurns_goesOn hl h ts
  | _ => exact ⟨_, rfl⟩

/-- Settles O57: the next event's agent has a step, whichever event it is. -/
theorem stepAlwaysGoesOn : Obligations.StepAlwaysGoesOn := by
  intro s h
  obtain ⟨rest, k, hnext⟩ := s.nextEvent_same
  obtain ⟨t, ht⟩ := State.perform_goesOn (h.lock.withTape rest k) (h.ports.withTape rest k) s.event
  exact ⟨t, by rw [← hnext] at ht; exact ht⟩

end Sys2Proof.Machine

/-! PROOFS. The statements of spec/10_state.md: the lock discipline and the ports' coherence (R23, R27, R29), the machine's invariant
with the descriptors' bounds (R24, R26), who writes descriptors (R25), and the two bus transactions (R33, R150, R151). -/

namespace Sys2Proof.Machine

/-! ### Who waits -/

theorem State.mem_addWaiting (s : State) (q r : Requester) : r ∈ (s.addWaiting q).waiting ↔ r ∈ s.waiting ∨ r = q := by
  unfold State.addWaiting
  split
  · rename_i h
    have hq : q ∈ s.waiting := List.contains_iff_mem.1 h
    exact ⟨.inl, fun hr => hr.elim id fun e => e ▸ hq⟩
  · simp

/-- A requester joins a waiting set without doubles at most once. -/
theorem State.addWaiting_nodup (s : State) (q : Requester) (h : s.waiting.Nodup) : (s.addWaiting q).waiting.Nodup := by
  unfold State.addWaiting
  split
  · exact h
  · rename_i hq
    have hq : q ∉ s.waiting := by simpa using hq
    simpa [List.nodup_append, h] using fun r hr (e : r = q) => hq (e ▸ hr)

@[simp] theorem State.addWaiting_port (s : State) (q : Requester) (p : PortId) : (s.addWaiting q).port p = s.port p := by
  cases p <;> simp [State.port]

/-! ### What the lock discipline asks -/

/-- The lock discipline speaks of the lock, the sequencer, the waiting set and the worker's phase only. -/
theorem State.LockInv.congr {s t : State} (h : s.LockInv) (hlock : t.sess.lock = s.sess.lock)
    (howner : t.seq.owner = s.seq.owner) (hstep : t.seq.step = .off ↔ s.seq.step = .off) (hwait : t.waiting = s.waiting)
    (hstate : t.wk.state = s.wk.state) (hphase : t.wk.phase = s.wk.phase) (hbitmap : t.wk.bitmap = s.wk.bitmap) : t.LockInv := by
  obtain ⟨holder, position, once, holderLeft, idle, idleBitmap, waits, holds⟩ := h
  constructor <;> simp only [hlock, howner, hstep, hwait, hstate, hphase, hbitmap] <;> assumption

/-- A worker that neither waits for the lock nor holds it: outside a pass, or past its locked phase (R27, R290). -/
structure Worker.Outside (w : Worker) : Prop where
  notWaiting : w.phase ≠ .lock
  notReading : w.phase ≠ .readMbox
  notClearing : ∀ m, w.phase ≠ .clearMbox m
  idle : w.state = .idle ↔ w.phase = .idle
  idleBitmap : w.state = .idle → w.bitmap = 0

/-- With the worker outside the lock, the discipline is that of the holder and of those who wait. -/
theorem State.LockInv.ofOutside {t : State} (hout : t.wk.Outside) (hwait : Requester.worker ∉ t.waiting)
    (howner : t.seq.owner ≠ some .worker) (holder : t.sess.lock = t.seq.owner)
    (position : t.seq.step = .off ↔ ∀ p, t.seq.owner ≠ some (.port p)) (once : t.waiting.Nodup)
    (holderLeft : ∀ q, t.sess.lock = some q → q ∉ t.waiting) : t.LockInv where
  holder := holder
  position := position
  once := once
  holderLeft := holderLeft
  idle := hout.idle
  idleBitmap := hout.idleBitmap
  waits := by simp [hout.notWaiting, hwait]
  holds := by simp [hout.notReading, hout.notClearing, howner]

/-- A free lock with the worker outside it. -/
theorem State.LockInv.ofFree {t : State} (hout : t.wk.Outside) (hwait : Requester.worker ∉ t.waiting)
    (hlock : t.sess.lock = none) (howner : t.seq.owner = none) (hstep : t.seq.step = .off) (once : t.waiting.Nodup) : t.LockInv :=
  .ofOutside hout hwait (by simp [howner]) (by rw [hlock, howner]) (by simp [hstep, howner]) once (by simp [hlock])

/-- A command has a position exactly while its port holds the lock. -/
theorem State.LockInv.port_of_step {s : State} (h : s.LockInv) (hs : s.seq.step ≠ .off) : ∃ p, s.seq.owner = some (.port p) := by
  simpa [h.position] using hs

theorem State.LockInv.step_of_port {s : State} (h : s.LockInv) {p : PortId} (ho : s.seq.owner = some (.port p)) :
    s.seq.step ≠ .off := fun hoff => h.position.1 hoff p ho

/-- With the lock free the sequencer is free too. -/
theorem State.LockInv.free {s : State} (h : s.LockInv) (hl : s.sess.lock = none) : s.seq.owner = none ∧ s.seq.step = .off := by
  have ho : s.seq.owner = none := h.holder ▸ hl
  exact ⟨ho, h.position.2 (by simp [ho])⟩

/-- A worker that waits is in phase Lock of a pass. -/
theorem State.LockInv.worker_waits {s : State} (h : s.LockInv) (hw : Requester.worker ∈ s.waiting) :
    s.wk.phase = .lock ∧ s.wk.state ≠ .idle := by
  have hp := h.waits.2 hw
  exact ⟨hp, fun e => by simp [h.idle.1 e] at hp⟩

/-- A worker that holds the lock is in a pass and does not wait. -/
theorem State.LockInv.worker_holds {s : State} (h : s.LockInv) (ho : s.seq.owner = some .worker) :
    s.wk.state ≠ .idle ∧ Requester.worker ∉ s.waiting ∧ s.seq.step = .off := by
  refine ⟨fun e => ?_, h.holderLeft _ (h.holder.trans ho), h.position.2 (by simp [ho])⟩
  rcases h.holds.1 ho with hp | ⟨m, hp⟩ <;> simp [h.idle.1 e] at hp

/-- A worker in a phase outside the lock neither waits nor holds it, and changing it for another such worker keeps the discipline. -/
theorem State.LockInv.setWorker {s t : State} (h : s.LockInv) (hout : s.wk.Outside) (hout' : t.wk.Outside)
    (hlock : t.sess.lock = s.sess.lock) (hseq : t.seq = s.seq) (hwait : t.waiting = s.waiting) : t.LockInv := by
  have hw : Requester.worker ∉ s.waiting := fun hw => hout.notWaiting (h.waits.2 hw)
  have ho : s.seq.owner ≠ some .worker := fun ho => by
    rcases h.holds.1 ho with hp | ⟨m, hp⟩
    · exact hout.notReading hp
    · exact hout.notClearing m hp
  exact .ofOutside hout' (hwait ▸ hw) (hseq ▸ ho) (by rw [hlock, hseq]; exact h.holder) (by rw [hseq]; exact h.position)
    (hwait ▸ h.once) (by rw [hlock, hwait]; exact h.holderLeft)

/-- The worker of a scan or of a handler's call is outside the lock. -/
theorem State.LockInv.outside {s : State} (h : s.LockInv) (hp : (∃ k, s.wk.phase = .scan k) ∨ ∃ k, s.wk.phase = .await k) :
    s.wk.Outside := by
  rcases hp with ⟨k, hp⟩ | ⟨k, hp⟩ <;> exact ⟨by simp [hp], by simp [hp], by simp [hp], h.idle, h.idleBitmap⟩

theorem Worker.Outside.ofScan {w : Worker} {k : Nat} (hp : w.phase = .scan k) (hs : w.state ≠ .idle) : w.Outside := by
  constructor <;> simp [hp, hs]

theorem Worker.Outside.ofAwait {w : Worker} {k : Nat} (hp : w.phase = .await k) (hs : w.state ≠ .idle) : w.Outside := by
  constructor <;> simp [hp, hs]

theorem Worker.Outside.ofIdle {w : Worker} (hs : w.state = .idle) (hp : w.phase = .idle) (hb : w.bitmap = 0) : w.Outside := by
  constructor <;> simp [hp, hs, hb]

/-- The response step frees the lock and leaves who waits and the worker. -/
theorem State.LockInv.respond {s : State} (h : s.LockInv) {p : PortId} (ho : s.seq.owner = some (.port p)) (st : Status) (n : Nat)
    (data : List Word) : (s.respond st n data).LockInv where
  holder := by simp
  position := by simp
  once := by simpa using h.once
  holderLeft := by simp
  idle := by simpa using h.idle
  idleBitmap := by simpa using h.idleBitmap
  waits := by simpa using h.waits
  holds := by have := h.holds; simpa [ho] using this

/-- The grant to a port puts it at its command's entry with the lock in its hands. -/
theorem State.LockInv.grantedPort {s : State} (h : s.LockInv) {p : PortId} (ts : List Turn) (hl : s.sess.lock = none) :
    (s.grantedPort p ts).LockInv where
  holder := rfl
  position := by simp [State.grantedPort, State.granted]
  once := h.once.filter _
  holderLeft := by simp [State.grantedPort, State.granted, State.dropWaiting]
  idle := h.idle
  idleBitmap := h.idleBitmap
  waits := h.waits.trans (by simp [State.grantedPort, State.granted, State.dropWaiting])
  holds := by have := h.holds; simpa [State.grantedPort, State.granted, (h.free hl).1] using this

/-- The worker's grant: the locked phase begins, or the lock is free again. -/
theorem State.LockInv.lockedPhase {s : State} (h : s.LockInv) (hl : s.sess.lock = none) (hw : Requester.worker ∈ s.waiting) :
    (s.granted .worker).lockedPhase.LockInv := by
  obtain ⟨_, hstate⟩ := h.worker_waits hw
  obtain ⟨_, hstep⟩ := h.free hl
  have once : (s.granted .worker).waiting.Nodup := h.once.filter _
  have left : Requester.worker ∉ (s.granted .worker).waiting := by simp [State.granted, State.dropWaiting]
  unfold State.lockedPhase
  split
  · exact .ofFree (.ofIdle rfl rfl rfl) left rfl rfl rfl once
  · split
    · exact .ofFree (.ofScan rfl hstate) left rfl rfl rfl once
    · exact {
        holder := rfl
        position := by simp [State.granted, hstep]
        once := once
        holderLeft := by rintro q hq; cases hq; exact left
        idle := ⟨fun e => absurd e hstate, fun e => by cases e⟩
        idleBitmap := fun e => absurd e hstate
        waits := by simpa using left
        holds := by simp [State.granted] }

/-- The pass start: the worker leaves Idle and waits for the lock. -/
theorem State.LockInv.passStart {s : State} (h : s.LockInv) : s.passStart.LockInv := by
  unfold State.passStart
  split
  · rename_i hidle
    have ho : s.seq.owner ≠ some .worker := fun ho => (h.worker_holds ho).1 hidle.1
    exact {
      holder := by simpa using h.holder
      position := by simpa using h.position
      once := State.addWaiting_nodup _ _ h.once
      holderLeft := by
        intro q hq
        rw [State.addWaiting_sess] at hq
        rw [State.mem_addWaiting]
        rintro (hm | rfl)
        · exact h.holderLeft q hq hm
        · exact ho (h.holder ▸ hq)
      idle := by simp
      idleBitmap := by simp
      waits := by simp [State.mem_addWaiting]
      holds := by simp [ho] }
  · exact h

/-- An accepted command joins the waiting set. -/
theorem State.LockInv.addPort {s : State} (h : s.LockInv) {p : PortId} (hl : s.sess.lock ≠ some (.port p)) :
    (s.addWaiting (.port p)).LockInv where
  holder := by simpa using h.holder
  position := by simpa using h.position
  once := State.addWaiting_nodup _ _ h.once
  holderLeft := by
    intro q hq
    rw [State.addWaiting_sess] at hq
    rw [State.mem_addWaiting]
    rintro (hm | rfl)
    · exact h.holderLeft q hq hm
    · exact hl hq
  idle := by simpa using h.idle
  idleBitmap := by simpa using h.idleBitmap
  waits := by simpa [State.mem_addWaiting] using h.waits
  holds := by simpa using h.holds

/-- A port leaves the waiting set. -/
theorem State.LockInv.dropPort {s : State} (h : s.LockInv) (p : PortId) : (s.dropWaiting (.port p)).LockInv where
  holder := h.holder
  position := h.position
  once := h.once.filter _
  holderLeft := fun q hq hm => h.holderLeft q hq (List.mem_of_mem_filter hm)
  idle := h.idle
  idleBitmap := h.idleBitmap
  waits := h.waits.trans (by simp [State.dropWaiting])
  holds := h.holds

/-! ### What the ports' coherence asks -/

/-- What a port may show: a payload that fits its command word, and only an accepted command executing (R126, R130). -/
def PortState.allowed (p : Params) : PortState → Prop
  | .empty => True
  | .requested cmd payload => payloadFits cmd payload = true
  | .executing cmd payload => payloadFits cmd payload = true ∧ acceptFault p cmd payload = none
  | .responded _ _ => True

theorem State.PortInv.allowed {s : State} (h : s.PortInv) (p : PortId) : (s.port p).state.allowed s.cfg := by
  cases e : (s.port p).state with
  | empty => trivial
  | requested cmd payload => exact h.presented p cmd payload e
  | executing cmd payload => exact h.accepted p cmd payload e
  | responded resp data => trivial

/-- The ports' coherence, port by port. -/
theorem State.PortInv.ofAllowed {t : State} (h : ∀ p, (t.port p).state.allowed t.cfg)
    (hwait : ∀ p, Requester.port p ∈ t.waiting → ∃ cmd payload, (t.port p).state = .executing cmd payload)
    (hold : ∀ p, t.seq.owner = some (.port p) → ∃ payload, (t.port p).state = .executing t.seq.cmd payload) : t.PortInv where
  presented p cmd payload e := by have := h p; rwa [e] at this
  accepted p cmd payload e := by have := h p; rwa [e] at this
  waiting := hwait
  holding := hold

/-- A port that executes nothing neither waits nor holds the lock. -/
theorem State.PortInv.unused {s : State} (h : s.PortInv) {p : PortId}
    (hp : ∀ cmd payload, (s.port p).state ≠ .executing cmd payload) :
    Requester.port p ∉ s.waiting ∧ s.seq.owner ≠ some (.port p) := by
  refine ⟨fun hw => ?_, fun ho => ?_⟩
  · obtain ⟨cmd, payload, e⟩ := h.waiting p hw; exact hp _ _ e
  · obtain ⟨payload, e⟩ := h.holding p ho; exact hp _ _ e

/-- The same ports with no more requesters: the coherence stays. -/
theorem State.PortInv.mono {s t : State} (h : s.PortInv) (hport : ∀ p, (t.port p).state = (s.port p).state)
    (hcfg : t.cfg = s.cfg) (hcmd : t.seq.cmd = s.seq.cmd) (hwait : ∀ p, Requester.port p ∈ t.waiting → Requester.port p ∈ s.waiting)
    (hown : ∀ p, t.seq.owner = some (.port p) → s.seq.owner = some (.port p)) : t.PortInv :=
  .ofAllowed (fun p => by rw [hport, hcfg]; exact h.allowed p) (fun p hp => by rw [hport]; exact h.waiting p (hwait p hp))
    fun p hp => by rw [hport, hcmd]; exact h.holding p (hown p hp)

/-- A port that neither waits nor holds the lock may change to any state allowed. -/
theorem State.PortInv.setPort {s : State} (h : s.PortInv) {p : PortId} {v : Port} (hv : v.state.allowed s.cfg)
    (hwait : Requester.port p ∉ s.waiting) (hown : s.seq.owner ≠ some (.port p)) : (s.setPort p v).PortInv := by
  refine .ofAllowed (fun q => ?_) (fun q hq => ?_) fun q hq => ?_
  · rw [State.setPort_port, State.setPort_cfg]
    split
    · exact hv
    · exact h.allowed q
  · rw [State.setPort_waiting] at hq
    rw [State.setPort_port_other _ _ _ _ (by rintro rfl; exact hwait hq)]
    exact h.waiting q hq
  · rw [State.setPort_seq] at hq ⊢
    rw [State.setPort_port_other _ _ _ _ (by rintro rfl; exact hown hq)]
    exact h.holding q hq

/-- An executing port may wait. -/
theorem State.PortInv.addPort {s : State} (h : s.PortInv) {p : PortId} {cmd : Word} {payload : List Word}
    (hp : (s.port p).state = .executing cmd payload) : (s.addWaiting (.port p)).PortInv := by
  refine .ofAllowed (fun q => ?_) (fun q hq => ?_) fun q hq => ?_
  · rw [State.addWaiting_port, State.addWaiting_cfg]; exact h.allowed q
  · rw [State.addWaiting_port]
    rcases (State.mem_addWaiting _ _ _).1 hq with hm | e
    · exact h.waiting q hm
    · cases e; exact ⟨_, _, hp⟩
  · rw [State.addWaiting_seq] at hq ⊢
    rw [State.addWaiting_port]
    exact h.holding q hq

/-- A port that shows anything is one of the block's. -/
theorem State.hasPort_of_state (s : State) {p : PortId} (h : (s.port p).state ≠ .empty) : s.hasPort p = true := by
  cases p with
  | handler => rfl
  | client c =>
    by_contra hn
    have hc : s.clients.length ≤ c := by simpa [State.hasPort] using hn
    simp [State.port, hc, Port.reset] at h

/-- The response step: the holder's port shows the response, and no port holds the lock. -/
theorem State.PortInv.respond {s : State} (h : s.PortInv) (hl : s.LockInv) {p : PortId} (ho : s.seq.owner = some (.port p))
    (st : Status) (n : Nat) (data : List Word) : (s.respond st n data).PortInv := by
  have hp : s.commandPort = p := by simp [State.commandPort, ho]
  have hw : Requester.port p ∉ s.waiting := hl.holderLeft _ (hl.holder.trans ho)
  refine .ofAllowed (fun q => ?_) (fun q hq => ?_) fun q hq => by simp at hq
  · show ((s.setPort s.commandPort _).port q).state.allowed _
    rw [State.setPort_port, State.respond_cfg]
    split
    · trivial
    · exact h.allowed q
  · rw [State.respond_waiting] at hq
    show ∃ cmd payload, ((s.setPort s.commandPort _).port q).state = _
    rw [hp, State.setPort_port_other _ _ _ _ (by rintro rfl; exact hw hq)]
    exact h.waiting q hq

/-- The granted port is one that waited, with the command it executes. -/
theorem State.PortInv.grantedPort {s : State} (h : s.PortInv) {p : PortId} (ts : List Turn) (hw : Requester.port p ∈ s.waiting) :
    (s.grantedPort p ts).PortInv := by
  refine .ofAllowed h.allowed (fun q hq => h.waiting q (List.mem_of_mem_filter hq)) fun q hq => ?_
  obtain rfl : p = q := by simpa [State.grantedPort, State.granted] using hq
  obtain ⟨cmd, payload, e⟩ := h.waiting p hw
  exact ⟨payload, e.trans (by rw [State.grantedPort, State.portCmd_executing e])⟩

/-! ### Steps that leave the running command alone -/

/-- The instruction the lock holder runs is the same where the same port holds the lock and shows the same words. -/
theorem State.currentInstr_congr {s t : State} (hown : ∀ p, t.seq.owner = some (.port p) ↔ s.seq.owner = some (.port p))
    (hport : ∀ p, s.seq.owner = some (.port p) → (t.port p).state = (s.port p).state) : t.currentInstr = s.currentInstr := by
  have eq {p : PortId} (ho : s.seq.owner = some (.port p)) : t.currentInstr = s.currentInstr := by
    simp only [State.currentInstr, ho, (hown p).2 ho, State.portInstr, hport p ho]
  cases hs : s.seq.owner with
  | some q =>
    cases q with
    | port p => exact eq hs
    | worker =>
      have ht : ∀ p, t.seq.owner ≠ some (.port p) := fun p hp => by simp [(hown p).1 hp] at hs
      rw [State.currentInstr, State.currentInstr, hs]
      split
      · exact absurd ‹_› (ht _)
      · rfl
  | none =>
    have ht : ∀ p, t.seq.owner ≠ some (.port p) := fun p hp => by simp [(hown p).1 hp] at hs
    rw [State.currentInstr, State.currentInstr, hs]
    split
    · exact absurd ‹_› (ht _)
    · rfl

/-- `t` meets the lock discipline and the ports' coherence, and the command that holds the lock in `s` is the one that holds it in `t`. -/
structure State.Undisturbed (s t : State) : Prop where
  lock : t.LockInv
  ports : t.PortInv
  command : t.currentInstr = s.currentInstr

theorem State.Undisturbed.refl {s : State} (hl : s.LockInv) (hp : s.PortInv) : s.Undisturbed s := ⟨hl, hp, rfl⟩

theorem State.Undisturbed.trans {s t u : State} (h : s.Undisturbed t) (k : t.Undisturbed u) : s.Undisturbed u :=
  ⟨k.lock, k.ports, k.command.trans h.command⟩

/-- A step that touches no port, grants to no port and frees none. -/
theorem State.Undisturbed.samePorts {s t : State} (hp : s.PortInv) (hl : t.LockInv)
    (hport : ∀ p, (t.port p).state = (s.port p).state) (hcfg : t.cfg = s.cfg) (hcmd : t.seq.cmd = s.seq.cmd)
    (hwait : ∀ p, Requester.port p ∈ t.waiting → Requester.port p ∈ s.waiting)
    (hown : ∀ p, t.seq.owner = some (.port p) ↔ s.seq.owner = some (.port p)) : s.Undisturbed t where
  lock := hl
  ports := hp.mono hport hcfg hcmd hwait fun p => (hown p).1
  command := State.currentInstr_congr hown fun p _ => hport p

/-- A port that neither waits nor holds the lock changes to any state allowed. -/
theorem State.Undisturbed.setPort {s : State} (hl : s.LockInv) (hp : s.PortInv) {p : PortId} {v : Port}
    (hv : v.state.allowed s.cfg) (hwait : Requester.port p ∉ s.waiting) (hown : s.seq.owner ≠ some (.port p)) :
    s.Undisturbed (s.setPort p v) where
  lock := hl.congr (by simp) (by simp) (by simp) (by simp) (by simp) (by simp) (by simp)
  ports := hp.setPort hv hwait hown
  command := State.currentInstr_congr (by simp) fun q hq => by
    rw [State.setPort_port_other _ _ _ _ (by rintro rfl; exact hown hq)]

/-- A client's program is no part of the discipline. -/
theorem State.Undisturbed.setProg {s : State} (hl : s.LockInv) (hp : s.PortInv) (p : PortId) (g : Prog) :
    s.Undisturbed (s.setProg p g) :=
  .samePorts hp (hl.congr (by simp) (by simp) (by simp) (by simp) (by simp) (by simp) (by simp))
    (fun q => by
      rw [State.setProg, State.setPort_port]
      split
      · rename_i h; rw [← h.1]
      · rfl) (by simp) (by simp) (by simp) (by simp)

/-! ### The clients (R29, R124, R130) -/

theorem State.Undisturbed.present {s : State} (hl : s.LockInv) (hp : s.PortInv) (p : PortId) (cmd : Word) (payload : List Word) :
    s.Undisturbed (s.present p cmd payload) := by
  unfold State.present
  split
  · rename_i h
    obtain ⟨_, hempty, hfits⟩ := h
    obtain ⟨hw, ho⟩ := hp.unused (p := p) (by simp [hempty])
    exact .setPort hl hp hfits hw ho
  · exact .refl hl hp

theorem State.Undisturbed.presentInstr {s : State} (hl : s.LockInv) (hp : s.PortInv) (p : PortId) (i : Instr) :
    s.Undisturbed (s.presentInstr p i) := by
  unfold State.presentInstr
  split
  · exact .present hl hp p _ _
  · exact .refl hl hp

theorem State.Undisturbed.take {s : State} (hl : s.LockInv) (hp : s.PortInv) (p : PortId) : s.Undisturbed (s.take p) := by
  unfold State.take
  split
  · rename_i h
    obtain ⟨hw, ho⟩ := hp.unused (p := p) (by simp [h])
    exact .setPort hl hp trivial hw ho
  · exact .refl hl hp

/-- An accepted command executes and waits; a faulting one only writes the fault record. -/
theorem State.Undisturbed.accept {s : State} (hl : s.LockInv) (hp : s.PortInv) (p : PortId) : s.Undisturbed (s.accept p) := by
  unfold State.accept
  split
  · exact .refl hl hp
  · split
    · rename_i cmd payload hreq
      have hfits := hp.presented p cmd payload hreq
      obtain ⟨hw, ho⟩ := hp.unused (p := p) (by simp [hreq])
      split
      · exact .samePorts hp (hl.congr rfl rfl .rfl rfl rfl rfl rfl) (fun _ => rfl) rfl rfl (fun _ => id) fun _ => .rfl
      · rename_i hok
        have k : s.Undisturbed (s.setPortState p (.executing cmd payload)) := .setPort hl hp ⟨hfits, hok⟩ hw ho
        have hhas : s.hasPort p = true := s.hasPort_of_state (by simp [hreq])
        have hstate : ((s.setPortState p (.executing cmd payload)).port p).state = .executing cmd payload := by
          rw [State.setPortState, State.setPort_port_same _ _ _ hhas]
        exact ⟨k.lock.addPort (by rw [State.setPortState_sess, hl.holder]; exact ho), k.ports.addPort hstate,
          (State.currentInstr_congr (by simp) (by simp)).trans k.command⟩
    · exact .refl hl hp

theorem State.Undisturbed.progress {s : State} (hl : s.LockInv) (hp : s.PortInv) (p : PortId) : s.Undisturbed (s.progress p) := by
  have next (g : Prog) (i : Instr) : s.Undisturbed ((s.setProg p g).presentInstr p i) :=
    have k := State.Undisturbed.setProg hl hp p g
    k.trans (.presentInstr k.lock k.ports p i)
  unfold State.progress
  split
  · split
    · split
      · exact next _ _
      · exact .setProg hl hp p _
    · exact next _ _
    · exact .refl hl hp
  · exact .refl hl hp

theorem State.Undisturbed.frameDeadline {s : State} (hl : s.LockInv) (hp : s.PortInv) (p : PortId) :
    s.Undisturbed (s.frameDeadline p) := by
  unfold State.frameDeadline
  split
  · split
    · exact .setProg hl hp p _
    · exact .refl hl hp
  · exact .refl hl hp

/-! ### The worker, the handler and the timer (R290-R297) -/

/-- A step of the worker outside the lock, or of the handler. -/
theorem State.Undisturbed.setWorker {s t : State} (hl : s.LockInv) (hp : s.PortInv) (hout : s.wk.Outside) (hout' : t.wk.Outside)
    (hlock : t.sess.lock = s.sess.lock) (hseq : t.seq = s.seq) (hwait : t.waiting = s.waiting) (hcfg : t.cfg = s.cfg)
    (hport : ∀ p, (t.port p).state = (s.port p).state) : s.Undisturbed t :=
  .samePorts hp (hl.setWorker hout hout' hlock hseq hwait) hport hcfg (by rw [hseq]) (by simp [hwait]) (by simp [hseq])

/-- The worker frees the lock it holds and leaves its locked phase. -/
theorem State.Undisturbed.workerReleases {s t : State} (hl : s.LockInv) (hp : s.PortInv) (ho : s.seq.owner = some .worker)
    (hout : t.wk.Outside) (hlock : t.sess.lock = none) (howner : t.seq.owner = none) (hstep : t.seq.step = .off)
    (hcmd : t.seq.cmd = s.seq.cmd) (hwait : t.waiting = s.waiting) (hcfg : t.cfg = s.cfg)
    (hport : ∀ p, (t.port p).state = (s.port p).state) : s.Undisturbed t :=
  .samePorts hp (.ofFree hout (hwait ▸ (hl.worker_holds ho).2.1) hlock howner hstep (hwait ▸ hl.once)) hport hcfg hcmd
    (by simp [hwait]) (by simp [ho, howner])

theorem State.Undisturbed.scanBit {s : State} (hl : s.LockInv) (hp : s.PortInv) (hout : s.wk.Outside) (hs : s.wk.state ≠ .idle)
    (j : Nat) : s.Undisturbed (s.scanBit j) := by
  have scan (log : List LogEvent) : s.Undisturbed { s with wk := { s.wk with phase := .scan (j + 1) }, log := log } :=
    .setWorker hl hp hout (.ofScan rfl hs) rfl rfl rfl rfl fun _ => rfl
  unfold State.scanBit
  dsimp only
  split
  · exact scan _
  · split
    · exact scan _
    · split
      · exact scan _
      · exact .setWorker hl hp hout (.ofAwait rfl hs) rfl rfl rfl rfl fun _ => rfl

/-- The worker's transaction moves neither the lock nor a port. -/
theorem State.Undisturbed.transact {s : State} (hl : s.LockInv) (hp : s.PortInv) (r : BusRec) (d : Draw) :
    s.Undisturbed (State.transact r { s with draw := d }) :=
  .samePorts hp (hl.congr (by simp) (by simp) (by simp) (by simp) (by simp) (by simp) (by simp)) (by simp; exact fun _ => rfl)
    (by simp) (by simp) (by simp) (by simp)

theorem State.Undisturbed.afterMboxRead {s : State} (hl : s.LockInv) (hp : s.PortInv) (ho : s.seq.owner = some .worker) :
    s.Undisturbed s.afterMboxRead := by
  obtain ⟨hs, hw, hstep⟩ := hl.worker_holds ho
  cases hb : s.busResult with
  | value m =>
    rw [State.afterMboxRead_value hb]
    split
    · exact .workerReleases hl hp ho (.ofScan rfl hs) rfl rfl rfl rfl rfl rfl fun _ => rfl
    · refine .samePorts hp ?_ (fun _ => rfl) rfl rfl (fun _ => id) fun _ => .rfl
      exact {
        holder := hl.holder
        position := hl.position
        once := hl.once
        holderLeft := hl.holderLeft
        idle := by simpa using hs
        idleBitmap := fun e => absurd e hs
        waits := by simpa using hw
        holds := by simp [ho] }
  | busError =>
    rw [show s.afterMboxRead = s.workerBusError by simp [State.afterMboxRead, hb]]
    exact .workerReleases hl hp ho (.ofScan rfl hs) rfl rfl rfl rfl rfl rfl fun _ => rfl
  | idle => rw [show s.afterMboxRead = s by simp [State.afterMboxRead, hb]]; exact .refl hl hp
  | written => rw [show s.afterMboxRead = s by simp [State.afterMboxRead, hb]]; exact .refl hl hp

theorem State.Undisturbed.afterMboxClear {s : State} (hl : s.LockInv) (hp : s.PortInv) (ho : s.seq.owner = some .worker) (m : Half) :
    s.Undisturbed (s.afterMboxClear m) := by
  obtain ⟨hs, _, _⟩ := hl.worker_holds ho
  unfold State.afterMboxClear
  split
  · exact .workerReleases hl hp ho (.ofScan rfl hs) rfl rfl rfl rfl rfl rfl fun _ => rfl
  · exact .workerReleases hl hp ho (.ofScan rfl hs) rfl rfl rfl rfl rfl rfl fun _ => rfl
  · exact .refl hl hp

/-- A step of the locked phase: the transaction, and what follows it in a running block. -/
theorem State.Undisturbed.lockedTransaction {s : State} (hl : s.LockInv) (hp : s.PortInv) (ho : s.seq.owner = some .worker)
    (r : BusRec) (d : Draw) {after : State → State}
    (h : ∀ t : State, t.LockInv → t.PortInv → t.seq.owner = some .worker → t.Undisturbed (after t)) :
    s.Undisturbed (if (State.transact r { s with draw := d }).halted then State.transact r { s with draw := d }
      else after (State.transact r { s with draw := d })) := by
  have k := State.Undisturbed.transact hl hp r d
  split
  · exact k
  · exact k.trans (h _ k.lock k.ports (by simp [ho]))

theorem State.Undisturbed.workerStep {s : State} (hl : s.LockInv) (hp : s.PortInv) (d : Draw) : s.Undisturbed (s.workerStep d) := by
  unfold State.workerStep
  split
  · exact .refl hl hp
  · rename_i hn
    have hs : s.wk.state ≠ .idle := fun e => hn (.inr e)
    split
    · split
      · rename_i ho
        exact .lockedTransaction hl hp ho _ d fun t tl tp ht => .afterMboxRead tl tp ht
      · exact .refl hl hp
    · split
      · rename_i m _ ho
        exact .lockedTransaction hl hp ho _ d fun t tl tp ht => .afterMboxClear tl tp ht m
      · exact .refl hl hp
    · rename_i k hk
      have hout := hl.outside (.inl ⟨k, hk⟩)
      split
      · exact .scanBit hl hp hout hs _
      · exact .setWorker hl hp hout (.ofIdle rfl rfl rfl) rfl rfl rfl rfl fun _ => rfl
    · exact .refl hl hp

theorem State.Undisturbed.handlerReturn {s : State} (hl : s.LockInv) (hp : s.PortInv) (ok : Bool) :
    s.Undisturbed (s.handlerReturn ok) := by
  unfold State.handlerReturn
  split
  · exact .refl hl hp
  · split
    · rename_i k hk
      have hs : s.wk.state ≠ .idle := fun e => by simp [hl.idle.1 e] at hk
      have hout' : Worker.Outside { s.wk with phase := .scan (k + 1) } := .ofScan rfl hs
      have next {t : State} (e : ∃ log, t = { s with wk := { s.wk with phase := .scan (k + 1) }, rx := none, log := log }) :
          s.Undisturbed (match lowestBit t.wk.bitmap (k + 1) with | some j => t.scanBit j | none => t) := by
        obtain ⟨log, rfl⟩ := e
        have kept : s.Undisturbed { s with wk := { s.wk with phase := .scan (k + 1) }, rx := none, log := log } :=
          .setWorker hl hp (hl.outside (.inr ⟨k, hk⟩)) hout' rfl rfl rfl rfl fun _ => rfl
        split
        · exact kept.trans (.scanBit kept.lock kept.ports hout' hs _)
        · exact kept
      cases ok
      · exact next ⟨_, rfl⟩
      · exact next ⟨_, rfl⟩
    · exact .refl hl hp

theorem State.Undisturbed.passStart {s : State} (hl : s.LockInv) (hp : s.PortInv) : s.Undisturbed s.passStart := by
  have hk := hl.passStart
  by_cases h : s.wk.state = .idle ∧ s.wk.pending = true ∧ s.halted = false
  · rw [State.passStart, if_pos h] at hk ⊢
    exact .samePorts hp hk (fun q => by rw [State.addWaiting_port]; rfl) (by simp) (by simp)
      (fun q hq => by simpa [State.mem_addWaiting] using hq) (by simp)
  · rw [State.passStart, if_neg h]
    exact .refl hl hp

/-- The worker's grant takes the lock from nobody. -/
theorem State.Undisturbed.grantWorker {s : State} (hl : s.LockInv) (hp : s.PortInv) (hc : s.canGrant .worker = true) :
    s.Undisturbed (s.granted .worker).lockedPhase := by
  obtain ⟨hlock, hwait, _⟩ := (s.canGrant_iff _).1 hc
  obtain ⟨hown, _⟩ := hl.free hlock
  refine .samePorts hp (hl.lockedPhase hlock (List.contains_iff_mem.1 hwait)) ?_ ?_ ?_ ?_ ?_ <;> unfold State.lockedPhase
  · intro p; (repeat' split) <;> rfl
  · (repeat' split) <;> rfl
  · (repeat' split) <;> rfl
  · intro p h
    have : Requester.port p ∈ (s.granted .worker).waiting := by (repeat' split at h) <;> exact h
    exact List.mem_of_mem_filter this
  · intro p
    (repeat' split) <;> simp [hown, State.granted, State.noDispatch]

/-- A lock timeout takes its requester from the waiting set; a port gets its response, the worker leaves phase Lock. -/
theorem State.Undisturbed.lockTimeout {s : State} (hl : s.LockInv) (hp : s.PortInv) (q : Requester) : s.Undisturbed (s.lockTimeout q) := by
  by_cases h : s.cfg.lockTimeout = true ∧ s.waiting.contains q = true ∧ s.halted = false
  swap
  · rw [State.lockTimeout, if_neg h]; exact .refl hl hp
  have hw : q ∈ s.waiting := List.contains_iff_mem.1 h.2.1
  cases q with
  | worker =>
    rw [State.lockTimeout, if_pos h]
    obtain ⟨hphase, hs⟩ := hl.worker_waits hw
    have ho : s.seq.owner ≠ some .worker := fun ho => (hl.worker_holds ho).2.1 hw
    refine .samePorts hp ?_ (fun _ => rfl) rfl rfl (fun p hq => List.mem_of_mem_filter hq) fun _ => .rfl
    exact .ofOutside (.ofScan rfl hs) (by simp [State.noDispatch, State.dropWaiting]) ho hl.holder hl.position (hl.once.filter _)
      fun q hq hm => hl.holderLeft q hq (List.mem_of_mem_filter hm)
  | port p =>
    have ho : s.seq.owner ≠ some (.port p) := fun ho => hl.holderLeft _ (hl.holder.trans ho) hw
    have dropped : s.Undisturbed (s.dropWaiting (.port p)).wedge :=
      .samePorts hp ((hl.dropPort p).congr rfl rfl .rfl rfl rfl rfl rfl) (fun _ => rfl) rfl rfl
        (fun _ hq => List.mem_of_mem_filter hq) fun _ => .rfl
    have answered := dropped.trans (.setPort (p := p)
      (v := { (s.dropWaiting (.port p)).wedge.port p with state := .responded (respWord .timeout 0) [] })
      dropped.lock dropped.ports trivial (by simp [State.dropWaiting]) ho)
    rw [State.lockTimeout_port h]
    exact answered.trans (.samePorts answered.ports (answered.lock.congr rfl rfl .rfl rfl rfl rfl rfl) (fun _ => rfl) rfl rfl
      (fun _ => id) fun _ => .rfl)

/-- Every other agent's step leaves the running command alone. -/
theorem State.Undisturbed.other {e : Event} {s t : State} (he : otherAgent e = true) (h : s.perform e = .next t) (hl : s.LockInv)
    (hp : s.PortInv) : s.Undisturbed t := by
  cases e <;> simp only [State.perform] at h
  case grant q ts =>
    rcases State.grant_next h with ⟨_, rfl⟩ | ⟨hc, rfl, rfl⟩ | ⟨p, i, _, rfl, _⟩
    · exact .refl hl hp
    · exact .grantWorker hl hp hc
    · cases he
  case turns ts => cases he
  case companion a => cases he
  case reset b => cases he
  case lockTimeout q => cases he
  all_goals (injection h with h; subst h)
  case present p cmd payload =>
    unfold State.clientPresent
    split
    · exact .refl hl hp
    · exact .present hl hp p cmd payload
  case take p => exact .take hl hp p
  case accept p => exact .accept hl hp p
  case passStart => exact .passStart hl hp
  case worker d => exact .workerStep hl hp d
  case handlerReturn ok => exact .handlerReturn hl hp ok
  case timerFire =>
    unfold State.timerFire
    split
    · exact .samePorts hp (hl.congr rfl rfl .rfl rfl rfl rfl rfl) (fun _ => rfl) rfl rfl (fun _ => id) fun _ => .rfl
    · exact .refl hl hp
  case frameWrite p c grp typ words =>
    unfold State.frameWrite
    split
    · exact .presentInstr hl hp p _
    · exact .refl hl hp
  case frameRead p c =>
    unfold State.frameRead
    split
    · exact .setProg hl hp p _
    · exact .refl hl hp
  case writeRetry p c words =>
    unfold State.writeRetry
    split
    · exact .setProg hl hp p _
    · exact .refl hl hp
  case progress p => exact .progress hl hp p
  case frameDeadline p => exact .frameDeadline hl hp p

/-! ### A command's run (R12, R124) -/

/-- The companion's steps leave the running command alone. -/
theorem CompanionSame.undisturbed {s t : State} (k : CompanionSame s t) (hl : s.LockInv) (hp : s.PortInv) : s.Undisturbed t := by
  have hstep : t.seq.step = .off ↔ s.seq.step = .off := by
    rcases k.step with e | ⟨n, out, e1, e2⟩
    · rw [e]
    · simp [e1, e2]
  exact .samePorts hp (hl.congr (by rw [k.sess]) k.owner hstep k.waiting k.wkState k.phase k.bitmap)
    (fun p => by cases p <;> simp [State.port, k.clients, k.handlerPort]) k.cfg k.cmd (by simp [k.waiting]) (by simp [k.owner])

/-- A turn before the response leaves its own command at a position, and the lock and the ports as they are. -/
theorem TurnSame.undisturbed {s t : State} (k : TurnSame s t) (hl : s.LockInv) (hp : s.PortInv) (hs : s.seq.step ≠ .off) :
    s.Undisturbed t :=
  .samePorts hp (hl.congr k.lock k.owner (by simp [hs, k.step hs]) k.waiting (by rw [k.wk]) (by rw [k.wk]) (by rw [k.wk]))
    (fun p => by rw [k.port]) k.cfg k.cmd (by simp [k.waiting]) (by simp [k.owner])

/-- A command's beginning leaves the lock in its hands. -/
theorem State.Undisturbed.begin {s : State} (i : Instr) (hl : s.LockInv) (hp : s.PortInv) (hs : s.seq.step ≠ .off) :
    s.Undisturbed (s.enter i (commandBody i)) := by
  by_cases hi : i = .shutdown
  · subst hi
    rw [shutdownBegin_cases]
    split
    · exact .samePorts hp (hl.congr rfl rfl (by simp [State.shutDown, hs]) rfl rfl rfl rfl) (fun _ => rfl) rfl rfl (fun _ => id)
        fun _ => .rfl
    · exact (TurnSame.goto s (by simp)).undisturbed hl hp hs
  · exact (commandBegin_same hi s).undisturbed hl hp hs

/-- The model's own record of the draws and the coming turns is no part of the discipline. -/
theorem State.Undisturbed.withRun {s : State} (hl : s.LockInv) (hp : s.PortInv) (d : Draw) (ts : List Turn) :
    s.Undisturbed { s with draw := d, turns := ts } :=
  .samePorts hp (hl.congr rfl rfl .rfl rfl rfl rfl rfl) (fun _ => rfl) rfl rfl (fun _ => id) fun _ => .rfl

/-- A turn keeps the discipline, and its command is the one that runs until it has responded. -/
theorem State.Undisturbed.turn {s : State} (i : Instr) (hl : s.LockInv) (hp : s.PortInv) (hs : s.seq.step ≠ .off) :
    (commandTurn i s).LockInv ∧ (commandTurn i s).PortInv ∧
      ((commandTurn i s).seq.step ≠ .off → (commandTurn i s).currentInstr = s.currentInstr) := by
  rcases commandTurn_cases i s with ⟨st, n, data, _, e⟩ | k
  · obtain ⟨p, ho⟩ := hl.port_of_step hs
    rw [e]
    exact ⟨hl.respond ho st n data, hp.respond hl ho st n data, fun h => by simp at h⟩
  · have h := k.undisturbed hl hp hs
    exact ⟨h.lock, h.ports, fun _ => h.command⟩

/-- A command that has not ended has a position. -/
theorem State.step_of_running (s : State) (h : s.ended = false) : s.seq.step ≠ .off := by
  simp only [State.ended, Bool.or_eq_false_iff, decide_eq_false_iff_not] at h
  exact h.2

/-- A command's run keeps the discipline. -/
theorem exec_discipline {i : Instr} {s t : State} {p : PortId} (hi : isCommand i = true) (h : exec i s = .next t)
    (ho : s.seq.owner = some (.port p)) (hl : s.LockInv) (hp : s.PortInv) : t.LockInv ∧ t.PortInv := by
  refine exec_ind (P := fun u => u.LockInv ∧ u.PortInv) hi h ?_ ?_
  · split
    · have k := State.Undisturbed.begin i hl hp (hl.step_of_port ho)
      have k' := State.Undisturbed.withRun k.lock k.ports (s.enter i (commandBody i)).draw []
      exact ⟨k'.lock, k'.ports⟩
    · have k := State.Undisturbed.withRun hl hp s.draw []
      exact ⟨k.lock, k.ports⟩
  · intro u d acts _ ⟨ul, up⟩ hend
    have hs : u.seq.step ≠ .off := u.step_of_running hend
    have kc := (u.companionSteps_companionSame acts).undisturbed ul up
    have kd := State.Undisturbed.withRun kc.lock kc.ports d (u.companionSteps acts).turns
    have hs' : (u.companionSteps acts).seq.step ≠ .off := by
      rcases (u.companionSteps_companionSame acts).step with e | ⟨n, out, _, e⟩
      · rw [e]; exact hs
      · simp [e]
    obtain ⟨tl, tp, _⟩ := State.Undisturbed.turn i kd.lock kd.ports hs'
    exact ⟨tl, tp⟩

/-- A reset empties every port, for any parameters. -/
theorem State.resetWith_port (p : Params) (q : PortId) : ((State.resetWith p).port q).state = .empty := by
  cases q with
  | handler => rfl
  | client k =>
    simp only [State.port, State.resetWith, List.getD_eq_getElem?_getD, List.getElem?_replicate]
    split <;> rfl

theorem State.resetWith_lockInv (p : Params) : (State.resetWith p).LockInv :=
  .ofFree (.ofIdle rfl rfl rfl) (by simp [State.resetWith]) rfl rfl rfl (by simp [State.resetWith])

theorem State.resetWith_portInv (p : Params) : (State.resetWith p).PortInv :=
  .ofAllowed (fun q => by rw [State.resetWith_port]; trivial) (by simp [State.resetWith]) (by simp [State.resetWith])

theorem State.Undisturbed.discipline {s t : State} (k : s.Undisturbed t) : t.LockInv ∧ t.PortInv := ⟨k.lock, k.ports⟩

/-- Every event keeps the discipline. -/
theorem State.perform_discipline {e : Event} {s t : State} (hl : s.LockInv) (hp : s.PortInv) (h : s.perform e = .next t) :
    t.LockInv ∧ t.PortInv := by
  by_cases he : otherAgent e = true
  · exact (State.Undisturbed.other he h hl hp).discipline
  cases e with
  | grant q ts =>
    rcases State.grant_next h with ⟨_, rfl⟩ | ⟨hc, rfl, rfl⟩ | ⟨p, i, hc, rfl, _, hi, hx⟩
    · exact ⟨hl, hp⟩
    · exact (State.Undisturbed.grantWorker hl hp hc).discipline
    · obtain ⟨hlock, hwait, _⟩ := (s.canGrant_iff _).1 hc
      exact exec_discipline (p := p) hi hx rfl (hl.grantedPort ts hlock) (hp.grantedPort ts (List.contains_iff_mem.1 hwait))
  | turns ts =>
    rcases State.takeTurns_next h with rfl | ⟨p, i, ho, _, _, hi, hx⟩
    · exact ⟨hl, hp⟩
    · have k := State.Undisturbed.withRun hl hp s.draw ts
      exact exec_discipline (s := { s with turns := ts }) hi hx ho k.lock k.ports
  | companion a =>
    injection h with h; subst h
    exact ((s.companionStep_companionSame a).undisturbed hl hp).discipline
  | reset b =>
    injection h with h; subst h
    exact ⟨(State.resetWith_lockInv s.cfg).congr rfl rfl .rfl rfl rfl rfl rfl,
      (State.resetWith_portInv s.cfg).mono (fun _ => rfl) rfl rfl (fun _ => id) fun _ => id⟩
  | lockTimeout q =>
    injection h with h; subst h
    exact (State.Undisturbed.lockTimeout hl hp q).discipline
  | _ => exact absurd rfl he

/-- Settles O54: the discipline is no matter of the tape, and every event keeps it. -/
theorem lockAndPortDisciplineKept : Obligations.LockAndPortDisciplineKept := by
  intro s t hl hp h
  obtain ⟨rest, k, h⟩ := step_next h
  exact State.perform_discipline (hl.withTape rest k) (hp.withTape rest k) h

/-! ### Ring offsets stay below the size (R192, R195, R196) -/

theorem norm_lt {v S w : Nat} (hS : 1 ≤ S) (h : norm v S = some w) : w < S := by
  unfold norm at h
  split at h
  · cases h; assumption
  · split at h
    · cases h; exact hS
    · cases h

/-- `free` without the remainder: what is left of S - 1 when the words from `r` to `w` are taken. -/
theorem free_eq {r w S : Nat} (hr : r < S) (hw : w < S) : free r w S = if r ≤ w then S - 1 - (w - r) else r - w - 1 := by
  unfold free used
  split
  · rw [show w + S - r = w - r + S by omega, Nat.add_mod_right, Nat.mod_eq_of_lt (by omega)]
  · rw [Nat.mod_eq_of_lt (by omega)]; omega

theorem readSpans_lt {r w S : Nat} (max : Nat) (hr : r < S) (hw : w < S) : (readSpans r w S max).2 < S := by
  unfold readSpans
  dsimp only
  by_cases hrw : r > w
  · simp only [hrw, if_true, and_true]
    split_ifs <;> dsimp only <;> omega
  · simp only [hrw, if_false, and_false]
    split_ifs <;> dsimp only <;> omega

theorem writeSpans_lt {r w S N : Nat} (hr : r < S) (hw : w < S) (hN : N ≤ free r w S) : (writeSpans r w S N).2 < S := by
  rw [free_eq hr hw] at hN
  unfold writeSpans
  dsimp only
  by_cases hrw : r ≤ w
  · simp only [ge_iff_le, hrw, if_true, true_and] at hN ⊢
    split_ifs <;> dsimp only <;> omega
  · simp only [ge_iff_le, hrw, if_false, false_and] at hN ⊢
    split_ifs <;> dsimp only <;> omega

/-! ### The descriptors while a command runs (R26, R205) -/

/-- R26 on the whole table: every valid descriptor has its bounds. -/
def State.RingsBounded (s : State) : Prop := ∀ k, (s.chan k).valid = true → (s.chan k).bounded

/-- What a Q_READ or Q_WRITE that has not committed has of its descriptor at a label: valid unless a lock timeout may take that,
bounded, and the offset it carries below the size. -/
structure Chan.Serves (d : Chan) (p : Params) (l : Label) : Prop where
  valid : p.lockTimeout = false → d.valid = true
  bounded : d.bounded
  carried : ∀ off, carriedOffset l = some off → off < d.size

/-- What the machine's invariant asks of the descriptors while `i` runs: their bounds, ZeroDesc in a Q_INIT body, and a descriptor
that serves an access. -/
structure State.ChanInv (i : Instr) (s : State) : Prop where
  bounded : s.RingsBounded
  body : ∀ c, bodyChannel i s.seq.step = some c → s.chan c.toNat = Chan.zero
  access : ∀ c, checkedChannel i = some c → beforeCommit s.seq.step = true → (s.chan c.toNat).Serves s.cfg s.seq.step

/-- The labels outside a Q_INIT body and outside an access before its commit. -/
def Label.quiet : Label → Bool
  | .off => true
  | .entry => true
  | .hold _ _ => true
  | .bellSet _ _ => true
  | .bellClear _ _ => true
  | .bellIrq _ _ => true
  | .respond _ _ _ => true
  | _ => false

theorem bodyChannel_quiet {l : Label} (hl : l.quiet = true) (i : Instr) : bodyChannel i l = none := by
  cases l <;> simp only [Label.quiet, Bool.false_eq_true] at hl <;> cases i <;> rfl

theorem beforeCommit_quiet {l : Label} (hl : l.quiet = true) : beforeCommit l = false := by
  cases l <;> simp only [Label.quiet, Bool.false_eq_true] at hl <;> rfl

/-- A command of a checked channel has no Q_INIT body. -/
theorem bodyChannel_checked {i : Instr} {c : BitVec 4} (hi : checkedChannel i = some c) (l : Label) : bodyChannel i l = none := by
  cases i <;> simp only [checkedChannel, reduceCtorEq] at hi <;> rfl

theorem State.RingsBounded.setChan {s : State} (h : s.RingsBounded) (i : Nat) {d : Chan} (hd : d.valid = true → d.bounded) :
    (s.setChan i d).RingsBounded := by
  intro k
  rw [State.setChan_chan]
  split
  · exact hd
  · exact h k

theorem State.RingsBounded.ofChan {s t : State} (h : s.RingsBounded)
    (hchan : ∀ k, t.chan k = s.chan k ∨ t.chan k = (s.chan k).invalidated) : t.RingsBounded := by
  intro k hv
  rcases hchan k with e | e <;> rw [e] at hv ⊢
  · exact h k hv
  · simp at hv

theorem State.ChanInv.ofQuiet {i : Instr} {s : State} (hb : s.RingsBounded) (hl : s.seq.step.quiet = true) : s.ChanInv i where
  bounded := hb
  body := by simp [bodyChannel_quiet hl]
  access := by simp [beforeCommit_quiet hl]

theorem State.ChanInv.ofBody {i : Instr} {s : State} (hi : checkedChannel i = none) (hb : s.RingsBounded)
    (hbody : ∀ c, bodyChannel i s.seq.step = some c → s.chan c.toNat = Chan.zero) : s.ChanInv i where
  bounded := hb
  body := hbody
  access := by simp [hi]

theorem State.ChanInv.ofAccess {i : Instr} {c : BitVec 4} {s : State} (hi : checkedChannel i = some c) (hb : s.RingsBounded)
    (hs : beforeCommit s.seq.step = true → (s.chan c.toNat).Serves s.cfg s.seq.step) : s.ChanInv i where
  bounded := hb
  body := by simp [bodyChannel_checked hi]
  access c' hc' := by rw [hi] at hc'; cases hc'; exact hs

/-- At the same label or a quiet one, with descriptors that are the same or, under LOCK_TIMEOUT, invalidated. -/
theorem State.ChanInv.transfer {i : Instr} {s t : State} (h : s.ChanInv i) (hcfg : t.cfg = s.cfg)
    (hstep : t.seq.step = s.seq.step ∨ t.seq.step.quiet = true)
    (hchan : ∀ k, t.chan k = s.chan k ∨ s.cfg.lockTimeout = true ∧ t.chan k = (s.chan k).invalidated) : t.ChanInv i := by
  have hb : t.RingsBounded := h.bounded.ofChan fun k => (hchan k).imp_right And.right
  rcases hstep with hstep | hstep
  swap
  · exact .ofQuiet hb hstep
  refine ⟨hb, fun c hc => ?_, fun c hc hl => ?_⟩
  · rw [hstep] at hc
    rcases hchan c.toNat with e | ⟨_, e⟩ <;> simp [e, h.body c hc]
  · rw [hstep] at hl ⊢
    have k := h.access c hc hl
    rcases hchan c.toNat with e | ⟨ht, e⟩ <;> rw [e, hcfg]
    · exact k
    · exact ⟨by simp [ht], k.bounded, k.carried⟩

theorem State.chan_congr {s t : State} (h : t.ch = s.ch) (k : Nat) : t.chan k = s.chan k := by simp [State.chan, h]

/-- The descriptor ZeroDesc is written to reads as ZeroDesc, in the table or not. -/
theorem State.setChan_zero_chan (s : State) (k : Nat) : (s.setChan k Chan.zero).chan k = Chan.zero := by
  rw [State.setChan_chan]
  split
  · rfl
  · rename_i h
    simp only [true_and, Nat.not_lt] at h
    simp [State.chan, h]

/-! ### A turn keeps what the descriptors are held to -/

/-- A step to the response keeps the descriptors' bounds, and that is all a response needs. -/
theorem State.RingsBounded.goto {i : Instr} {s : State} (h : s.RingsBounded) {l : Label} (hl : l.quiet = true) :
    (s.goto l).ChanInv i := .ofQuiet h hl

theorem State.ChanInv.respondTurn {i : Instr} {s : State} (h : s.ChanInv i) : s.respondTurn.ChanInv i := by
  unfold State.respondTurn
  split
  · exact h.transfer (by simp) (.inr (by simp [Label.quiet])) fun k => .inl (State.chan_congr (by simp) k)
  · exact h

theorem State.ChanInv.localTurn {i : Instr} {s : State} (h : s.ChanInv i) : s.localTurn.ChanInv i := by
  unfold State.localTurn
  split
  · split
    · exact State.RingsBounded.goto (s := s.wedge) h.bounded rfl
    · exact h
  · exact h.respondTurn

theorem State.ChanInv.transact {i : Instr} {s : State} (h : s.ChanInv i) (r : BusRec) : (s.transact r).ChanInv i :=
  h.transfer (by simp) (.inl (by simp)) fun k => .inl (by simp)

/-- A turn keeps `ChanInv` where what follows its transaction does. -/
theorem State.ChanInv.turnWith {i : Instr} {record : Option BusRec} {onValue : Half → State → State} {onWritten : State → State}
    {s : State} (h : s.ChanInv i) (hv : ∀ v t, t.ChanInv i → (onValue v t).ChanInv i)
    (hw : ∀ t, t.ChanInv i → (onWritten t).ChanInv i) : (s.turnWith record onValue onWritten).ChanInv i := by
  apply State.turnWith_ind (P := State.ChanInv i)
  · intro _; exact h.localTurn
  · intro r _ _; exact h.transact r
  · intro r _ _; exact h.transact r
  · intro r _ _
    obtain ⟨n, data, e⟩ := (s.transact r).endEarly_eq .busError
    rw [e]; exact (h.transact r).bounded.goto rfl
  · intro r v _ _ _ _; exact hv v _ (h.transact r)
  · intro r _ _ _; exact hw _ (h.transact r)

theorem State.ChanInv.afterPoll {i : Instr} {s : State} (hb : s.RingsBounded) {second : Bool} {polls : Nat} (v : Half) {next : Label}
    (hnext : (s.goto next).ChanInv i) (hpoll : (s.goto (.poll second (polls + 1))).ChanInv i) :
    (s.afterPoll second polls v next).ChanInv i := by
  rcases s.afterPoll_cases second polls v next with e | e | e <;> rw [e]
  · exact hnext
  · exact hpoll
  · exact State.RingsBounded.goto (s := s.wedge) hb rfl

/-! #### Q_INIT bodies (R205, R226) -/

theorem descLoaded_bounded {f b rv wv : Word} (h : descInvalid f b rv wv = false) : (descLoaded f b).bounded := by
  have hsize : flagsSize f ≠ 0 := by simp [descInvalid] at h; exact h.2
  have hlt : flagsSize f < 65536 := (f.extractLsb' 16 16).isLt
  simp only [Chan.bounded, descLoaded]
  omega

/-- Inside a body every label is of the same channel. -/
theorem State.ChanInv.gotoBody {i : Instr} {s : State} (hi : checkedChannel i = none) (h : s.ChanInv i) {l : Label}
    (hl : bodyChannel i l = bodyChannel i s.seq.step) : (s.goto l).ChanInv i :=
  .ofBody hi h.bounded fun c hc => h.body c (hl ▸ hc)

theorem State.ChanInv.bodyValue {i : Instr} {c : BitVec 4} {onOk : State → State} {bad : Status} {s : State}
    (hi : checkedChannel i = none) (h : s.ChanInv i) (v : Half) (hOk : ∀ u, u.RingsBounded → (onOk u).ChanInv i) :
    (s.bodyValue c onOk bad v).ChanInv i := by
  unfold State.bodyValue
  split
  · rename_i hs
    exact .afterPoll h.bounded v (h.gotoBody hi (by rw [hs]; cases i <;> rfl)) (h.gotoBody hi (by rw [hs]; cases i <;> rfl))
  · rename_i hs
    exact h.gotoBody hi (by rw [hs]; cases i <;> rfl)
  · rename_i hs
    dsimp only
    split
    · exact h.gotoBody hi (by rw [hs]; cases i <;> rfl)
    · unfold State.finishBody
      split
      · split
        · exact h.bounded.goto rfl
        · rename_i hd
          exact hOk _ (h.bounded.setChan _ fun _ => descLoaded_bounded (by simpa using hd))
      · exact h
  · exact h

/-- A body starts with its channel at ZeroDesc. -/
theorem State.RingsBounded.startBody {i : Instr} {s : State} (h : s.RingsBounded) (hi : checkedChannel i = none) {second : Bool}
    {c : BitVec 4} (hc : bodyChannel i (.poll second 0) = some c) : (s.startBody second c).ChanInv i := by
  refine .ofBody hi (h.setChan _ (by simp [Chan.zero])) fun c' hc' => ?_
  obtain rfl : c = c' := Option.some.inj (hc.symm.trans hc')
  exact s.setChan_zero_chan c.toNat

/-- A registration writes the callback only. -/
theorem State.RingsBounded.register {s : State} (h : s.RingsBounded) (x : BitVec 4) (ctx : Word) : (s.register x ctx).RingsBounded :=
  h.setChan _ (h x.toNat)

theorem State.RingsBounded.openNext {s : State} (h : s.RingsBounded) (tx rx : BitVec 4) (ctx : Word) (second : Bool) :
    (s.openNext tx rx ctx second).ChanInv (.openPair tx rx ctx) := by
  unfold State.openNext
  split
  · exact State.RingsBounded.goto ((h.register tx ctx).register rx ctx) rfl
  · exact h.startBody rfl rfl

/-! #### Q_READ and Q_WRITE (R210, R220) -/

section Access
variable {i : Instr} {c : BitVec 4} {s : State}

/-- Before the commit a label may carry on the offset of the one before, or none. -/
theorem State.ChanInv.gotoAccess (hi : checkedChannel i = some c) (h : s.ChanInv i) (hs : beforeCommit s.seq.step = true) {l : Label}
    (hl : carriedOffset l = none ∨ carriedOffset l = carriedOffset s.seq.step) : (s.goto l).ChanInv i := by
  have k := h.access c hi hs
  refine .ofAccess hi h.bounded fun _ => ⟨k.valid, k.bounded, fun off (ho : carriedOffset l = some off) => ?_⟩
  rcases hl with e | e <;> rw [e] at ho
  · cases ho
  · exact k.carried off ho

/-- The refresh of an offset, or its commit: the descriptor keeps `valid` and size, and every offset stays below the size. -/
theorem State.ChanInv.setOffset (hi : checkedChannel i = some c) (h : s.ChanInv i) (hs : beforeCommit s.seq.step = true) {d : Chan}
    {l : Label} (hvalid : d.valid = (s.chan c.toNat).valid) (hsize : d.size = (s.chan c.toNat).size)
    (hrd : d.rd < (s.chan c.toNat).size) (hwr : d.wr < (s.chan c.toNat).size)
    (hl : ∀ off, carriedOffset l = some off → off < (s.chan c.toNat).size) : ((s.setChan c.toNat d).goto l).ChanInv i := by
  have k := h.access c hi hs
  obtain ⟨hone, htop, _, _⟩ := k.bounded
  have hd : d.bounded := by rw [Chan.bounded, hsize]; exact ⟨hone, htop, hrd, hwr⟩
  refine .ofAccess hi (h.bounded.setChan _ fun _ => hd) fun _ => ?_
  show Chan.Serves ((s.setChan c.toNat d).chan c.toNat) s.cfg l
  rw [State.setChan_chan]
  split
  · exact ⟨fun e => hvalid.trans (k.valid e), hd, fun off ho => hsize ▸ hl off ho⟩
  · exact ⟨k.valid, k.bounded, hl⟩

theorem State.ChanInv.afterBell (h : s.ChanInv i) : s.afterBell.ChanInv i := by
  unfold State.afterBell
  split
  · exact h.bounded.goto rfl
  · exact h.bounded.goto rfl
  · exact h.bounded.goto rfl
  · exact h

end Access

theorem carriedOffset_afterGet (slots : List Nat) (out : List Word) (r : Nat) : carriedOffset (afterGet slots out r) = some r := by
  cases slots <;> rfl

theorem carriedOffset_afterPut (todo : List (Nat × Word)) (w n : Nat) : carriedOffset (afterPut todo w n) = some w := by
  cases todo <;> rfl

theorem State.ChanInv.readRefreshed {c : BitVec 4} {n : BitVec 16} {s : State} (h : s.ChanInv (.qRead c n))
    (hs : beforeCommit s.seq.step = true) (max : Nat) (wv : Word) : (s.readRefreshed c max wv).ChanInv (.qRead c n) := by
  obtain ⟨hone, _, hrd, _⟩ := (h.access c rfl hs).bounded
  cases hn : norm wv.toNat (s.chan c.toNat).size with
  | none => rw [State.readRefreshed_none hn]; exact h.bounded.goto rfl
  | some w =>
    have hw := norm_lt hone hn
    rw [State.readRefreshed_some hn]
    refine h.setOffset rfl hs rfl rfl hrd hw fun off ho => ?_
    rw [carriedOffset_afterGet] at ho
    cases ho
    exact readSpans_lt max hrd hw

theorem State.ChanInv.readValue {c : BitVec 4} {n : BitVec 16} {s : State} (h : s.ChanInv (.qRead c n)) (max : Nat) (v : Half) :
    (s.readValue c max v).ChanInv (.qRead c n) := by
  unfold State.readValue
  split
  · rename_i hs
    have hb : beforeCommit s.seq.step = true := by rw [hs]; rfl
    exact .afterPoll h.bounded v (h.gotoAccess rfl hb (.inl rfl)) (h.gotoAccess rfl hb (.inl rfl))
  · rename_i hs
    exact h.gotoAccess rfl (by rw [hs]; rfl) (.inl rfl)
  · rename_i hs
    exact h.readRefreshed (by rw [hs]; rfl) max _
  · rename_i hs
    exact h.gotoAccess rfl (by rw [hs]; rfl) (.inr (by rw [hs]; rfl))
  · rename_i hs
    exact h.gotoAccess rfl (by rw [hs]; rfl) (.inr (by rw [hs]; exact carriedOffset_afterGet ..))
  · exact h

theorem State.ChanInv.readWritten {c : BitVec 4} {n : BitVec 16} {s : State} (h : s.ChanInv (.qRead c n)) :
    (s.readWritten c).ChanInv (.qRead c n) := by
  unfold State.readWritten
  split
  · rename_i hs
    exact h.gotoAccess rfl (by rw [hs]; rfl) (.inr (by rw [hs]; rfl))
  · rename_i hs
    have hb : beforeCommit s.seq.step = true := by rw [hs]; rfl
    have k := h.access c rfl hb
    obtain ⟨_, _, _, hwr⟩ := k.bounded
    exact h.setOffset rfl hb rfl rfl (k.carried _ (by rw [hs]; rfl)) hwr fun _ ho => by cases ho
  · exact h.afterBell

theorem State.ChanInv.writeRefreshed {c : BitVec 4} {ws : List Word} {s : State} (h : s.ChanInv (.qWrite c ws))
    (hs : beforeCommit s.seq.step = true) (rv : Word) : (s.writeRefreshed c ws rv).ChanInv (.qWrite c ws) := by
  obtain ⟨hone, _, _, hwr⟩ := (h.access c rfl hs).bounded
  cases hn : norm rv.toNat (s.chan c.toNat).size with
  | none => rw [State.writeRefreshed_none hn]; exact h.bounded.goto rfl
  | some r =>
    have hr := norm_lt hone hn
    rcases Nat.lt_or_ge (free r (s.chan c.toNat).wr (s.chan c.toNat).size) ws.length with hf | hf
    · rw [State.writeRefreshed_full hn hf]
      exact h.setOffset rfl hs rfl rfl hr hwr fun off ho => by cases ho
    · rw [State.writeRefreshed_some hn hf]
      refine h.setOffset rfl hs rfl rfl hr hwr fun off ho => ?_
      rw [carriedOffset_afterPut] at ho
      cases ho
      exact writeSpans_lt hr hwr hf

theorem State.ChanInv.writeValue {c : BitVec 4} {ws : List Word} {s : State} (h : s.ChanInv (.qWrite c ws)) (v : Half) :
    (s.writeValue c ws v).ChanInv (.qWrite c ws) := by
  unfold State.writeValue
  split
  · rename_i hs
    have hb : beforeCommit s.seq.step = true := by rw [hs]; rfl
    exact .afterPoll h.bounded v (h.gotoAccess rfl hb (.inl rfl)) (h.gotoAccess rfl hb (.inl rfl))
  · rename_i hs
    exact h.gotoAccess rfl (by rw [hs]; rfl) (.inl rfl)
  · rename_i hs
    exact h.writeRefreshed (by rw [hs]; rfl) _
  · exact h

theorem State.ChanInv.writeWritten {c : BitVec 4} {ws : List Word} {s : State} (h : s.ChanInv (.qWrite c ws)) :
    (s.writeWritten c ws).ChanInv (.qWrite c ws) := by
  unfold State.writeWritten
  split
  · rename_i hs
    exact h.gotoAccess rfl (by rw [hs]; rfl) (.inr (by rw [hs]; rfl))
  · rename_i hs
    exact h.gotoAccess rfl (by rw [hs]; rfl) (.inr (by rw [hs]; exact carriedOffset_afterPut ..))
  · rename_i hs
    exact h.gotoAccess rfl (by rw [hs]; rfl) (.inr (by rw [hs]; rfl))
  · rename_i hs
    have hb : beforeCommit s.seq.step = true := by rw [hs]; rfl
    have k := h.access c rfl hb
    obtain ⟨_, _, hrd, _⟩ := k.bounded
    exact h.setOffset rfl hb rfl rfl hrd (k.carried _ (by rw [hs]; rfl)) fun _ ho => by cases ho
  · exact h.afterBell

/-- Every turn of a command keeps what its descriptors are held to. -/
theorem commandTurn_chanInv {i : Instr} {s : State} (h : s.ChanInv i) : (commandTurn i s).ChanInv i := by
  cases i with
  | qInit c => exact h.turnWith (fun v t k => k.bodyValue rfl v fun u hu => hu.goto rfl) fun t k => k
  | qRead c n => exact h.turnWith (fun v t k => k.readValue _ v) fun t k => k.readWritten
  | qWrite c ws => exact h.turnWith (fun v t k => k.writeValue v) fun t k => k.writeWritten
  | openPair tx rx ctx =>
    exact h.turnWith (fun v t k => k.bodyValue rfl v fun u hu => hu.openNext tx rx ctx _) fun t k => k
  | shutdown => exact h.respondTurn
  | busRd16 _ => exact h
  | busWr16 _ _ => exact h

/-- A command begins with its Q_INIT body's channel at ZeroDesc, or with the valid descriptor the grant checked (R200). -/
theorem commandBegin_chanInv (i : Instr) {s : State} (h : s.RingsBounded) (he : s.seq.step = .entry) :
    (s.enter i (commandBody i)).ChanInv i := by
  have access {c : BitVec 4} (hi : checkedChannel i = some c) (hv : (s.chan c.toNat).valid = true) :
      (s.goto (.poll false 0)).ChanInv i :=
    .ofAccess hi h fun _ => ⟨fun _ => hv, h _ hv, fun _ ho => by cases ho⟩
  apply State.enter_ind (P := State.ChanInv i)
  · intro code _; exact .ofQuiet h (by simp [he, Label.quiet])
  · intro st
    refine .ofQuiet (h.ofChan fun k => ?_) (by simp [Label.quiet])
    rcases State.failInit_cases i s with ⟨e, _⟩ | ⟨c, _, e⟩
    · exact .inl (by rw [State.turnedAway, e]; rfl)
    · show (s.failInit i).chan k = _ ∨ (s.failInit i).chan k = _
      rw [e, State.setChan_chan]
      split
      · rename_i hk; exact .inr (by rw [hk.1])
      · exact .inl rfl
  · intro _ _ hvalid
    cases i with
    | qInit c => exact h.startBody rfl rfl
    | qRead c n => exact access rfl (hvalid c rfl)
    | qWrite c ws => exact access rfl (hvalid c rfl)
    | openPair tx rx ctx => exact h.startBody rfl rfl
    | shutdown =>
      refine .ofQuiet (fun k hv => ?_) rfl
      have hz : (s.shutDown.chan k).valid = false := by
        simp only [State.chan, State.shutDown, State.goto_ch, List.getD_eq_getElem?_getD, List.getElem?_map]
        cases s.ch[k]? <;> rfl
      simp [commandBody, hz] at hv
    | busRd16 _ => exact .ofQuiet h (by simp [commandBody, he, Label.quiet])
    | busWr16 _ _ => exact .ofQuiet h (by simp [commandBody, he, Label.quiet])

/-! ### The machine's invariant (R24, R26, R205) -/

theorem State.Inv.chanInv {s : State} (h : s.Inv) {i : Instr} (hi : s.currentInstr = some i) : s.ChanInv i where
  bounded := h.ring.bounded
  body c hc := h.body i c hi hc
  access c hc hl := by
    obtain ⟨valid, bounded, carried⟩ := h.ring.running c (by simp [State.accessing, hi, hc, hl])
    exact ⟨valid, bounded, carried⟩

theorem State.Inv.ofChanInv {s : State} (hmem : s.MemInv) (htable : s.TableInv) (hl : s.LockInv) (hp : s.PortInv)
    (hb : s.RingsBounded) (h : ∀ i, s.currentInstr = some i → s.ChanInv i) : s.Inv where
  mem := hmem
  table := htable
  body i c hi hc := (h i hi).body c hc
  ring := by
    refine ⟨hb, fun c hc => ?_⟩
    unfold State.accessing at hc
    split at hc
    · rename_i i hi
      simp only [Bool.and_eq_true, decide_eq_true_eq] at hc
      obtain ⟨valid, bounded, carried⟩ := (h i hi).access c hc.1 hc.2
      exact ⟨valid, bounded, carried⟩
    · cases hc
  lock := hl
  ports := hp

/-- A step that leaves the running command alone keeps the invariant where it keeps the canonical memory and the descriptors, but for
what a lock timeout takes. -/
theorem State.Inv.transfer {s t : State} (h : s.Inv) (k : s.Undisturbed t) (hmem : t.MemInv) (hcfg : t.cfg = s.cfg)
    (hlen : t.ch.length = s.ch.length) (hstep : t.seq.step = s.seq.step ∨ t.seq.step.quiet = true)
    (hchan : ∀ k, t.chan k = s.chan k ∨ s.cfg.lockTimeout = true ∧ t.chan k = (s.chan k).invalidated) : t.Inv := by
  have hb : s.RingsBounded := h.ring.bounded
  refine .ofChanInv hmem ?_ k.lock k.ports (hb.ofChan fun k => (hchan k).imp_right And.right) fun i hi => ?_
  · rw [State.TableInv, hlen, hcfg]; exact h.table
  · exact (h.chanInv (k.command ▸ hi)).transfer hcfg hstep hchan

theorem State.Inv.other {s t : State} (h : s.Inv) (a : AgentSame s t) (k : s.Undisturbed t) : t.Inv :=
  h.transfer k (a.wf h.mem) a.cfg (by rw [a.ch]) (a.step.imp_right fun e => by rw [e]; rfl) fun i => .inl (State.chan_congr a.ch i)

theorem State.Inv.companion {s t : State} (h : s.Inv) (a : CompanionSame s t) : t.Inv :=
  h.transfer (a.undisturbed h.lock h.ports) (a.wf h.mem) a.cfg (by rw [a.ch])
    (a.step.imp_right fun ⟨_, _, _, e⟩ => by rw [e]; rfl) fun i => .inl (State.chan_congr a.ch i)

theorem State.Inv.withRun {s : State} (h : s.Inv) (d : Draw) (ts : List Turn) : State.Inv { s with draw := d, turns := ts } :=
  h.transfer (.withRun h.lock h.ports d ts) h.mem rfl rfl (.inl rfl) fun _ => .inl rfl

/-- A lock timeout takes at most `valid` and the callback of a descriptor (R105, R205). -/
theorem State.Inv.lockTimeout {s : State} (h : s.Inv) (q : Requester) : (s.lockTimeout q).Inv := by
  have a := s.lockTimeout_same q
  refine h.transfer (.lockTimeout h.lock h.ports q) (a.wf h.mem) a.cfg ?_ (a.step.imp_right fun e => by rw [e]; rfl) fun i => ?_
  · rcases s.lockTimeout_ch q with e | ⟨_, c, _, _, _, _, _, e⟩ <;> simp [e]
  · rcases s.lockTimeout_ch q with e | ⟨_, _, _, _, ht, _⟩
    · exact .inl (State.chan_congr e i)
    · exact (s.lockTimeout_chan q i).imp_right fun e => ⟨ht, e⟩

/-- The granted port's command stands at its entry, before any access or body. -/
theorem State.Inv.grantedPort {s : State} (h : s.Inv) {p : PortId} (ts : List Turn) (hc : s.canGrant (.port p) = true) :
    (s.grantedPort p ts).Inv := by
  obtain ⟨hlock, hwait, _⟩ := (s.canGrant_iff _).1 hc
  exact .ofChanInv h.mem h.table (h.lock.grantedPort ts hlock) (h.ports.grantedPort ts (List.contains_iff_mem.1 hwait))
    h.ring.bounded fun i _ => .ofQuiet h.ring.bounded rfl

/-- A command's beginning keeps the table's length and the parameters. -/
theorem commandBegin_table (i : Instr) {s : State} (h : s.TableInv) : (s.enter i (commandBody i)).TableInv := by
  by_cases hi : i = .shutdown
  · subst hi
    rw [shutdownBegin_cases]
    split
    · simpa [State.TableInv, State.shutDown] using h
    · exact h
  · have k := commandBegin_same hi s
    rw [State.TableInv, k.size, k.cfg]; exact h

theorem commandTurn_table (i : Instr) {s : State} (h : s.TableInv) : (commandTurn i s).TableInv := by
  rcases commandTurn_cases i s with ⟨st, n, data, _, e⟩ | k
  · rw [e]; simpa [State.TableInv] using h
  · rw [State.TableInv, k.size, k.cfg]; exact h

/-- A command's beginning keeps the invariant, and its command runs on. -/
theorem State.Inv.begin {i : Instr} {s : State} (h : s.Inv) (hi : s.currentInstr = some i) (he : s.seq.step = .entry) :
    (s.enter i (commandBody i)).Inv ∧ (s.enter i (commandBody i)).currentInstr = some i := by
  have k := State.Undisturbed.begin i h.lock h.ports (by simp [he])
  have hc := commandBegin_chanInv i h.ring.bounded he
  have hcur := k.command.trans hi
  refine ⟨.ofChanInv ?_ (commandBegin_table i h.table) k.lock k.ports hc.bounded fun j hj => ?_, hcur⟩
  · rw [State.MemInv, commandBegin_comp]; exact h.mem
  · obtain rfl : i = j := Option.some.inj (hcur.symm.trans hj)
    exact hc

/-- A turn keeps the invariant, and its command runs on until it has responded. -/
theorem State.Inv.turn {i : Instr} {s : State} (h : s.Inv) (hi : s.currentInstr = some i) (hs : s.seq.step ≠ .off) :
    (commandTurn i s).Inv ∧ ((commandTurn i s).seq.step ≠ .off → (commandTurn i s).currentInstr = some i) := by
  obtain ⟨tl, tp, hcur⟩ := State.Undisturbed.turn i h.lock h.ports hs
  have hc := commandTurn_chanInv (h.chanInv hi)
  refine ⟨.ofChanInv (commandTurn_wf i s h.mem) (commandTurn_table i h.table) tl tp hc.bounded fun j hj => ?_,
    fun hoff => (hcur hoff).trans hi⟩
  obtain ⟨p, ho, _⟩ := State.currentInstr_port hj
  obtain rfl : i = j := Option.some.inj ((((hcur (tl.step_of_port ho)).trans hi).symm).trans hj)
  exact hc

/-- A command's run keeps the invariant. -/
theorem exec_inv {i : Instr} {s t : State} (hi : isCommand i = true) (h : exec i s = .next t) (hcur : s.currentInstr = some i)
    (hs : s.Inv) : t.Inv := by
  refine (exec_ind (P := fun u => u.Inv ∧ (u.seq.step ≠ .off → u.currentInstr = some i)) hi h ?_ ?_).1
  · split
    · rename_i he
      obtain ⟨k, kcur⟩ := hs.begin hcur he
      exact ⟨k.withRun _ [], fun _ => kcur⟩
    · exact ⟨hs.withRun _ [], fun _ => hcur⟩
  · intro u d acts _ ⟨hu, ucur⟩ hend
    have hstep : u.seq.step ≠ .off := u.step_of_running hend
    have a := u.companionSteps_companionSame acts
    have acur := (a.undisturbed hu.lock hu.ports).command.trans (ucur hstep)
    obtain ⟨p, ho, _⟩ := State.currentInstr_port acur
    have k := (hu.companion a).withRun d (u.companionSteps acts).turns
    exact k.turn acur (k.lock.step_of_port ho)

theorem State.resetWith_chan (p : Params) (k : Nat) : (State.resetWith p).chan k = Chan.zero := by
  simp only [State.chan, State.resetWith, List.getD_eq_getElem?_getD, List.getElem?_replicate]
  split <;> rfl

theorem State.resetWith_ringsBounded (p : Params) : (State.resetWith p).RingsBounded := by
  intro k hv
  rw [State.resetWith_chan] at hv
  cases hv

theorem State.resetWith_inv (p : Params) : (State.resetWith p).Inv :=
  .ofChanInv rfl (by simp [State.TableInv, State.resetWith]) (State.resetWith_lockInv p) (State.resetWith_portInv p)
    (State.resetWith_ringsBounded p) fun _ _ => .ofQuiet (State.resetWith_ringsBounded p) rfl

/-- A reset step is the reset state with the companion, the log and the tape of before. -/
theorem State.Inv.resetStep {s : State} (h : s.Inv) (b : Nat) : (s.resetStep b).Inv := by
  have hr := State.resetWith_inv s.cfg
  have k : (State.resetWith s.cfg).Undisturbed (s.resetStep b) :=
    .samePorts hr.ports (hr.lock.congr rfl rfl .rfl rfl rfl rfl rfl) (fun _ => rfl) rfl rfl (fun _ => id) fun _ => .rfl
  exact hr.transfer k h.mem rfl rfl (.inl rfl) fun _ => .inl rfl

/-- Every event keeps the invariant. -/
theorem State.Inv.perform {e : Event} {s t : State} (hs : s.Inv) (h : s.perform e = .next t) : t.Inv := by
  by_cases he : otherAgent e = true
  · exact hs.other (State.perform_other he h) (.other he h hs.lock hs.ports)
  cases e with
  | grant q ts =>
    rcases State.grant_next h with ⟨_, rfl⟩ | ⟨_, rfl, _⟩ | ⟨p, i, hc, rfl, hp, hi, hx⟩
    · exact hs
    · exact absurd rfl he
    · exact exec_inv hi hx hp (hs.grantedPort ts hc)
  | turns ts =>
    rcases State.takeTurns_next h with rfl | ⟨p, i, ho, _, hp, hi, hx⟩
    · exact hs
    · have hcur : s.currentInstr = some i := by simpa only [State.currentInstr, ho] using hp
      exact exec_inv (s := { s with turns := ts }) hi hx hcur (hs.withRun s.draw ts)
  | companion a => injection h with h; subst h; exact hs.companion (s.companionStep_companionSame a)
  | reset b => injection h with h; subst h; exact hs.resetStep b
  | lockTimeout q => injection h with h; subst h; exact hs.lockTimeout q
  | _ => exact absurd rfl he

theorem State.Inv.withTape {s : State} (h : s.Inv) (rest : List Event) (k : Nat) : State.Inv { s with inputs := rest, clock := k } where
  mem := h.mem
  table := h.table
  body := h.body
  ring := ⟨h.ring.bounded, h.ring.running⟩
  lock := h.lock.withTape rest k
  ports := h.ports.withTape rest k

/-- Settles O55: the invariant is no matter of the tape, and every event keeps it. -/
theorem invariantKept : Obligations.InvariantKept := by
  intro s t hs h
  obtain ⟨rest, k, h⟩ := step_next h
  exact (hs.withTape rest k).perform h

/-- Settles O56: at reset every descriptor is ZeroDesc, nobody waits, and the session is Open. -/
theorem invariantAtReset : Obligations.InvariantAtReset :=
  fun p => ⟨State.resetWith_inv p, fun h => by cases h⟩

/-! ### Who writes descriptors (R25) -/

/-- Settles O50: of the events left only a lock timeout writes a descriptor. -/
theorem onlyCommandsWriteDescriptors : Obligations.OnlyCommandsWriteDescriptors := by
  intro s t h hgrant hturns hreset
  obtain ⟨rest, k, h⟩ := step_next h
  rcases State.perform_cases h with ⟨p, ts, _, e, _⟩ | ⟨_, ts, _, e, _⟩ | ⟨a, _, rfl⟩ | ⟨b, e, _⟩ | ⟨q, e, rfl⟩ | same
  · exact absurd e (hgrant p ts)
  · exact absurd e (hturns ts)
  · exact .inl (State.companionStep_companionSame _ a).ch
  · exact absurd e (hreset b)
  · rcases State.lockTimeout_ch q { s with inputs := rest, clock := k } with hch | ⟨p, c, rfl, hwait, htimeout, _, hp, hch⟩
    · exact .inl hch
    · exact .inr ⟨p, c, e, htimeout, hwait, hp, hch⟩
  · exact .inl same.ch

/-! ### The two bus transactions (R33, R87, R150, R151) -/

/-- The lock holder of a running block runs the bus instruction. -/
theorem State.asLockHolder_eq {f : State → State} {s : State} {q : Requester} (ho : s.seq.owner = some q) (hh : s.halted = false) :
    s.asLockHolder f = .next (f s) := by
  simp [State.asLockHolder, ho, hh]

/-- A status read shows BUSY at BUSY_BIT and the draw's bits elsewhere (R33). -/
theorem statusRead_other (p : Params) (busy : Bool) (noise : Half) {k : Nat} (hk : k ≠ p.busyBit.val) :
    (statusRead p busy noise).getLsbD k = noise.getLsbD k := by
  have bit : (1#16 <<< p.busyBit.val).getLsbD k = false := by
    simp only [BitVec.getLsbD_shiftLeft, BitVec.getLsbD_one, Bool.and_eq_false_iff, decide_eq_false_iff_not, Bool.not_eq_false']
    simp only [decide_eq_true_eq]
    omega
  cases busy
  · by_cases h16 : k < 16
    · simp only [statusRead, Bool.false_eq_true, if_false, BitVec.getLsbD_and, BitVec.getLsbD_not, bit]
      simp [h16]
    · simp [BitVec.getLsbD_of_ge _ _ (Nat.not_lt.1 h16)]
  · simp only [statusRead, if_true, BitVec.getLsbD_or, bit, Bool.or_false]

/-- Settles O9: the value is the companion's, register by register. -/
theorem busReadResult : Obligations.BusReadResult := by
  intro s q a ho hh heven
  refine ⟨s.comp.read16 s.cfg s.draw.noise a, ?_, ?_⟩
  · calc exec (.busRd16 a) s = s.asLockHolder (State.busRead a) := rfl
      _ = .next (s.busRead a) := State.asLockHolder_eq ho hh
      _ = _ := by cases hf : s.draw.fail <;> simp [State.busRead, heven, hf]
  · unfold Comp.read16
    split
    · exact ⟨busySeen_statusRead s.cfg s.comp.busy s.draw.noise, fun k _ hk => statusRead_other s.cfg s.comp.busy s.draw.noise hk⟩
    · (repeat' split) <;> rfl

/-- What a write makes of the companion, register by register, and what memory then reads at its address. -/
theorem Comp.write16_effect (p : Params) (a : Word) (v : Half) (c : Comp) (h : Memory.wf c.mem = true) :
    if a = p.regStatus then
      c.write16 p a v = { c with irqFromHost := c.irqFromHost + (if v.getLsbD p.irqBit.val then 1 else 0) }
    else if a = p.regH2C then c.write16 p a v = { c with h2c := v }
    else if a = p.regC2H then c.write16 p a v = { c with c2h := c.c2h &&& ~~~v }
    else Memory.read (c.write16 p a v).mem a.toNat = v := by
  unfold Comp.write16 irqWritten
  split
  · split <;> rfl
  · split
    · rfl
    · split
      · rfl
      · exact Memory.read_write_same c.mem a.toNat v h

/-- Settles O10: a write that takes effect is the companion's own; a failed one may also leave it as it was. -/
theorem busWriteResult : Obligations.BusWriteResult := by
  intro s q a v ho hh heven hmem
  have hexec : exec (.busWr16 a v) s = .next (s.busWrite a v) := State.asLockHolder_eq ho hh
  have effect := Comp.write16_effect s.cfg a v s.comp hmem
  refine ⟨s.busWrite a v, hexec, ?_, ?_⟩
  · cases hf : s.draw.fail <;> simp [State.busWrite, heven, hf]
  · by_cases hlost : s.draw.fail = true ∧ s.draw.landed = false
    · simp [State.busWrite, heven, hlost]
    · have hcomp : (s.busWrite a v).comp = s.comp.write16 s.cfg a v := by
        cases hf : s.draw.fail
        · simp [State.busWrite, heven, hf]
        · have hl : s.draw.landed = true := by simpa [hf] using hlost
          simp [State.busWrite, heven, hf, hl]
      rw [if_neg hlost, State.half, hcomp]
      exact effect

end Sys2Proof.Machine

/-! PROOFS. The statements of spec/20_memory.md: the two bus transactions' faults and frames (R80, R86), the lock's grant and timeout
(R100-R105), who uses the bus (R103), the canonical memory (R78), how commands end at the lock (R102, R200) and after a failed
transaction (R197), and that a ring gives back the words written to it (R89). -/

namespace Sys2Proof.Machine

/-! ### Canonical memory (R70, R78) -/

/-- A command's run keeps memory canonical: only its transactions and the companion write it. -/
theorem exec_memInv {i : Instr} {s t : State} (hi : isCommand i = true) (h : exec i s = .next t) (hs : s.MemInv) : t.MemInv := by
  refine exec_ind (P := State.MemInv) hi h ?_ ?_
  · split
    · show Memory.wf (s.enter i (commandBody i)).comp.mem = true
      rw [commandBegin_comp]
      exact hs
    · exact hs
  · intro u d acts _ hu _
    exact commandTurn_wf i _ ((u.companionSteps_companionSame acts).wf hu)

theorem State.MemInv.perform {e : Event} {s t : State} (hs : s.MemInv) (h : s.perform e = .next t) : t.MemInv := by
  rcases State.perform_cases h with ⟨p, ts, i, _, _, _, hi, hx⟩ | ⟨p, ts, i, _, _, _, _, hi, hx⟩ | ⟨a, _, rfl⟩ | ⟨b, _, rfl⟩ |
    ⟨q, _, rfl⟩ | same
  · exact exec_memInv (s := s.grantedPort p ts) hi hx hs
  · exact exec_memInv (s := { s with turns := ts }) hi hx hs
  · exact s.companionStep_wf a hs
  · exact hs
  · exact (s.lockTimeout_same q).wf hs
  · exact same.wf hs

/-- Settles O53: every agent's step keeps the canonical form. -/
theorem memoryStaysCanonical : Obligations.MemoryStaysCanonical := by
  intro s t hs h
  obtain ⟨rest, k, h⟩ := step_next h
  exact State.MemInv.perform (s := { s with inputs := rest, clock := k }) hs h

/-! ### Who uses the bus (R103) -/

/-- A lock timeout makes no transaction. -/
theorem State.lockTimeout_bus (q : Requester) (s : State) :
    (s.lockTimeout q).comp = s.comp ∧ (s.lockTimeout q).busResult = s.busResult := by
  by_cases h : s.cfg.lockTimeout = true ∧ s.waiting.contains q = true ∧ s.halted = false
  · cases q with
    | port p => rw [State.lockTimeout_port h]; simp
    | worker => rw [State.lockTimeout, if_pos h]; simp
  · rw [State.lockTimeout, if_neg h]
    exact ⟨rfl, rfl⟩

theorem State.present_bus (p : PortId) (cmd : Word) (payload : List Word) (s : State) :
    (s.present p cmd payload).comp = s.comp ∧ (s.present p cmd payload).busResult = s.busResult := by
  unfold State.present
  split <;> simp

theorem State.presentInstr_bus (p : PortId) (i : Instr) (s : State) :
    (s.presentInstr p i).comp = s.comp ∧ (s.presentInstr p i).busResult = s.busResult := by
  unfold State.presentInstr
  split
  · exact s.present_bus p _ _
  · exact ⟨rfl, rfl⟩

/-- Of the agents that run no command only the worker makes transactions. -/
theorem State.perform_bus {e : Event} {s t : State} (he : otherAgent e = true) (hw : ∀ d, e ≠ .worker d)
    (h : s.perform e = .next t) : t.comp = s.comp ∧ t.busResult = s.busResult := by
  cases e <;> simp only [State.perform] at h
  case grant q ts =>
    rcases State.grant_next h with ⟨_, rfl⟩ | ⟨_, _, rfl⟩ | ⟨p, i, _, rfl, _⟩
    · exact ⟨rfl, rfl⟩
    · unfold State.lockedPhase
      (repeat' split) <;> exact ⟨rfl, rfl⟩
    · cases he
  case turns ts => cases he
  case companion a => cases he
  case reset b => cases he
  case lockTimeout q => cases he
  case worker d => exact absurd rfl (hw d)
  all_goals (injection h with h; subst h)
  case present p cmd payload =>
    unfold State.clientPresent
    split
    · exact ⟨rfl, rfl⟩
    · exact s.present_bus p cmd payload
  case take p => unfold State.take; split <;> simp
  case accept p => unfold State.accept; (repeat' split) <;> simp
  case passStart => unfold State.passStart; split <;> simp
  case handlerReturn ok =>
    unfold State.handlerReturn State.scanBit
    cases ok <;> dsimp only <;> (repeat' split) <;> exact ⟨rfl, rfl⟩
  case timerFire => unfold State.timerFire; split <;> exact ⟨rfl, rfl⟩
  case frameWrite p c grp typ words =>
    unfold State.frameWrite
    split
    · exact s.presentInstr_bus p _
    · exact ⟨rfl, rfl⟩
  case frameRead p c => unfold State.frameRead; split <;> simp
  case writeRetry p c words => unfold State.writeRetry; split <;> simp
  case progress p =>
    have next (g : Prog) (i : Instr) := (s.setProg p g).presentInstr_bus p i
    simp only [State.setProg_comp, State.setProg_busResult] at next
    unfold State.progress
    (repeat' split) <;> first | exact next _ _ | simp
  case frameDeadline p => unfold State.frameDeadline; (repeat' split) <;> simp

/-- Settles O51: a command runs only in its port's grant or turns, and of the other agents only the worker makes transactions,
while it holds the lock. -/
theorem onlyTheHolderUsesTheBus : Obligations.OnlyTheHolderUsesTheBus := by
  intro s t h hl hcomp
  obtain ⟨rest, k, h⟩ := step_next h
  generalize s.event = e at h hcomp ⊢
  by_cases he : otherAgent e = true
  · by_cases hw : ∃ d, e = .worker d
    · obtain ⟨d, rfl⟩ := hw
      rcases (State.perform_other he h).access with same | ho
      · exact .inl same
      · exact .inr (.inr (.inr (.inr ⟨d, rfl, hl.holder.trans ho⟩)))
    · exact .inl (State.perform_bus (s := { s with inputs := rest, clock := k }) he (fun d hd => hw ⟨d, hd⟩) h)
  cases e with
  | grant q ts =>
    rcases State.grant_next h with ⟨_, rfl⟩ | ⟨_, rfl, _⟩ | ⟨p, i, hc, rfl, _⟩
    · exact .inl ⟨rfl, rfl⟩
    · exact absurd rfl he
    · obtain ⟨hlock, hwait, _⟩ := (State.canGrant_iff _ _).1 hc
      exact .inr (.inr (.inl ⟨p, ts, rfl, List.contains_iff_mem.1 hwait, hlock⟩))
  | turns ts =>
    rcases State.takeTurns_next h with rfl | ⟨p, _, ho, _⟩
    · exact .inl ⟨rfl, rfl⟩
    · exact .inr (.inr (.inr (.inl ⟨p, ts, rfl, hl.holder.trans ho⟩)))
  | companion a => exact absurd rfl (hcomp a)
  | reset b => injection h with h; subst h; exact .inr (.inl ⟨b, rfl, rfl, rfl⟩)
  | lockTimeout q => injection h with h; subst h; exact .inl (State.lockTimeout_bus q _)
  | _ => exact absurd rfl he

/-! ### The lock's grant (R100, R101, R290) -/

/-- A command's beginning moves neither the lock nor who waits for it. -/
theorem commandBegin_lock (i : Instr) (s : State) :
    (s.enter i (commandBody i)).waiting = s.waiting ∧ (s.enter i (commandBody i)).sess.lock = s.sess.lock ∧
      (s.enter i (commandBody i)).seq.owner = s.seq.owner := by
  by_cases hi : i = .shutdown
  · subst hi
    rw [shutdownBegin_cases]
    split <;> exact ⟨rfl, rfl, rfl⟩
  · have k := commandBegin_same hi s
    exact ⟨k.waiting, k.lock, k.owner⟩

/-- A port's grant with no turns leaves the port alone out of the waiting set, with the lock in its hands. -/
theorem State.grantPort_takesLock {s : State} {p : PortId} {i : Instr} (hc : s.canGrant (.port p) = true)
    (hi : s.portInstr p = some i) :
    ∃ t, s.perform (.grant (.port p) []) = .next t ∧ t.waiting = s.waiting.filter (fun x => x ≠ .port p) ∧
      t.sess.lock = some (.port p) ∧ t.seq.owner = some (.port p) :=
  ⟨_, State.perform_grant [] hc hi, commandBegin_lock i (s.grantedPort p [])⟩

/-- The worker's grant: a Closed session ends the pass. -/
theorem State.lockedPhase_closed {s : State} (h : s.sess.isOpen = false) :
    s.lockedPhase = { s.release with wk := { s.wk with state := .idle, phase := .idle, bitmap := 0 } } := by
  simp only [State.lockedPhase, h, if_true]
  rfl

/-- The worker's grant: a wedged session leaves nothing to dispatch. -/
theorem State.lockedPhase_wedged {s : State} (h : s.sess.isOpen = true) (hw : s.sess.wedged = true) :
    s.lockedPhase = s.release.noDispatch := by
  simp [State.lockedPhase, h, hw]

/-- The worker's grant: a serving session has its mailbox read next. -/
theorem State.lockedPhase_serving {s : State} (h : s.sess.isOpen = true) (hw : s.sess.wedged = false) :
    s.lockedPhase = { s with wk := { s.wk with phase := .readMbox } } := by
  simp [State.lockedPhase, h, hw]

theorem State.lockedPhase_waiting (s : State) : s.lockedPhase.waiting = s.waiting := by
  unfold State.lockedPhase
  (repeat' split) <;> rfl

/-- The worker's grant is the start of its locked phase. -/
theorem State.grant_worker {s : State} (ts : List Turn) (hc : s.canGrant .worker = true) :
    s.perform (.grant .worker ts) = .next (s.granted .worker).lockedPhase := by
  simp only [State.perform, State.grant, hc, if_true]

/-- Who has been granted the lock waits no more. -/
theorem not_mem_filter_ne (q : Requester) (l : List Requester) : q ∉ l.filter (fun x => x ≠ q) := by simp

/-- Settles O47: a port's command begins with the lock in the port's hands; the worker keeps it on a serving session only. -/
theorem anyWaiterMayBeGranted : Obligations.AnyWaiterMayBeGranted := by
  intro s q hs hlock hwait hh
  have hc : s.canGrant q = true := (s.canGrant_iff q).2 ⟨hlock, List.contains_iff_mem.2 hwait, hh⟩
  rw [step_cons]
  cases q with
  | port p =>
    obtain ⟨cmd, payload, hp⟩ := hs.ports.waiting p hwait
    obtain ⟨i, hi⟩ := hs.ports.portInstr hp
    obtain ⟨t, ht, hleft, hl, ho⟩ := State.grantPort_takesLock hc hi
    exact ⟨t, ht, hleft ▸ not_mem_filter_ne _ _, hleft, by simp [hl, ho]⟩
  | worker =>
    have hleft : (s.granted .worker).lockedPhase.waiting = s.waiting.filter (fun x => x ≠ .worker) :=
      State.lockedPhase_waiting _
    refine ⟨_, State.grant_worker [] hc, hleft ▸ not_mem_filter_ne _ _, hleft, ?_⟩
    cases hopen : s.sess.isOpen with
    | false => rw [State.lockedPhase_closed (s := s.granted .worker) hopen]; simp
    | true =>
      cases hw : s.sess.wedged with
      | true => rw [State.lockedPhase_wedged (s := s.granted .worker) hopen hw]; simp
      | false => rw [State.lockedPhase_serving (s := s.granted .worker) hopen hw]; simp [State.granted]

/-! ### The worker's pass: its start, its grant and its end (R290, R297) -/

/-- With nothing to dispatch the worker's next step is the pass end (R297, log 6). -/
theorem State.workerStep_noDispatch {s : State} (d : Draw) (hh : s.halted = false) (hs : s.wk.state ≠ .idle) :
    s.noDispatch.workerStep d = s.noDispatch.passEnd := by
  have hn : ¬(s.noDispatch.halted = true ∨ s.noDispatch.wk.state = .idle) := by
    rintro (h | h)
    · exact absurd (hh.symm.trans h) (by decide)
    · exact hs h
  have hbits : lowestBit 0 0 = none := by decide
  rw [State.workerStep, if_neg hn]
  simp only [State.noDispatch, hbits]

/-- The pass start (R290), where the worker does not wait yet. -/
theorem State.passStart_eq {s : State} (hh : s.halted = false) (hidle : s.wk.state = .idle) (hpend : s.wk.pending = true)
    (hw : Requester.worker ∉ s.waiting) :
    s.passStart = { s with wk := { s.wk with pending := false, state := .dispatching, phase := .lock }
                           waiting := s.waiting ++ [.worker] } := by
  simp [State.passStart, State.addWaiting, hidle, hpend, hh, hw]

/-- Settles O42: the worker's grant in its three cases, by the session it finds. -/
theorem passStartAndGrant : Obligations.PassStartAndGrant := by
  intro s ts hh
  refine ⟨fun hidle hpend hw => ?_, fun hlock hwait => ?_⟩
  · rw [step_cons, ← State.passStart_eq hh hidle hpend hw]
    rfl
  · have hc : s.canGrant .worker = true := (s.canGrant_iff _).2 ⟨hlock, List.contains_iff_mem.2 hwait, hh⟩
    refine ⟨_, (step_cons s _).trans (State.grant_worker ts hc), ?_, ?_, fun hopen => ?_, fun hopen hw => ?_, fun hopen hw => ?_⟩
    · rw [State.lockedPhase_waiting]
      exact not_mem_filter_ne _ _
    · exact (State.perform_bus (e := .grant .worker ts) rfl (fun _ => nofun) (State.grant_worker ts hc)).1
    · rw [State.lockedPhase_closed (s := s.granted .worker) hopen]
      exact ⟨rfl, rfl, rfl, rfl, rfl⟩
    · rw [State.lockedPhase_wedged (s := s.granted .worker) hopen hw]
      refine ⟨rfl, rfl, fun hs d => ?_⟩
      have hend := State.workerStep_noDispatch (s := (s.granted .worker).release) d hh (fun e => by cases hs.symm.trans e)
      rw [step_cons, State.perform, hend, State.passEnd, if_pos (show (s.granted .worker).release.noDispatch.sess.isOpen = true from hopen)]
      rfl
    · rw [State.lockedPhase_serving (s := s.granted .worker) hopen hw]
      exact ⟨rfl, rfl, rfl⟩

/-! ### The lock timeout (R105) -/

/-- An invalidated descriptor reads so, in the table or not. -/
theorem State.setChan_invalidated_chan (s : State) (k : Nat) :
    (s.setChan k (s.chan k).invalidated).chan k = (s.chan k).invalidated := by
  rw [State.setChan_chan]
  split
  · rfl
  · rename_i h
    have hk : s.ch.length ≤ k := by simpa using h
    simp [State.chan, hk]

section LockTimeout
variable {s : State} {q : Requester}

/-- Without LOCK_TIMEOUT no requester times out. -/
theorem State.lockTimeout_off (h : s.cfg.lockTimeout = false) : s.lockTimeout q = s := by
  simp [State.lockTimeout, h]

/-- A waiting Q_INIT that times out invalidates its channel (R205, log 33). -/
theorem State.lockTimeout_init {p : PortId} {c : BitVec 4}
    (h : s.cfg.lockTimeout = true ∧ s.waiting.contains (.port p) = true ∧ s.halted = false) (hi : s.portInstr p = some (.qInit c)) :
    (s.lockTimeout (.port p)).ch = s.ch.set c.toNat (s.chan c.toNat).invalidated := by
  rw [State.lockTimeout, if_pos h]
  simp [hi, State.failInit]

/-- A timeout touches the lock and the session only in the waiting set and in `wedged`. -/
theorem State.lockTimeout_wedges (h : s.cfg.lockTimeout = true ∧ s.waiting.contains q = true ∧ s.halted = false) :
    (s.lockTimeout q).waiting = s.waiting.filter (fun x => x ≠ q) ∧ (s.lockTimeout q).sess = { s.sess with wedged := true } ∧
      (s.lockTimeout q).seq = s.seq ∧ (s.lockTimeout q).log = s.log := by
  cases q with
  | port p =>
    generalize e : s.lockTimeout (.port p) = t
    rw [State.lockTimeout_port h] at e
    subst e
    simp [State.dropWaiting, State.wedge]
  | worker =>
    rw [State.lockTimeout, if_pos h]
    exact ⟨rfl, rfl, rfl, rfl⟩

/-- A port that times out shows TIMEOUT, and the worker goes on as it was. -/
theorem State.lockTimeout_answers {p : PortId}
    (h : s.cfg.lockTimeout = true ∧ s.waiting.contains (.port p) = true ∧ s.halted = false) (hp : s.hasPort p = true) :
    ((s.lockTimeout (.port p)).port p).state = .responded (respWord .timeout 0) [] ∧ (s.lockTimeout (.port p)).wk = s.wk := by
  generalize e : s.lockTimeout (.port p) = t
  rw [State.lockTimeout_port h] at e
  subst e
  have hport : (((s.dropWaiting (.port p)).wedge.setPortState p (.responded (respWord .timeout 0) [])).port p).state =
      .responded (respWord .timeout 0) [] := by
    rw [State.setPortState, State.setPort_port_same _ _ _ (by cases p <;> exact hp)]
  exact ⟨by cases p <;> exact hport, by simp⟩

end LockTimeout

/-- Settles O48: a timeout by its requester, a port or the worker. -/
theorem lockTimeoutStep : Obligations.LockTimeoutStep := by
  intro s q hh hwait hl hport
  refine ⟨fun hoff => ?_, fun hon => ?_⟩
  · exact congrArg Host.Outcome.next (State.lockTimeout_off hoff)
  · have h : s.cfg.lockTimeout = true ∧ s.waiting.contains q = true ∧ s.halted = false := ⟨hon, List.contains_iff_mem.2 hwait, hh⟩
    obtain ⟨hwaiting, hsess, hseq, hlog⟩ := State.lockTimeout_wedges h
    refine ⟨s.lockTimeout q, rfl, hwaiting, hsess, hseq, (State.lockTimeout_bus q s).1, hlog, ?_, ?_, ?_⟩
    · intro failed k
      refine ⟨?_, fun hk => ?_⟩
      · rintro ⟨p, c, rfl, hi, rfl⟩
        exact (State.chan_congr (State.lockTimeout_init h hi) _).trans (s.setChan_invalidated_chan c.toNat)
      · rcases s.lockTimeout_ch q with e | ⟨p, c, rfl, _, _, _, hi, e⟩
        · exact State.chan_congr e k
        · exact (State.chan_congr (s := s.setChan c.toNat _) e k).trans
            (State.setChan_chan_other _ _ _ _ fun ek => hk ⟨p, c, rfl, hi, ek.symm⟩)
    · rintro p rfl
      exact State.lockTimeout_answers h (hport p rfl)
    · rintro rfl d
      have hs := (hl.worker_waits hwait).2
      have e : s.lockTimeout .worker = (s.dropWaiting .worker).wedge.noDispatch := by rw [State.lockTimeout, if_pos h]
      rw [step_cons, State.perform, e, State.workerStep_noDispatch (s := (s.dropWaiting .worker).wedge) d hh hs]
      rfl

/-! ### The two bus transactions at an odd address, and what they leave alone (R80, R86) -/

/-- The port whose command holds the lock is the one a fault names. -/
theorem State.commandPort_eq {s : State} {p : PortId} (ho : s.seq.owner = some (.port p)) : s.commandPort = p := by
  simp [State.commandPort, ho]

/-- Settles O11: both transactions raise the fault before they look at the companion. -/
theorem oddAddressFaults : Obligations.OddAddressFaults := by
  intro s q a v ho hh hodd
  have hread : s.busRead a = s.raise .misalignedBusAddress := by simp [State.busRead, hodd]
  have hwrite : s.busWrite a v = s.raise .misalignedBusAddress := by simp [State.busWrite, hodd]
  refine ⟨{ code := .misalignedBusAddress, port := s.commandPort, cmd := s.seq.cmd }, rfl, rfl, ?_, ?_, ?_⟩
  · rintro p rfl
    exact State.commandPort_eq ho
  · exact (State.asLockHolder_eq ho hh).trans (congrArg Host.Outcome.next hread)
  · exact (State.asLockHolder_eq ho hh).trans (congrArg Host.Outcome.next hwrite)

/-- A bus instruction that answers has made its transaction. -/
theorem State.asLockHolder_next {f : State → State} {s t : State} (h : s.asLockHolder f = .next t) : t = f s := by
  unfold State.asLockHolder at h
  split at h
  · cases h
  · split at h
    · cases h
    · injection h with h
      exact h.symm

/-- Settles O12: a read is a transaction that leaves the companion alone. -/
theorem busReadFrame : Obligations.BusReadFrame := by
  intro s t a h
  obtain rfl : t = s.transact (rd16 a) := State.asLockHolder_next h
  have hcomp := State.transact_read_comp (rd16_write a) s
  refine ⟨?_, fun x => by rw [State.half, hcomp]; rfl⟩
  obtain ⟨_, _, _, e⟩ := s.transact_same (rd16 a)
  rw [e] at hcomp ⊢
  cases hcomp
  rfl

/-- Only a bus write to REG_H2C_MBOX changes the H2C mailbox. -/
theorem Comp.write16_h2c (p : Params) (a : Word) (v : Half) (c : Comp) (h : a ≠ p.regH2C) : (c.write16 p a v).h2c = c.h2c := by
  unfold Comp.write16
  split
  · split <;> rfl
  · split <;> rfl

/-- Only a bus write to REG_STATUS counts an interrupt. -/
theorem Comp.write16_irqFromHost (p : Params) (a : Word) (v : Half) (c : Comp) (h : a ≠ p.regStatus) :
    (c.write16 p a v).irqFromHost = c.irqFromHost := by
  unfold Comp.write16
  (repeat' split) <;> first | rfl | exact absurd ‹_› h

/-- Settles O13: the companion stays as it was or takes the one write. -/
theorem busWriteFrame : Obligations.BusWriteFrame := by
  intro s t a v h
  obtain rfl : t = s.transact (wr16 a v) := State.asLockHolder_next h
  have frame : { s.transact (wr16 a v) with busResult := s.busResult, flt := s.flt, comp := s.comp } = s := by
    obtain ⟨_, _, _, e⟩ := s.transact_same (wr16 a v)
    rw [e]
  refine ⟨frame, s.transact_busy _, ?_⟩
  rcases s.transact_comp (wr16 a v) with e | ⟨_, e⟩ <;> simp only [State.half, e, implies_true, and_self]
  refine ⟨Comp.write16_irqFromHost _ _ _ _, Comp.write16_h2c _ _ _ _, Comp.write16_c2h _ _ _ _, fun x hx => ?_⟩
  rcases hx with hx | hreg
  · exact Comp.write16_read_other _ _ _ _ _ (toNat_ne hx)
  · exact congrArg (Memory.read · x.toNat) (Comp.write16_register_mem _ _ _ _ hreg)

/-! ### A channel that is not open (R200) -/

/-- Settles O25: the grant's check raises the fault, and a halted block takes no turns. -/
theorem unopenedChannelFaults : Obligations.UnopenedChannelFaults := by
  intro s p i c hc hop he hs hv
  have hi : isCommand i = true := by cases i <;> first | rfl | cases hc
  have hbegin : s.enter i (commandBody i) = s.raise .channelNotOpen := by
    simp [State.enter, hop, hs.isOpen, hs.wedged, hc, hv]
  rw [exec_command hi, State.runCommand_eq he.owner he.running (by simp [he.entry]), if_pos he.entry, hbegin]
  rw [State.runTurns_ended (by simp [State.ended, State.halted])]
  rw [State.raise, State.commandPort_eq he.owner]
  rfl

/-! ### A failed transaction, and the response step (R87, R197, R124) -/

/-- One turn of a command in progress, with the companion silent before it. -/
theorem exec_oneTurn {i : Instr} {s : State} {p : PortId} {d : Draw} (hi : isCommand i = true) (ho : s.seq.owner = some (.port p))
    (hh : s.halted = false) (hoff : s.seq.step ≠ .off) (hentry : s.seq.step ≠ .entry)
    (ht : s.turns = [{ before := [], draw := d }]) : exec i s = .next (commandTurn i { s with turns := [], draw := d }) := by
  rw [exec_command hi, State.runCommand_eq ho hh hoff, if_neg hentry, ht]
  have running : ({ s with turns := [] } : State).ended = false := by
    simp only [State.ended, Bool.or_eq_false_iff, decide_eq_false_iff_not]
    exact ⟨hh, hoff⟩
  rw [State.runTurns_cons running]
  rfl

/-- A command whose position makes a transaction is past its entry, has not ended, and is in no ReenableWait. -/
theorem turnRecord_running {i : Instr} {s : State} {r : BusRec} (h : turnRecord i s = some r) :
    isCommand i = true ∧ s.seq.step ≠ .off ∧ s.seq.step ≠ .entry ∧ ∀ n out, s.seq.step ≠ .hold n out := by
  refine ⟨(by cases i <;> first | rfl | cases h), ?_, ?_, ?_⟩
  all_goals
    intros
    intro e
    cases i <;> simp [turnRecord, e, bodyRecord, readRecord, writeRecord, bellRecord] at h

/-- A transfer that fails answers BUS_ERROR, and no fault is raised (R87). -/
theorem State.transact_failed {r : BusRec} {s : State} (heven : oddAddress r.addr = false) (hf : s.draw.fail = true) :
    (s.transact r).busResult = .busError ∧ (s.transact r).halted = s.halted := by
  rcases State.transact_cases r s with ⟨hodd, _⟩ | ⟨_, _, e⟩ | ⟨_, hgood, _⟩ | ⟨_, hgood, _⟩
  · simp [heven] at hodd
  · rw [e]; exact ⟨rfl, rfl⟩
  · simp [hf] at hgood
  · simp [hf] at hgood

/-- A transfer that fails ends the command early (R87, R197). -/
theorem commandTurn_failed {i : Instr} {s : State} {r : BusRec} (hr : turnRecord i s = some r) (heven : oddAddress r.addr = false)
    (hh : s.halted = false) (hf : s.draw.fail = true) : commandTurn i s = (s.transact r).endEarly .busError := by
  have fails (onValue : Half → State → State) (onWritten : State → State) :
      s.turnWith (some r) onValue onWritten = (s.transact r).endEarly .busError := by
    obtain ⟨hres, hrun⟩ := State.transact_failed heven hf
    rw [hh] at hrun
    simp only [State.turnWith, hrun, hres]
    rfl
  cases i <;> simp only [turnRecord, reduceCtorEq] at hr
  case qInit c => rw [commandTurn, initTurn, hr, fails]
  case qRead c n => rw [commandTurn, readTurn, hr, fails]
  case qWrite c ws => rw [commandTurn, writeTurn, hr, fails]
  case openPair tx rx ctx => simp only [commandTurn, openTurn, hr, fails]

/-- One turn whose transfer fails moves the command to its early end, and changes no descriptor and nothing of the session. -/
theorem exec_failed {i : Instr} {s : State} {p : PortId} {d : Draw} {r : BusRec} (ho : s.seq.owner = some (.port p))
    (hh : s.halted = false) (ht : s.turns = [{ before := [], draw := d }]) (hf : d.fail = true) (heven : oddAddress r.addr = false)
    (hr : turnRecord i s = some r) :
    ∃ t, exec i s = .next t ∧ t.seq.step = (s.endEarly .busError).seq.step ∧ t.ch = s.ch ∧ t.sess = s.sess := by
  obtain ⟨hi, hoff, hentry, _⟩ := turnRecord_running hr
  refine ⟨_, exec_oneTurn hi ho hh hoff hentry ht, ?_⟩
  have hr' : turnRecord i { s with turns := [], draw := d } = some r := by rw [← hr]; cases i <;> rfl
  rw [commandTurn_failed hr' heven hh hf]
  obtain ⟨n, data, e⟩ := (State.transact r { s with turns := [], draw := d }).endEarly_eq .busError
  refine ⟨?_, by simp [e], by simp [e]⟩
  unfold State.endEarly
  rw [State.transact_seq]
  dsimp only
  split <;> rfl

/-- The positions at which a Q_INIT body makes its transactions. -/
theorem bodyRecord_label {p : Params} {c : BitVec 4} {l : Label} {r : BusRec} (h : bodyRecord p c l = some r) :
    (∃ second n, l = .poll second n) ∨ (∃ second fields, l = .descLow second fields) ∨
      ∃ second fields lo, l = .descHigh second fields lo := by
  unfold bodyRecord at h
  split at h
  · exact .inl ⟨_, _, rfl⟩
  · exact .inr (.inl ⟨_, _, rfl⟩)
  · exact .inr (.inr ⟨_, _, _, rfl⟩)
  · cases h

/-- A transfer that fails in a Q_INIT body: COUNT 0, and the body's channel is ZeroDesc still (R205, R226). -/
theorem exec_failed_body {i : Instr} {s : State} {p : PortId} {c : BitVec 4} {d : Draw} {r : BusRec}
    (ho : s.seq.owner = some (.port p)) (hh : s.halted = false) (ht : s.turns = [{ before := [], draw := d }])
    (hf : d.fail = true) (heven : oddAddress r.addr = false) (hbody : s.BodyInv) (hi : s.portInstr p = some i)
    (hr : bodyRecord s.cfg c s.seq.step = some r) (hturn : turnRecord i s = some r)
    (hchan : bodyChannel i s.seq.step = some c) :
    ∃ t, exec i s = .next t ∧ t.seq.step = .respond .busError 0 [] ∧ t.chan c.toNat = Chan.zero ∧ t.ch = s.ch ∧
      t.sess = s.sess := by
  obtain ⟨t, hx, hstep, hch, hsess⟩ := exec_failed ho hh ht hf heven hturn
  have hcur : s.currentInstr = some i := by simpa only [State.currentInstr, ho] using hi
  refine ⟨t, hx, hstep.trans ?_, (State.chan_congr hch _).trans (hbody i c hcur hchan), hch, hsess⟩
  rcases bodyRecord_label hr with ⟨_, _, e⟩ | ⟨_, _, e⟩ | ⟨_, _, _, e⟩ <;> simp [State.endEarly, e]

/-- Every command's turn at its response is the response step (R124). -/
theorem commandTurn_respond {i : Instr} {s : State} {st : Status} {n : Nat} {data : List Word} (hi : isCommand i = true)
    (hs : s.seq.step = .respond st n data) : commandTurn i s = s.respond st n data := by
  have hlocal : s.localTurn = s.respond st n data := by simp only [State.localTurn, State.respondTurn, hs]
  cases i with
  | qInit c => rw [commandTurn, initTurn, hs]; exact hlocal
  | qRead c m => rw [commandTurn, readTurn, hs]; exact hlocal
  | qWrite c ws => rw [commandTurn, writeTurn, hs]; exact hlocal
  | openPair tx rx ctx => simp only [commandTurn, openTurn, hs]; exact hlocal
  | shutdown => simp only [commandTurn, State.respondTurn, hs]
  | busRd16 a => cases hi
  | busWr16 a v => cases hi

/-- Settles O26: the failed turn is `exec_failed` for every command; the response step is the same for every status. -/
theorem busErrorKeepsOffsets : Obligations.BusErrorKeepsOffsets := by
  refine ⟨fun s p c count words d r ho hh ht hf heven => ?_, fun s p i st n data d hrd hwr ho hport hh hs ht => ?_⟩
  · intro ended
    have early {i : Instr} (hr : turnRecord i s = some r) : (s.endEarly .busError).seq.step = ended := by
      obtain ⟨_, _, _, hhold⟩ := turnRecord_running hr
      cases hs : s.seq.step <;> simp only [State.endEarly, ended, hs, State.goto_step]
      exact absurd hs (hhold _ _)
    refine ⟨fun hr => ?_, fun hr => ?_, fun hr hbody => ⟨fun hi => ?_, ?_⟩⟩
    · obtain ⟨t, hx, hstep, hch, hsess⟩ := exec_failed (i := .qRead c count) ho hh ht hf heven hr
      exact ⟨t, hx, hstep.trans (early (i := .qRead c count) hr), hch, hsess⟩
    · obtain ⟨t, hx, hstep, hch, hsess⟩ := exec_failed (i := .qWrite c words) ho hh ht hf heven hr
      exact ⟨t, hx, hstep.trans (early (i := .qWrite c words) hr), hch, hsess⟩
    · refine exec_failed_body ho hh ht hf heven hbody hi hr hr ?_
      rcases bodyRecord_label hr with ⟨_, _, e⟩ | ⟨_, _, e⟩ | ⟨_, _, _, e⟩ <;> simp [bodyChannel, e]
    · rintro tx rx ctx hi rfl
      refine exec_failed_body ho hh ht hf heven hbody hi hr hr ?_
      rcases bodyRecord_label hr with ⟨_, _, e⟩ | ⟨_, _, e⟩ | ⟨_, _, _, e⟩ <;> simp [bodyChannel, e]
  · intro code
    have hi : isCommand i = true := by
      cases i <;> first | rfl | exact absurd rfl (hrd _) | exact absurd rfl (hwr _ _)
    have hcode : respWord st n = code ++ (0 : BitVec 12) ++ BitVec.ofNat 16 n := by cases st <;> rfl
    have hmid : ({ s with turns := [], draw := d } : State) =
        State.mid { s with turns := [] } (.respond st n data) d s.busResult := by rw [← hs]; rfl
    have answered := State.respond_answered (s' := { s with turns := [] }) (st := st) (n := n) (data := data) (d := d)
      (b := s.busResult) ho (by cases p <;> exact hport)
    rw [← hmid] at answered
    refine ⟨_, exec_oneTurn hi ho hh (by simp [hs]) (by simp [hs]) ht, ?_⟩
    rw [commandTurn_respond (s := { s with turns := [], draw := d }) hi hs, ← hcode]
    exact ⟨answered.response, by simp⟩

/-! ### The slots a command moves words through (R191, R194, R196) -/

/-- The `n` slots of a ring of size `S` from slot `r` on, modulo `S`. -/
def ringSlots (r n S : Nat) : List Nat := (List.range n).map fun j => (r + j) % S

@[simp] theorem ringSlots_length (r n S : Nat) : (ringSlots r n S).length = n := by simp [ringSlots]

theorem ringSlots_lt {r n S : Nat} (hS : 1 ≤ S) : ∀ j ∈ ringSlots r n S, j < S := by
  intro j hj
  obtain ⟨k, _, rfl⟩ := List.mem_map.1 hj
  exact Nat.mod_lt _ hS

/-- No slot comes twice in one turn around the ring. -/
theorem ringSlots_nodup {r n S : Nat} (hn : n ≤ S) : (ringSlots r n S).Nodup := by
  refine List.Nodup.map_on (fun i hi j hj e => ?_) List.nodup_range
  have hij : i ≡ j [MOD S] := Nat.ModEq.add_left_cancel' r e
  exact hij.eq_of_lt_of_lt (by have := List.mem_range.1 hi; omega) (by have := List.mem_range.1 hj; omega)

/-- Slots that do not go around the ring's end. -/
theorem ringSlots_straight {r n S : Nat} (h : r + n ≤ S) : ringSlots r n S = List.range' r n := by
  rw [ringSlots, List.range'_eq_map_range]
  exact List.map_congr_left fun j hj => Nat.mod_eq_of_lt (by have := List.mem_range.1 hj; omega)

/-- Slots that go around the ring's end: up to it, then from slot 0 on. -/
theorem ringSlots_wrap {r m S : Nat} (hr : r ≤ S) (hm : m ≤ r) :
    ringSlots r (S - r + m) S = List.range' r (S - r) ++ List.range' 0 m := by
  rw [ringSlots, List.range_add, List.map_append, List.map_map]
  congr 1
  · exact ringSlots_straight (by omega)
  · rw [List.range'_eq_map_range]
    refine List.map_congr_left fun j hj => ?_
    have := List.mem_range.1 hj
    show (r + (S - r + j)) % S = 0 + j
    rw [show r + (S - r + j) = j + S by omega, Nat.add_mod_right, Nat.mod_eq_of_lt (by omega), Nat.zero_add]

/-- `used` without the remainder. -/
theorem used_eq {r w S : Nat} (hr : r < S) (hw : w < S) : used r w S = if r ≤ w then w - r else S - r + w := by
  unfold used
  split
  · rw [show w + S - r = w - r + S by omega, Nat.add_mod_right, Nat.mod_eq_of_lt (by omega)]
  · rw [Nat.mod_eq_of_lt (by omega)]; omega

/-- `readSpans` without its case split: the queued slots from the read offset on, at most `max` of them (R196). -/
theorem readSpans_eq {r w S : Nat} (max : Nat) (hr : r < S) (hw : w < S) :
    readSpans r w S max = (ringSlots r (min max (used r w S)) S, (r + min max (used r w S)) % S) := by
  rw [used_eq hr hw]
  unfold readSpans
  dsimp only
  by_cases hrw : r ≤ w
  · have straight : r + min max (w - r) ≤ w := by omega
    simp only [hrw, Nat.not_lt.2 hrw, if_true, if_false, and_false, and_true, Nat.add_zero, Nat.sub_zero]
    rw [ringSlots_straight (by omega), Nat.mod_eq_of_lt (by omega)]
    split
    · rfl
    · have : max = 0 := by omega
      subst this; simp
  · have hlt : w < r := by omega
    simp only [hrw, hlt, if_true, if_false, and_true]
    by_cases hmax : max ≤ S - r
    · have hmin : min max (S - r) = max := by omega
      have hmin' : min max (S - r + w) = max := by omega
      rw [hmin, hmin', if_neg (by simp), ringSlots_straight (by omega)]
      split
      · rename_i e; rw [e, Nat.mod_self]
      · rw [Nat.mod_eq_of_lt (by omega)]
    · have hmin : min max (S - r) = S - r := by omega
      have hmin' : min max (S - r + w) = S - r + min (max - (S - r)) w := by omega
      rw [hmin, hmin', if_pos (show r + (S - r) = S by omega), if_pos ⟨by omega, Nat.zero_le _⟩, ringSlots_wrap hr.le (by omega)]
      rw [show r + (S - r + min (max - (S - r)) w) = min (max - (S - r)) w + S by omega, Nat.add_mod_right,
        Nat.mod_eq_of_lt (by omega)]
      simp

/-- `writeSpans` without its case split: as many free slots as asked for, from the write offset on (R196). -/
theorem writeSpans_eq {r w S N : Nat} (hr : r < S) (hw : w < S) (hN : N ≤ free r w S) :
    writeSpans r w S N = (ringSlots w N S, (w + N) % S) := by
  rw [free_eq hr hw] at hN
  unfold writeSpans
  dsimp only
  by_cases hrw : r ≤ w
  · simp only [ge_iff_le, hrw, if_true, true_and] at hN ⊢
    by_cases hfit : w + N ≤ S
    · have hmin : min N ((if r = 0 then S - 1 else S) - w) = N := by split <;> omega
      rw [hmin, if_neg (Nat.lt_irrefl N), ringSlots_straight hfit]
      split
      · rename_i e; rw [e, Nat.mod_self]
      · rw [Nat.mod_eq_of_lt (by omega)]
    · have hmin : min N ((if r = 0 then S - 1 else S) - w) = S - w := by split <;> omega
      obtain ⟨m, rfl⟩ : ∃ m, N = S - w + m := ⟨N - (S - w), by omega⟩
      rw [hmin, if_pos (show w + (S - w) = S by omega), if_pos (by omega), ringSlots_wrap hw.le (by omega)]
      rw [show w + (S - w + m) = m + S by omega, Nat.add_mod_right, Nat.mod_eq_of_lt (by omega)]
      simp
  · simp only [ge_iff_le, hrw, if_false, false_and] at hN ⊢
    rw [ringSlots_straight (by omega), Nat.mod_eq_of_lt (by omega)]
    split
    · simp
    · have : N = 0 := by omega
      subst this; simp

/-- Filling free slots uses as many more (R194). -/
theorem used_add {r w S N : Nat} (hr : r < S) (hw : w < S) (hN : N ≤ free r w S) : used r ((w + N) % S) S = used r w S + N := by
  rw [free_eq hr hw] at hN
  rw [used_eq hr hw, used_eq hr (Nat.mod_lt _ (by omega))]
  by_cases hrw : r ≤ w
  · rw [if_pos hrw] at hN ⊢
    by_cases h : w + N < S
    · rw [Nat.mod_eq_of_lt h, if_pos (by omega)]; omega
    · rw [show w + N = (w + N - S) + S by omega, Nat.add_mod_right, Nat.mod_eq_of_lt (by omega), if_neg (by omega)]; omega
  · rw [if_neg hrw] at hN ⊢
    rw [Nat.mod_eq_of_lt (by omega), if_neg (by omega)]; omega

/-- A read of an empty ring into which `n` words were written takes them all, where it may. -/
theorem used_written {r n S max : Nat} (hr : r < S) (hn : n < S) (hmax : n ≤ max) : n = min max (used r ((r + n) % S) S) := by
  have hempty : used r r S = 0 := by rw [used_eq hr hr, if_pos le_rfl, Nat.sub_self]
  have hfree : n ≤ free r r S := by rw [free_eq hr hr, if_pos le_rfl]; omega
  rw [used_add hr hr hfree, hempty]
  omega

/-! ### Words of companion memory (R74, R77, R153, R154) -/

/-- The words at two addresses have no half in common (R77). -/
structure WordsApart (a b : Word) : Prop where
  low : a ≠ b
  lowHigh : a ≠ b + 2
  highLow : a + 2 ≠ b

theorem WordsApart.high {a b : Word} (h : WordsApart a b) : a + 2 ≠ b + 2 := fun e => h.low (by simpa using e)

theorem WordsApart.symm {a b : Word} (h : WordsApart a b) : WordsApart b a := ⟨h.low.symm, h.highLow.symm, h.lowHigh.symm⟩

theorem joinHalves_halves (v : Word) : joinHalves (lowHalf v) (highHalf v) = v := by
  apply BitVec.eq_of_getLsbD_eq
  intro i hi
  simp only [joinHalves, lowHalf, highHalf, BitVec.getLsbD_append, BitVec.getLsbD_extractLsb']
  by_cases h : i < 16
  · simp [h]
  · simp [h, show i - 16 < 16 by omega, show 16 + (i - 16) = i by omega]

/-- The word at `a` set to `v`: what WR32 (R154) makes of plain memory. -/
def State.setWord (s : State) (a v : Word) : State :=
  { s with comp := { s.comp with mem := Memory.write (Memory.write s.comp.mem a.toNat (lowHalf v)) (a + 2).toNat (highHalf v) } }

/-- The two transactions of WR32 at plain memory. -/
theorem State.setWord_eq {s : State} {a : Word} (v : Word) (hlow : PlainAddr s.cfg a) (hhigh : PlainAddr s.cfg (a + 2)) :
    ({ s with comp := (s.comp.write16 s.cfg a (lowHalf v)).write16 s.cfg (a + 2) (highHalf v) } : State) = s.setWord a v := by
  rw [Comp.write16_plain _ _ _ _ hhigh.status hhigh.h2c hhigh.c2h, Comp.write16_plain _ _ _ _ hlow.status hlow.h2c hlow.c2h]
  rfl

section SetWord
variable (s : State) (a v : Word)
@[simp] theorem State.setWord_cfg : (s.setWord a v).cfg = s.cfg := rfl
@[simp] theorem State.setWord_ch : (s.setWord a v).ch = s.ch := rfl
@[simp] theorem State.setWord_chan (i : Nat) : (s.setWord a v).chan i = s.chan i := rfl

theorem State.setWord_half_other {x : Word} (hlow : x ≠ a) (hhigh : x ≠ a + 2) : (s.setWord a v).half x = s.half x := by
  simp only [State.half, State.setWord]
  rw [Memory.read_write_other _ _ _ _ (toNat_ne hhigh), Memory.read_write_other _ _ _ _ (toNat_ne hlow)]

variable {s} in
theorem State.MemInv.setWord (h : s.MemInv) : (s.setWord a v).MemInv := Memory.wf_write _ _ _ (Memory.wf_write _ _ _ h)

/-- A word reads back as written. -/
theorem State.setWord_word_same (h : s.MemInv) : (s.setWord a v).word a = v := by
  have hlow : (s.setWord a v).half a = lowHalf v := by
    simp only [State.half, State.setWord]
    rw [Memory.read_write_other _ _ _ _ (toNat_ne (by simp)), Memory.read_write_same _ _ _ h]
  have hhigh : (s.setWord a v).half (a + 2) = highHalf v := Memory.read_write_same _ _ _ (Memory.wf_write _ _ _ h)
  rw [State.word, hlow, hhigh, joinHalves_halves]

/-- A write of a word leaves every word apart from it alone. -/
theorem State.setWord_word_other {b : Word} (h : WordsApart b a) : (s.setWord a v).word b = s.word b := by
  rw [State.word, State.setWord_half_other _ _ _ h.low h.lowHigh, State.setWord_half_other _ _ _ h.highLow h.high, State.word]
end SetWord

/-! ### The words of a ring (R38, R74, R76) -/

/-- The slots of a ring of at most 65536 words are apart. -/
theorem slotAddr_apart (base : Word) {j k : Nat} (hj : j < 65536) (hk : k < 65536) (h : j ≠ k) :
    WordsApart (slotAddr base j) (slotAddr base k) := by
  constructor <;> unfold slotAddr <;> bv_omega

/-- What is asked of a ring's place: its slots are plain memory, apart from the descriptor table. -/
theorem ringPlaced_slot {p : Params} {d : Chan} (h : ringPlaced p d = true) {j : Nat} (hj : j < d.size) :
    PlainAddr p (slotAddr d.base j) ∧ PlainAddr p (slotAddr d.base j + 2) ∧ slotAddr d.base j ∉ p.descriptorHalves ∧
      slotAddr d.base j + 2 ∉ p.descriptorHalves := by
  simp only [ringPlaced, Bool.and_eq_true, Bool.not_eq_true', List.all_eq_true, List.mem_range] at h
  obtain ⟨heven, hslots⟩ := h
  obtain ⟨hlow, hhigh⟩ := hslots j hj
  have free {a : Word} (ha : (reservedAddrs p).contains a = false) :
      a ≠ p.regStatus ∧ a ≠ p.regH2C ∧ a ≠ p.regC2H ∧ a ∉ p.descriptorHalves := by
    simpa [reservedAddrs] using ha
  obtain ⟨ls, lh, lc, lt⟩ := free hlow
  obtain ⟨hs, hh, hc, ht⟩ := free hhigh
  exact ⟨⟨(oddAddress_slotAddr _ _).trans heven, ls, lh, lc⟩, ⟨by rw [oddAddress_add_two, oddAddress_slotAddr]; exact heven, hs, hh, hc⟩, lt, ht⟩

/-- A field of the descriptor table is apart from every slot of a placed ring. -/
theorem descField_apart_slot {p : Params} {d : Chan} {c : BitVec 4} {j k : Nat} (h : ringPlaced p d = true) (hj : j < d.size)
    (hc : c.toNat < p.nCh) (hk : k < 4) : WordsApart (descField p c k) (slotAddr d.base j) := by
  obtain ⟨_, _, hlow, hhigh⟩ := ringPlaced_slot h hj
  obtain ⟨m1, m2⟩ := descField_mem hc hk
  exact ⟨fun e => hlow (e ▸ m1), fun e => hhigh (e ▸ m1), fun e => hlow (e ▸ m2)⟩

/-- The slots of a ring set to words, in order: what a Q_WRITE's slot writes make of plain memory (R220). -/
def State.setSlots (base : Word) : List (Nat × Word) → State → State
  | [], s => s
  | (j, v) :: rest, s => State.setSlots base rest (s.setWord (slotAddr base j) v)

/-- Setting slots changes memory only. -/
theorem State.setSlots_same (base : Word) (todo : List (Nat × Word)) (s : State) :
    ∃ m, s.setSlots base todo = { s with comp := { s.comp with mem := m } } := by
  induction todo generalizing s with
  | nil => exact ⟨_, rfl⟩
  | cons x rest ih =>
    obtain ⟨m, e⟩ := ih (s.setWord (slotAddr base x.1) x.2)
    exact ⟨m, e⟩

theorem State.MemInv.setSlots {s : State} (h : s.MemInv) (base : Word) (todo : List (Nat × Word)) : (s.setSlots base todo).MemInv := by
  induction todo generalizing s with
  | nil => exact h
  | cons x rest ih => exact ih (h.setWord _ _)

/-- Setting slots leaves every word apart from them alone. -/
theorem State.setSlots_word_other {base a : Word} {todo : List (Nat × Word)} (s : State)
    (h : ∀ x ∈ todo, WordsApart a (slotAddr base x.1)) : (s.setSlots base todo).word a = s.word a := by
  induction todo generalizing s with
  | nil => rfl
  | cons x rest ih =>
    exact (ih _ fun y hy => h y (List.mem_cons_of_mem _ hy)).trans (s.setWord_word_other _ _ (h x List.mem_cons_self))

/-- Every slot set reads back as set, for slots that are different. -/
theorem State.setSlots_word {base : Word} {todo : List (Nat × Word)} {s : State} (hs : s.MemInv)
    (hlt : ∀ x ∈ todo, x.1 < 65536) (hne : todo.Pairwise fun x y => x.1 ≠ y.1) :
    ∀ x ∈ todo, (s.setSlots base todo).word (slotAddr base x.1) = x.2 := by
  induction todo generalizing s with
  | nil => simp
  | cons x rest ih =>
    obtain ⟨hx, hrest⟩ := List.pairwise_cons.1 hne
    intro y hy
    rcases List.mem_cons.1 hy with rfl | hy
    · have apart : ∀ z ∈ rest, WordsApart (slotAddr base y.1) (slotAddr base z.1) := fun z hz =>
        slotAddr_apart base (hlt y List.mem_cons_self) (hlt z (List.mem_cons_of_mem _ hz)) (hx z hz)
      exact (State.setSlots_word_other _ apart).trans (s.setWord_word_same _ _ hs)
    · exact ih (hs.setWord _ _) (fun z hz => hlt z (List.mem_cons_of_mem _ hz)) hrest y hy

/-- Words put into as many different slots are read back from them, in order. -/
theorem State.setSlots_zip_words {base : Word} {slots : List Nat} {words : List Word} {s : State} (hs : s.MemInv)
    (hlen : slots.length = words.length) (hlt : ∀ j ∈ slots, j < 65536) (hne : slots.Nodup) :
    (slots.map fun j => (s.setSlots base (slots.zip words)).word (slotAddr base j)) = words := by
  have hfst : (slots.zip words).map Prod.fst = slots := List.map_fst_zip hlen.le
  have hsnd : (slots.zip words).map Prod.snd = words := List.map_snd_zip hlen.ge
  have hpair : (slots.zip words).Pairwise fun x y => x.1 ≠ y.1 := List.pairwise_map.1 (hfst.symm ▸ hne)
  have back := State.setSlots_word (base := base) hs (fun x hx => hlt _ (List.of_mem_zip hx).1) hpair
  calc (slots.map fun j => (s.setSlots base (slots.zip words)).word (slotAddr base j))
      = ((slots.zip words).map Prod.fst).map fun j => (s.setSlots base (slots.zip words)).word (slotAddr base j) := by rw [hfst]
    _ = (slots.zip words).map Prod.snd := by rw [List.map_map]; exact List.map_congr_left back
    _ = words := hsnd

/-! ### Smooth turns of Q_READ and Q_WRITE (R156, R163, R210, R220) -/

section OneTurn
variable {turn : State → State} {s s' : State} {l l' : Label} {a : Word} {onValue : Half → State → State} {onWritten : State → State}

/-- One smooth turn that reads a half of plain memory. -/
theorem Reaches.read (hh : s.halted = false) (hl : l ≠ .off) (hold : ∀ n out, l ≠ .hold n out) (ha : PlainAddr s.cfg a)
    (ht : ∀ d b, turn (s.mid l d b) = (s.mid l d b).turnWith (some (rd16 a)) onValue onWritten)
    (hv : ∀ d b, onValue (s.half a) (s.mid l d b) = s'.mid l' d b) : Reaches turn s l 1 s' l' :=
  Reaches.one hh hl hold fun d b hf => ⟨d, _, by rw [ht, turnWith_rd16 hh ha hf, hv]⟩

/-- One smooth turn that writes a half. -/
theorem Reaches.write {v : Half} (hh : s.halted = false) (hl : l ≠ .off) (hold : ∀ n out, l ≠ .hold n out) (ha : oddAddress a = false)
    (ht : ∀ d b, turn (s.mid l d b) = (s.mid l d b).turnWith (some (wr16 a v)) onValue onWritten)
    (hw : ∀ d b, onWritten (State.mid { s with comp := s.comp.write16 s.cfg a v } l d b) = s'.mid l' d b) : Reaches turn s l 1 s' l' :=
  Reaches.one hh hl hold fun d b hf => ⟨d, _, by rw [ht, turnWith_wr16 hh ha hf, hw]⟩

/-- One smooth turn that polls an idle companion. -/
theorem Reaches.poll {second : Bool} {n : Nat} {next : Label} (hh : s.halted = false) (hwf : s.cfg.wf = true) (hidle : s.comp.busy = false)
    (ht : ∀ d b, turn (s.mid (.poll second n) d b) =
      (s.mid (.poll second n) d b).turnWith (some (pollRecord s.cfg)) onValue onWritten)
    (hv : ∀ v d b, onValue v (s.mid (.poll second n) d b) = (s.mid (.poll second n) d b).afterPoll second n v next) :
    Reaches turn s (.poll second n) 1 s next :=
  Reaches.one hh (by simp) (by simp) fun d b hf => ⟨d, _, by
    rw [ht, turnWith_poll hh (Params.wf_registers hwf).statusEven hf, hv]
    simp [State.afterPoll, busySeen_statusRead, hidle]
    rfl⟩

end OneTurn

/-- The companion after a doorbell's three writes: H2C is 0 again and one more interrupt is counted (R163). -/
def Comp.rung (c : Comp) : Comp := { c with h2c := 0, irqFromHost := c.irqFromHost + 1 }

/-- The doorbell has been rung. -/
def State.rung (s : State) : State := { s with comp := s.comp.rung }

theorem irqWritten_irqMask (p : Params) : irqWritten p (irqMask p) = true := by
  have h := p.irqBit.isLt
  simp [irqWritten, irqMask, h]

/-- The three writes of the doorbell, register by register. -/
theorem Comp.rung_eq {p : Params} (h : RegistersApart p) (m : Half) (c : Comp) :
    ((c.write16 p p.regH2C m).write16 p p.regH2C 0).write16 p p.regStatus (irqMask p) = c.rung := by
  simp [Comp.write16, h.statusH2C.symm, irqWritten_irqMask, Comp.rung]

/-- A doorbell step of a Q_READ or Q_WRITE makes its record's write and goes on in the doorbell. -/
theorem commandTurn_bell {i : Instr} {c : BitVec 4} {s : State} {l : Label} {r : BusRec} (hi : checkedChannel i = some c)
    (hr : bellRecord s.cfg c l = some r) : ∃ onValue onWritten,
      (∀ d b, commandTurn i (s.mid l d b) = (s.mid l d b).turnWith (some r) onValue onWritten) ∧
      ∀ u : State, u.seq.step = l → onWritten u = u.afterBell := by
  cases i with
  | qRead c' n =>
    cases hi
    refine ⟨State.readValue c n.toNat, State.readWritten c, fun d b => ?_, fun u hu => ?_⟩
    · rw [← hr]; cases l <;> first | rfl | cases hr
    · rw [State.readWritten, hu]; cases l <;> first | rfl | cases hr
  | qWrite c' words =>
    cases hi
    refine ⟨State.writeValue c words, State.writeWritten c words, fun d b => ?_, fun u hu => ?_⟩
    · rw [← hr]; cases l <;> first | rfl | cases hr
    · rw [State.writeWritten, hu]; cases l <;> first | rfl | cases hr
  | _ => cases hi

/-- One smooth doorbell write. -/
theorem Reaches.bell {i : Instr} {c : BitVec 4} {s : State} {l l' : Label} {a : Word} {v : Half} (hi : checkedChannel i = some c)
    (hh : s.halted = false) (ha : oddAddress a = false) (hr : bellRecord s.cfg c l = some (wr16 a v))
    (hnext : ∀ u : State, u.seq.step = l → u.afterBell = u.goto l') :
    Reaches (commandTurn i) s l 1 { s with comp := s.comp.write16 s.cfg a v } l' := by
  obtain ⟨onValue, onWritten, hturn, hwritten⟩ := commandTurn_bell hi hr
  refine .write hh ?_ ?_ ha hturn fun d b => (hwritten _ rfl).trans (hnext _ rfl)
  · rintro rfl; cases hr
  · rintro n out rfl; cases hr

/-- From the ReenableWait of a Q_READ or Q_WRITE: the companion re-enables, and the doorbell is rung. -/
theorem bell_reaches {i : Instr} {c : BitVec 4} {s : State} (hi : checkedChannel i = some c) (hh : s.halted = false)
    (hwf : s.cfg.wf = true) (n : Nat) (out : List Word) :
    Reaches (commandTurn i) s (.hold n out) 3 s.rung (.respond .ok n out) := by
  have regs := Params.wf_registers hwf
  have next {l l' : Label} {u : State} (h : u.seq.step = l) (e : (u.goto l).afterBell = u.goto l') : u.afterBell = u.goto l' := by
    rw [← e, ← h]; rfl
  have set : Reaches (commandTurn i) s (.bellSet n out) 1 _ (.bellClear n out) :=
    .bell hi hh regs.h2cEven rfl fun u h => next h rfl
  have clear : Reaches (commandTurn i) _ (.bellClear n out) 1 _ (.bellIrq n out) :=
    .bell (s := { s with comp := s.comp.write16 s.cfg s.cfg.regH2C (bellMask c) }) hi hh regs.h2cEven rfl fun u h => next h rfl
  have irq : Reaches (commandTurn i) _ (.bellIrq n out) 1 _ (.respond .ok n out) :=
    .bell (s := { s with comp := (s.comp.write16 s.cfg s.cfg.regH2C (bellMask c)).write16 s.cfg s.cfg.regH2C 0 }) hi hh
      regs.statusEven rfl fun u h => next h rfl
  refine Reaches.ofHold hh (k := 2) ?_
  rw [State.rung, ← Comp.rung_eq regs (bellMask c) s.comp]
  exact (set.trans clear).trans irq

/-- A channel's two offsets lie in plain companion memory (R75, R76). -/
theorem rdOffAddr_plain {p : Params} {c : BitVec 4} (h : p.wf = true) (hc : c.toNat < p.nCh) :
    PlainAddr p (rdOffAddr p c) ∧ PlainAddr p (rdOffAddr p c + 2) := descField_plain h hc (by omega)

theorem wrOffAddr_plain {p : Params} {c : BitVec 4} (h : p.wf = true) (hc : c.toNat < p.nCh) :
    PlainAddr p (wrOffAddr p c) ∧ PlainAddr p (wrOffAddr p c + 2) := descField_plain h hc (by omega)

/-- Two smooth turns that write a word of plain memory, low half first (R154). -/
theorem Reaches.storeWord {turn : State → State} {s s' : State} {l m l' : Label} {a v : Word} {onValue : Half → State → State}
    {onWritten : State → State} (hh : s.halted = false) (hl : l ≠ .off) (hm : m ≠ .off) (lhold : ∀ n out, l ≠ .hold n out)
    (mhold : ∀ n out, m ≠ .hold n out) (hplain : PlainAddr s.cfg a ∧ PlainAddr s.cfg (a + 2))
    (hlow : ∀ d b, turn (s.mid l d b) = (s.mid l d b).turnWith (some (wr32Low a v)) onValue onWritten)
    (hnext : ∀ x d b, onWritten (State.mid { s with comp := x } l d b) = State.mid { s with comp := x } m d b)
    (hhigh : ∀ x d b, turn (State.mid { s with comp := x } m d b) =
      (State.mid { s with comp := x } m d b).turnWith (some (wr32High a v)) onValue onWritten)
    (hdone : ∀ d b, onWritten ((s.setWord a v).mid m d b) = s'.mid l' d b) : Reaches turn s l 2 s' l' := by
  obtain ⟨plow, phigh⟩ := hplain
  have low : Reaches turn s l 1 { s with comp := s.comp.write16 s.cfg a (lowHalf v) } m :=
    .write hh hl lhold plow.even hlow fun d b => hnext _ d b
  refine low.trans (.write (s := { s with comp := s.comp.write16 s.cfg a (lowHalf v) }) hh hm mhold phigh.even (hhigh _) fun d b => ?_)
  rw [← hdone d b, ← State.setWord_eq v plow phigh]

section Access
variable {s s' : State} {c : BitVec 4} {l' : Label}

/-- Q_WRITE up to its refresh: the poll and the two halves of RD_OFF. -/
theorem write_refresh {words : List Word} (hh : s.halted = false) (hwf : s.cfg.wf = true) (hc : c.toNat < s.cfg.nCh)
    (hidle : s.comp.busy = false)
    (hfin : ∀ d b, (s.mid (.offHigh (s.half (rdOffAddr s.cfg c))) d b).writeRefreshed c words (s.word (rdOffAddr s.cfg c)) =
      s'.mid l' d b) : Reaches (writeTurn c words) s (.poll false 0) 3 s' l' := by
  obtain ⟨hlow, hhigh⟩ := rdOffAddr_plain hwf hc
  have poll : Reaches (writeTurn c words) s (.poll false 0) 1 s .offLow := .poll hh hwf hidle (fun _ _ => rfl) fun _ _ _ => rfl
  have low : Reaches (writeTurn c words) s .offLow 1 s (.offHigh (s.half (rdOffAddr s.cfg c))) :=
    .read hh (by simp) (by simp) hlow (fun _ _ => rfl) fun _ _ => rfl
  have high : Reaches (writeTurn c words) s (.offHigh (s.half (rdOffAddr s.cfg c))) 1 s' l' :=
    .read hh (by simp) (by simp) hhigh (fun _ _ => rfl) hfin
  exact (poll.trans low).trans high

/-- Q_READ up to its refresh: the poll and the two halves of WR_OFF. -/
theorem read_refresh {max : Nat} (hh : s.halted = false) (hwf : s.cfg.wf = true) (hc : c.toNat < s.cfg.nCh)
    (hidle : s.comp.busy = false)
    (hfin : ∀ d b, (s.mid (.offHigh (s.half (wrOffAddr s.cfg c))) d b).readRefreshed c max (s.word (wrOffAddr s.cfg c)) =
      s'.mid l' d b) : Reaches (readTurn c max) s (.poll false 0) 3 s' l' := by
  obtain ⟨hlow, hhigh⟩ := wrOffAddr_plain hwf hc
  have poll : Reaches (readTurn c max) s (.poll false 0) 1 s .offLow := .poll hh hwf hidle (fun _ _ => rfl) fun _ _ _ => rfl
  have low : Reaches (readTurn c max) s .offLow 1 s (.offHigh (s.half (wrOffAddr s.cfg c))) :=
    .read hh (by simp) (by simp) hlow (fun _ _ => rfl) fun _ _ => rfl
  have high : Reaches (readTurn c max) s (.offHigh (s.half (wrOffAddr s.cfg c))) 1 s' l' :=
    .read hh (by simp) (by simp) hhigh (fun _ _ => rfl) hfin
  exact (poll.trans low).trans high

/-- Q_WRITE's slot writes, two halves each, up to the publication. -/
theorem put_reaches {words : List Word} (w : Nat) (todo : List (Nat × Word)) (hh : s.halted = false)
    (hplain : ∀ x ∈ todo, PlainAddr s.cfg (slotAddr (s.chan c.toNat).base x.1) ∧
      PlainAddr s.cfg (slotAddr (s.chan c.toNat).base x.1 + 2)) :
    Reaches (writeTurn c words) s (afterPut todo w words.length) (2 * todo.length) (s.setSlots (s.chan c.toNat).base todo)
      (.backLow w words.length []) := by
  induction todo generalizing s with
  | nil => exact .refl _ s _
  | cons x rest ih =>
    obtain ⟨j, v⟩ := x
    have first : Reaches (writeTurn c words) s (.putLow ((j, v) :: rest) w) 2 (s.setWord (slotAddr (s.chan c.toNat).base j) v)
        (afterPut rest w words.length) :=
      .storeWord (m := .putHigh ((j, v) :: rest) w) hh (by simp) (by simp) (by simp) (by simp) (hplain _ List.mem_cons_self)
        (fun _ _ => rfl) (fun _ _ _ => rfl) (fun _ _ _ => rfl) fun _ _ => rfl
    have others := ih (s := s.setWord (slotAddr (s.chan c.toNat).base j) v) hh fun x hx => hplain x (List.mem_cons_of_mem _ hx)
    rw [List.length_cons, Nat.mul_succ, Nat.add_comm]
    exact first.trans others

/-- Q_READ's slot reads, two halves each, up to the write-back. -/
theorem get_reaches {max : Nat} (r : Nat) (slots : List Nat) (out : List Word) (hh : s.halted = false)
    (hplain : ∀ j ∈ slots, PlainAddr s.cfg (slotAddr (s.chan c.toNat).base j) ∧
      PlainAddr s.cfg (slotAddr (s.chan c.toNat).base j + 2)) :
    Reaches (readTurn c max) s (afterGet slots out r) (2 * slots.length) s
      (.backLow r (out.length + slots.length) (out ++ slots.map fun j => s.word (slotAddr (s.chan c.toNat).base j))) := by
  induction slots generalizing out with
  | nil => rw [List.map_nil, List.append_nil]; exact .refl _ s _
  | cons j rest ih =>
    obtain ⟨hlow, hhigh⟩ := hplain _ List.mem_cons_self
    have low : Reaches (readTurn c max) s (.getLow (j :: rest) out r) 1 s
        (.getHigh (j :: rest) out r (s.half (slotAddr (s.chan c.toNat).base j))) :=
      .read hh (by simp) (by simp) hlow (fun _ _ => rfl) fun _ _ => rfl
    have high : Reaches (readTurn c max) s (.getHigh (j :: rest) out r (s.half (slotAddr (s.chan c.toNat).base j))) 1 s
        (afterGet rest (out ++ [s.word (slotAddr (s.chan c.toNat).base j)]) r) :=
      .read hh (by simp) (by simp) hhigh (fun _ _ => rfl) fun _ _ => rfl
    have others := ih (out ++ [s.word (slotAddr (s.chan c.toNat).base j)]) fun k hk => hplain k (List.mem_cons_of_mem _ hk)
    rw [List.length_append, List.append_assoc] at others
    rw [List.length_cons, show 2 * (rest.length + 1) = 1 + 1 + 2 * rest.length by omega,
      show out.length + (rest.length + 1) = out.length + 1 + rest.length by omega]
    exact (low.trans high).trans others

/-- Q_WRITE's publication of its write offset, the commit, and the doorbell (R163, R197, R220). -/
theorem publish_reaches {words : List Word} (w n : Nat) (out : List Word) (hh : s.halted = false) (hwf : s.cfg.wf = true)
    (hc : c.toNat < s.cfg.nCh) :
    Reaches (writeTurn c words) s (.backLow w n out) (2 + 3)
      ((s.setWord (wrOffAddr s.cfg c) (BitVec.ofNat 32 w)).setChan c.toNat { s.chan c.toNat with wr := w }).rung
      (.respond .ok n out) := by
  have store : Reaches (writeTurn c words) s (.backLow w n out) 2
      ((s.setWord (wrOffAddr s.cfg c) (BitVec.ofNat 32 w)).setChan c.toNat { s.chan c.toNat with wr := w }) (.hold n out) :=
    .storeWord (m := .backHigh w n out) hh (by simp) (by simp) (by simp) (by simp) (wrOffAddr_plain hwf hc)
      (fun _ _ => rfl) (fun _ _ _ => rfl) (fun _ _ _ => rfl) fun _ _ => rfl
  refine store.trans (bell_reaches (i := .qWrite c words) rfl ?_ ?_ n out)
  · exact hh
  · exact hwf

/-- Q_READ's write-back of its read offset, the commit, and the doorbell (R163, R197, R210). -/
theorem writeBack_reaches {count : BitVec 16} (r n : Nat) (out : List Word) (hh : s.halted = false) (hwf : s.cfg.wf = true)
    (hc : c.toNat < s.cfg.nCh) :
    Reaches (readTurn c count.toNat) s (.backLow r n out) (2 + 3)
      ((s.setWord (rdOffAddr s.cfg c) (BitVec.ofNat 32 r)).setChan c.toNat { s.chan c.toNat with rd := r }).rung
      (.respond .ok n out) := by
  have store : Reaches (readTurn c count.toNat) s (.backLow r n out) 2
      ((s.setWord (rdOffAddr s.cfg c) (BitVec.ofNat 32 r)).setChan c.toNat { s.chan c.toNat with rd := r }) (.hold n out) :=
    .storeWord (m := .backHigh r n out) hh (by simp) (by simp) (by simp) (by simp) (rdOffAddr_plain hwf hc)
      (fun _ _ => rfl) (fun _ _ _ => rfl) (fun _ _ _ => rfl) fun _ _ => rfl
  refine store.trans (bell_reaches (i := .qRead c count) rfl ?_ ?_ n out)
  · exact hh
  · exact hwf

end Access

/-! ### Whole runs of Q_READ and Q_WRITE (R211, R221) -/

/-- The state checks of R200 let an access of a valid channel of a serving session begin. -/
theorem State.enter_access {i : Instr} {c : BitVec 4} {s : State} (hi : checkedChannel i = some c) (hop : operandFault s.cfg i = none)
    (hs : s.Serving) (hv : (s.chan c.toNat).valid = true) (body : State → State) : s.enter i body = body s := by
  simp [State.enter, hop, hs.isOpen, hs.wedged, hi, hv]

section SetSlots
variable (s : State) (base : Word) (todo : List (Nat × Word))
@[simp] theorem State.setSlots_cfg : (s.setSlots base todo).cfg = s.cfg := by obtain ⟨_, e⟩ := s.setSlots_same base todo; rw [e]
@[simp] theorem State.setSlots_ch : (s.setSlots base todo).ch = s.ch := by obtain ⟨_, e⟩ := s.setSlots_same base todo; rw [e]
@[simp] theorem State.setSlots_chan (k : Nat) : (s.setSlots base todo).chan k = s.chan k := State.chan_congr (by simp) k
@[simp] theorem State.setSlots_halted : (s.setSlots base todo).halted = s.halted := by
  obtain ⟨_, e⟩ := s.setSlots_same base todo; rw [e]; rfl

theorem State.setSlots_setChan (k : Nat) (d : Chan) :
    (s.setChan k d).setSlots base todo = (s.setSlots base todo).setChan k d := by
  induction todo generalizing s with
  | nil => rfl
  | cons x rest ih => exact ih (s.setWord (slotAddr base x.1) x.2)
end SetSlots

/-- Of two writes to a descriptor the second stays. -/
theorem State.setChan_setChan (s : State) (k : Nat) (d d' : Chan) : (s.setChan k d).setChan k d' = s.setChan k d' := by
  simp [State.setChan, List.set_set]

/-- A descriptor's write does not look at memory, nor memory's at descriptors. -/
theorem State.setChan_setWord_setChan (s : State) (k : Nat) (d d' : Chan) (a v : Word) :
    ((s.setChan k d).setWord a v).setChan k d' = (s.setWord a v).setChan k d' := State.setChan_setChan (s.setWord a v) k d d'

/-- What a completed Q_WRITE leaves before its response: the words in their slots, WR_OFF past them, the descriptor with the
refreshed read offset `r` and the new write offset, and the doorbell rung (R220). -/
def State.wrote (c : BitVec 4) (words : List Word) (r : Nat) (s : State) : State :=
  let d := s.chan c.toNat
  let w := (d.wr + words.length) % d.size
  let t := ((s.setSlots d.base ((ringSlots d.wr words.length d.size).zip words)).setWord (wrOffAddr s.cfg c)
    (BitVec.ofNat 32 w)).setChan c.toNat { d with rd := r, wr := w }
  t.rung

/-- What a completed Q_READ of `n` words leaves before its response: RD_OFF past them, the descriptor with the refreshed write
offset `w` and the new read offset, and the doorbell rung (R210). -/
def State.took (c : BitVec 4) (w n : Nat) (s : State) : State :=
  let d := s.chan c.toNat
  let r := (d.rd + n) % d.size
  let t := (s.setWord (rdOffAddr s.cfg c) (BitVec.ofNat 32 r)).setChan c.toNat { d with wr := w, rd := r }
  t.rung

/-- The words a Q_READ of `n` words takes: those of the slots from the read offset on (R211). -/
def State.queued (s : State) (c : BitVec 4) (n : Nat) : List Word :=
  (ringSlots (s.chan c.toNat).rd n (s.chan c.toNat).size).map fun j => s.word (slotAddr (s.chan c.toNat).base j)

/-- A completed Q_WRITE changes a descriptor and the companion's registers and memory only. -/
theorem State.wrote_same (s : State) (c : BitVec 4) (words : List Word) (r : Nat) :
    ∃ ch comp, s.wrote c words r = { s with ch := ch, comp := comp } ∧ ch.length = s.ch.length ∧ comp.busy = s.comp.busy := by
  obtain ⟨m, e⟩ := s.setSlots_same (s.chan c.toNat).base
    ((ringSlots (s.chan c.toNat).wr words.length (s.chan c.toNat).size).zip words)
  rw [State.wrote, e]
  exact ⟨_, _, rfl, by simp, rfl⟩

section Completion
variable {s : State} {c : BitVec 4} {d : Chan} (hd : s.chan c.toNat = d) (hready : s.Ready) (hc : c.toNat < s.cfg.nCh)
  (hb : d.bounded) (hring : ringPlaced s.cfg d = true)
include hd hready hc hb hring

/-- Q_WRITE from its first poll to its response. -/
theorem write_reaches {words : List Word} {r : Nat} (hh : s.halted = false)
    (hr : norm (s.word (rdOffAddr s.cfg c)).toNat d.size = some r) (hfree : words.length ≤ free r d.wr d.size) :
    Reaches (writeTurn c words) s (.poll false 0) (3 + 2 * words.length + (2 + 3)) (s.wrote c words r)
      (.respond .ok words.length []) := by
  obtain ⟨hone, _, _, hwr⟩ := hb
  have hspans := writeSpans_eq (norm_lt hone hr) hwr hfree
  have hchan : (s.setChan c.toNat { d with rd := r }).chan c.toNat = { d with rd := r } :=
    s.setChan_chan_same _ _ (hready.table ▸ hc)
  rw [State.wrote, hd]
  generalize hslots : ringSlots d.wr words.length d.size = slots at hspans ⊢
  generalize (d.wr + words.length) % d.size = w at hspans ⊢
  have hlen : (slots.zip words).length = words.length := by simp [← hslots]
  have refresh : Reaches (writeTurn c words) s (.poll false 0) 3 (s.setChan c.toNat { d with rd := r })
      (afterPut (slots.zip words) w words.length) :=
    write_refresh hh hready.cfg hc hready.idle fun u b => by
      have e := State.writeRefreshed_some (c := c) (words := words) (r := r) (rv := s.word (rdOffAddr s.cfg c))
        (s := s.mid (.offHigh (s.half (rdOffAddr s.cfg c))) u b) (by rw [State.mid_chan, hd]; exact hr)
        (by rw [State.mid_chan, hd]; exact hfree)
      rw [e, State.mid_chan, hd, hspans]
      rfl
  have put := put_reaches (words := words) (s := s.setChan c.toNat { d with rd := r }) (c := c) w (slots.zip words) hh (by
    rw [hchan]
    intro x hx
    obtain ⟨hlow, hhigh, _⟩ := ringPlaced_slot hring (ringSlots_lt hone _ (hslots ▸ (List.of_mem_zip hx).1))
    exact ⟨hlow, hhigh⟩)
  have publish := publish_reaches (words := words) (c := c)
    (s := (s.setChan c.toNat { d with rd := r }).setSlots d.base (slots.zip words)) w words.length []
    (by rw [State.setSlots_halted]; exact hh) (by rw [State.setSlots_cfg]; exact hready.cfg) (by rw [State.setSlots_cfg]; exact hc)
  rw [hchan, hlen] at put
  rw [State.setSlots_chan, State.setSlots_cfg, hchan] at publish
  have final := (refresh.trans put).trans publish
  rw [State.setSlots_setChan] at final
  rw [State.setChan_setWord_setChan] at final
  exact final

/-- Q_READ from its first poll to its response. -/
theorem read_reaches {count : BitVec 16} {w : Nat} (hh : s.halted = false)
    (hw : norm (s.word (wrOffAddr s.cfg c)).toNat d.size = some w) {n : Nat} (hn : n = min count.toNat (used d.rd w d.size)) :
    Reaches (readTurn c count.toNat) s (.poll false 0) (3 + 2 * n + (2 + 3)) (s.took c w n)
      (.respond .ok n (s.queued c n)) := by
  obtain ⟨hone, _, hrd, _⟩ := hb
  have hspans := readSpans_eq count.toNat hrd (norm_lt hone hw)
  have hchan : (s.setChan c.toNat { d with wr := w }).chan c.toNat = { d with wr := w } :=
    s.setChan_chan_same _ _ (hready.table ▸ hc)
  rw [← hn] at hspans
  rw [State.took, State.queued, hd]
  generalize hslots : ringSlots d.rd n d.size = slots at hspans ⊢
  generalize (d.rd + n) % d.size = r at hspans ⊢
  have hlen : slots.length = n := by simp [← hslots]
  have refresh : Reaches (readTurn c count.toNat) s (.poll false 0) 3 (s.setChan c.toNat { d with wr := w }) (afterGet slots [] r) :=
    read_refresh hh hready.cfg hc hready.idle fun u b => by
      have e := State.readRefreshed_some (c := c) (max := count.toNat) (w := w) (wv := s.word (wrOffAddr s.cfg c))
        (s := s.mid (.offHigh (s.half (wrOffAddr s.cfg c))) u b) (by rw [State.mid_chan, hd]; exact hw)
      rw [e, State.mid_chan, hd, hspans]
      rfl
  have get := get_reaches (max := count.toNat) (s := s.setChan c.toNat { d with wr := w }) (c := c) r slots [] hh (by
    rw [hchan]
    intro j hj
    obtain ⟨hlow, hhigh, _⟩ := ringPlaced_slot hring (ringSlots_lt hone _ (hslots ▸ hj))
    exact ⟨hlow, hhigh⟩)
  rw [hchan, hlen, List.length_nil, Nat.zero_add, List.nil_append] at get
  have back := writeBack_reaches (count := count) (c := c) (s := s.setChan c.toNat { d with wr := w }) r n
    (slots.map fun j => s.word (slotAddr d.base j)) hh hready.cfg hc
  rw [hchan] at back
  have final := (refresh.trans get).trans back
  rw [State.setChan_cfg, State.setChan_setWord_setChan] at final
  exact final

/-- Q_WRITE of a ready ring with room for its words, all going well, ends OK with COUNT N (R221). -/
theorem exec_qWrite_ok {p : PortId} {words : List Word} {r : Nat} (he : s.AtEntry p) (hserves : s.Serving) (hv : d.valid = true)
    (hne : words ≠ []) (hr : norm (s.word (rdOffAddr s.cfg c)).toNat d.size = some r) (hfree : words.length ≤ free r d.wr d.size)
    (hsmooth : s.smooth = true) (hturns : 9 + 2 * words.length ≤ s.turns.length) :
    ∃ u b, exec (.qWrite c words) s = .next
      ((State.mid (State.wrote c words r { s with turns := [] }) (.respond .ok words.length []) u b).respond .ok words.length []) := by
  have hop : operandFault s.cfg (.qWrite c words) = none := by
    cases words with
    | nil => exact absurd rfl hne
    | cons _ _ => simp [operandFault, hc]
  have hbegin : ({ s.enter (.qWrite c words) (commandBody (.qWrite c words)) with turns := [] } : State) =
      State.mid { s with turns := [] } (.poll false 0) s.draw s.busResult := by
    rw [State.enter_access rfl hop hserves (by rw [hd]; exact hv)]
    rfl
  have hrunning : (State.wrote c words r { s with turns := [] }).halted = false := by
    obtain ⟨_, _, e, _⟩ := State.wrote_same { s with turns := [] } c words r
    rw [e]; exact he.running
  have run := write_reaches (s := { s with turns := [] }) hd ⟨hready.cfg, hready.table, hready.idle⟩ hc hb hring he.running hr hfree
  exact exec_smooth rfl he hsmooth hbegin run (by omega) hrunning
    fun _ _ => commandTurn_respond rfl rfl

/-- Q_READ of a ready ring, all going well, ends OK with the words queued, at most as many as asked for (R211). -/
theorem exec_qRead_ok {p : PortId} {count : BitVec 16} {w n : Nat} (he : s.AtEntry p) (hserves : s.Serving) (hv : d.valid = true)
    (hcount : count ≠ 0) (hw : norm (s.word (wrOffAddr s.cfg c)).toNat d.size = some w)
    (hn : n = min count.toNat (used d.rd w d.size)) (hsmooth : s.smooth = true) (hturns : 9 + 2 * n ≤ s.turns.length) :
    ∃ u b, exec (.qRead c count) s = .next
      ((State.mid (State.took c w n { s with turns := [] }) (.respond .ok n (s.queued c n)) u b).respond .ok n (s.queued c n)) := by
  have hop : operandFault s.cfg (.qRead c count) = none := by
    rw [operandFault, if_neg (Nat.not_le.2 hc), if_neg hcount]
  have hbegin : ({ s.enter (.qRead c count) (commandBody (.qRead c count)) with turns := [] } : State) =
      State.mid { s with turns := [] } (.poll false 0) s.draw s.busResult := by
    rw [State.enter_access rfl hop hserves (by rw [hd]; exact hv)]
    rfl
  have run := read_reaches (s := { s with turns := [] }) hd ⟨hready.cfg, hready.table, hready.idle⟩ hc hb hring he.running hw hn
  exact exec_smooth rfl he hsmooth hbegin run (by omega) he.running fun _ _ => commandTurn_respond rfl rfl

end Completion

/-! ### What a completed Q_WRITE leaves, and the read that follows it (R89) -/

section Wrote
variable {s : State} {c : BitVec 4} {d : Chan} (hd : s.chan c.toNat = d) {words : List Word} {r : Nat}

include hd

theorem State.wrote_chan (hc : c.toNat < s.ch.length) :
    (s.wrote c words r).chan c.toNat = { d with rd := r, wr := (d.wr + words.length) % d.size } := by
  rw [State.wrote, hd]
  exact State.setChan_chan_same _ _ _ (by simpa using hc)

/-- The companion's write offset after a completed Q_WRITE. -/
theorem State.wrote_wrOff (hs : s.MemInv) :
    (s.wrote c words r).word (wrOffAddr s.cfg c) = BitVec.ofNat 32 ((d.wr + words.length) % d.size) := by
  rw [State.wrote, hd]
  exact State.setWord_word_same _ _ _ (hs.setSlots _ _)

/-- The words of a completed Q_WRITE are in their slots, in order (R221). -/
theorem State.wrote_slots (hs : s.MemInv) (hc : c.toNat < s.cfg.nCh) (hb : d.bounded) (hring : ringPlaced s.cfg d = true)
    (hn : words.length ≤ d.size) :
    ((ringSlots d.wr words.length d.size).map fun j => (s.wrote c words r).word (slotAddr d.base j)) = words := by
  obtain ⟨hone, htop, _, _⟩ := hb
  have hlt := ringSlots_lt (r := d.wr) (n := words.length) hone
  calc ((ringSlots d.wr words.length d.size).map fun j => (s.wrote c words r).word (slotAddr d.base j))
      = (ringSlots d.wr words.length d.size).map fun j =>
          (s.setSlots d.base ((ringSlots d.wr words.length d.size).zip words)).word (slotAddr d.base j) := by
        refine List.map_congr_left fun j hj => ?_
        rw [State.wrote, hd]
        exact State.setWord_word_other _ _ _ (descField_apart_slot hring (hlt j hj) hc (by omega)).symm
    _ = words := State.setSlots_zip_words hs (by simp) (fun j hj => by have := hlt j hj; omega) (ringSlots_nodup hn)

end Wrote

/-- A word is the companion's. -/
theorem State.word_congr {s t : State} (h : t.comp = s.comp) (a : Word) : t.word a = s.word a := by simp [State.word, State.half, h]

/-- After a completed Q_WRITE parameters and table are in order, and the companion is as busy as before. -/
theorem State.wrote_ready {s : State} (h : s.Ready) (c : BitVec 4) (words : List Word) (r : Nat) : (s.wrote c words r).Ready := by
  obtain ⟨ch, comp, e, hlen, hbusy⟩ := s.wrote_same c words r
  rw [e]
  exact ⟨h.cfg, hlen.trans h.table, hbusy.trans h.idle⟩

theorem State.wrote_serving {s : State} (h : s.Serving) (c : BitVec 4) (words : List Word) (r : Nat) : (s.wrote c words r).Serving := by
  obtain ⟨_, _, e, _⟩ := s.wrote_same c words r
  rw [e]
  exact ⟨h.isOpen, h.wedged⟩

theorem State.wrote_cfg (s : State) (c : BitVec 4) (words : List Word) (r : Nat) : (s.wrote c words r).cfg = s.cfg := by
  obtain ⟨_, _, e, _⟩ := s.wrote_same c words r
  rw [e]

/-- Settles O30: the Q_WRITE's slots from the write offset on are the Q_READ's from the read offset on, for the ring was empty. -/
theorem writtenWordsAreReadBack : Obligations.WrittenWordsAreReadBack := by
  intro s t u v p q c words count he hserves hready hmem hc hne hv hb hring hempty hlen hsmooth hturns hwrite heu hcfg hopen hwedged hch
    hcomp hcount husmooth huturns hread
  generalize hd : s.chan c.toNat = d at hv hb hring hempty hlen
  have ⟨hone, htop, _, hwr⟩ := hb
  have hwlt : (d.wr + words.length) % d.size < d.size := Nat.mod_lt _ hone
  -- the write, whose refresh finds the ring empty
  have hr : norm (s.word (rdOffAddr s.cfg c)).toNat d.size = some d.wr := by rw [hempty, norm, if_pos hwr]
  have hfree : words.length ≤ free d.wr d.wr d.size := by rw [free_eq hwr hwr, if_pos le_rfl]; omega
  obtain ⟨_, _, hx⟩ := exec_qWrite_ok hd hready hc hb hring he hserves hv hne hr hfree hsmooth hturns
  obtain rfl := Host.Outcome.next.inj (hwrite.symm.trans hx)
  -- what the reader finds
  let s0 : State := { s with turns := [] }
  have hmem0 : s0.MemInv := hmem
  have hready0 := State.wrote_ready (s := s0) ⟨hready.cfg, hready.table, hready.idle⟩ c words d.wr
  have hserves0 := State.wrote_serving (s := s0) ⟨hserves.isOpen, hserves.wedged⟩ c words d.wr
  simp only [State.respond_cfg, State.mid_cfg, State.respond_sess, State.mid_sess, State.respond_ch, State.mid_ch,
    State.respond_comp, State.mid_comp] at hcfg hopen hwedged hch hcomp
  have hucfg : u.cfg = s.cfg := hcfg.trans (State.wrote_cfg s0 c words d.wr)
  have huchan : u.chan c.toNat = { d with rd := d.wr, wr := (d.wr + words.length) % d.size } :=
    (State.chan_congr hch _).trans (State.wrote_chan (s := s0) hd (hready.table ▸ hc))
  have huready : u.Ready := ⟨hcfg ▸ hready0.cfg, by rw [hch, hcfg]; exact hready0.table, by rw [hcomp]; exact hready0.idle⟩
  have huserves : u.Serving := ⟨hopen.trans hserves0.isOpen, hwedged.trans hserves0.wedged⟩
  have huw : norm (u.word (wrOffAddr u.cfg c)).toNat d.size = some ((d.wr + words.length) % d.size) := by
    rw [hucfg, State.word_congr hcomp, State.wrote_wrOff (s := s0) hd hmem0, BitVec.toNat_ofNat,
      Nat.mod_eq_of_lt (by omega), norm, if_pos hwlt]
  have hcountne : count ≠ 0 := by
    rintro rfl
    exact hne (List.length_eq_zero_iff.1 (Nat.le_zero.1 hcount))
  have hqueued : u.queued c words.length = words := by
    simp only [State.queued, huchan, State.word_congr hcomp]
    exact State.wrote_slots (s := s0) hd hmem0 hc hb hring hlen.le
  -- the read
  obtain ⟨_, _, hy⟩ := exec_qRead_ok huchan huready (hucfg ▸ hc) ⟨hone, htop, hwr, hwlt⟩ (hucfg ▸ hring) heu huserves hv hcountne
    huw (used_written hwr hlen hcount) husmooth huturns
  rw [hqueued] at hy
  obtain rfl := Host.Outcome.next.inj (hread.symm.trans hy)
  exact State.respond_answered heu.owner heu.port

end Sys2Proof.Machine

/-! PROOFS. The statements of spec/30_encoding.md: that decoding and encoding agree and what words a port takes (R121-R132), the
accept step's checks (R130), what Q_INIT, Q_READ and Q_WRITE answer when all goes well (R124), and how a client takes a response
and goes on (R124, R134). -/

namespace Sys2Proof

/-! ### Decoding and encoding agree (R121-R123) -/

/-- A payload fits a command word when it has the length the word gives (R126, R132). -/
theorem payloadFits_iff (w : Word) (payload : List Word) : payloadFits w payload = true ↔ payload.length = payloadLength w :=
  hasLength_iff _ _

/-- A command packet decodes to what its words spell, where its payload fits. -/
theorem decode_command_ok_iff {w : Word} {payload : List Word} {i : Instr} :
    decode (.command w payload) = .ok i ↔ decodeCommand w payload = .ok i ∧ payloadFits w payload = true := by
  simp only [decode]
  cases decodeCommand w payload with
  | error e => simp
  | ok j => by_cases hfit : payloadFits w payload = true <;> simp [hfit]

/-- The words of an instruction's packet spell the instruction. -/
theorem decodeCommand_of_encode {i : Instr} {w : Word} {payload : List Word} (h : encode i = .command w payload) :
    decodeCommand w payload = .ok i := by
  cases i with
  | busRd16 a => cases h
  | busWr16 a v => cases h
  | _ => cases h; simp [decodeCommand]

/-- An encodable instruction's packet can be presented. -/
theorem payloadFits_of_encode {i : Instr} {w : Word} {payload : List Word} (hi : i.encodable = true)
    (h : encode i = .command w payload) : payloadFits w payload = true :=
  match i with
  | .qInit ch => Laws.PayloadLength.qInit ch hi w payload h
  | .qRead ch n => Laws.PayloadLength.qRead ch n hi w payload h
  | .qWrite ch ws => Laws.PayloadLength.qWrite ch ws hi w payload h
  | .openPair tx rx ctx => Laws.PayloadLength.openPair tx rx ctx hi w payload h
  | .shutdown => Laws.PayloadLength.shutdown hi w payload h
  | .busRd16 a => Laws.PayloadLength.busRd16 a hi w payload h
  | .busWr16 a v => Laws.PayloadLength.busWr16 a v hi w payload h

/-- Settles O1: a bus record carries its operands as they are; a command's words spell it, and its payload fits. -/
theorem decodeEncodeRoundTrip : Obligations.DecodeEncodeRoundTrip := by
  intro i hi
  cases hpk : encode i with
  | bus r => cases i <;> cases hpk <;> rfl
  | command w payload => exact decode_command_ok_iff.2 ⟨decodeCommand_of_encode hpk, payloadFits_of_encode hi hpk⟩

/-- What the words of an instruction are: a fixed opcode, zero in every field that R123 marks 0, and the operands. Only COUNT of a
Q_WRITE and the number of OPEN's payload words are left open here, for they are the payload's length (R126). -/
def SpelledBy (w : Word) (payload : List Word) : Instr → Prop
  | .qInit c => w = mkCmd 1 c 0 0 0
  | .qRead c n => w = mkCmd 2 c 0 0 n
  | .qWrite c words => w = mkCmd 3 c 0 0 (cmdCount w) ∧ payload = words
  | .openPair tx rx ctx => w = mkCmd 4 tx rx 0 0 ∧ ∃ rest, payload = ctx :: rest
  | .shutdown => w = mkCmd 5 0 0 0 0
  | .busRd16 _ => False
  | .busWr16 _ _ => False

/-- Each check of the decoder fixes a field of the word. -/
theorem spelledBy_of_decodeCommand {w : Word} {payload : List Word} {i : Instr} (h : decodeCommand w payload = .ok i) :
    SpelledBy w payload i := by
  have hw := mkCmd_fields w
  unfold decodeCommand at h
  split at h; · cases h
  rename_i hop
  split at h; · cases h
  rename_i hrsv
  rw [not_not.1 hrsv] at hw
  split at h
  case isTrue h1 =>
    split at h <;> cases h
    rename_i hz
    obtain ⟨hch2, hcount⟩ := not_or.1 hz
    rw [h1, not_not.1 hch2, not_not.1 hcount] at hw
    exact hw.symm
  split at h
  case isTrue h2 =>
    split at h <;> cases h
    rename_i hch2
    rw [h2, not_not.1 hch2] at hw
    exact hw.symm
  split at h
  case isTrue h3 =>
    split at h <;> cases h
    rename_i hch2
    rw [h3, not_not.1 hch2] at hw
    exact ⟨hw.symm, rfl⟩
  split at h
  case isTrue h4 =>
    split at h; · cases h
    rename_i hcount
    rw [h4, not_not.1 hcount] at hw
    split at h <;> cases h
    exact ⟨hw.symm, _, rfl⟩
  case isFalse h1 h2 h3 h4 =>
    split at h <;> cases h
    rename_i hz
    have h5 : cmdOp w = 5 := by bv_omega
    obtain ⟨hch, hz⟩ := not_or.1 hz
    obtain ⟨hch2, hcount⟩ := not_or.1 hz
    rw [h5, not_not.1 hch, not_not.1 hch2, not_not.1 hcount] at hw
    exact hw.symm

/-- Settles O2: the decoder's checks fix every field of the word but COUNT of a Q_WRITE, and that is its payload's length. -/
theorem commandWordHasOneMeaning : Obligations.CommandWordHasOneMeaning := by
  intro w payload i h
  obtain ⟨hdec, hfit⟩ := decode_command_ok_iff.1 h
  have hspell := spelledBy_of_decodeCommand hdec
  have hlen := (payloadFits_iff w payload).1 hfit
  cases i with
  | qInit c =>
    obtain rfl : w = _ := hspell
    obtain rfl : payload = [] := by simpa [payloadLength] using hlen
    rfl
  | qRead c n =>
    obtain rfl : w = _ := hspell
    obtain rfl : payload = [] := by simpa [payloadLength] using hlen
    rfl
  | qWrite c words =>
    obtain ⟨hw, rfl⟩ := hspell
    have hcount : payload.length = (cmdCount w).toNat := by rw [hlen, hw]; simp [payloadLength]
    rw [encode, hcount, BitVec.ofNat_toNat, BitVec.setWidth_eq, ← hw]
  | openPair tx rx ctx =>
    obtain ⟨rfl, rest, rfl⟩ := hspell
    obtain rfl : rest = [] := by simpa [payloadLength] using hlen
    rfl
  | shutdown =>
    obtain rfl : w = _ := hspell
    obtain rfl : payload = [] := by simpa [payloadLength] using hlen
    rfl
  | busRd16 a => exact hspell.elim
  | busWr16 a v => exact hspell.elim

/-- Settles O3: each word's fields, evaluated. -/
theorem specWordsDecode : Obligations.SpecWordsDecode := by
  refine ⟨?_, ?_, ?_, ?_, ?_, ?_, ?_⟩ <;> decide

end Sys2Proof

namespace Sys2Proof.Machine

/-! ### What a port takes (R126, R132) -/

/-- `payloadLength` by the opcode's number. -/
theorem payloadLength_eq (w : Word) : payloadLength w =
    if (w.extractLsb' 28 4).toNat = 3 then (w.extractLsb' 0 16).toNat else if (w.extractLsb' 28 4).toNat = 4 then 1 else 0 := by
  simp [payloadLength, cmdOp, cmdCount, ← BitVec.toNat_inj]

/-- Settles O5: an empty port takes exactly the payloads that fit. -/
theorem onlyFittingPayloadIsPresented : Obligations.OnlyFittingPayloadIsPresented := by
  intro s p cmd payload hport hempty hidle op n
  have hfit : payloadFits cmd payload = true ↔ payload.length = n := by rw [payloadFits_iff, payloadLength_eq]
  rw [step_cons]
  simp only [State.perform, State.clientPresent, State.present, hport, hempty, hidle, hfit, true_and, Bool.false_eq_true, if_false]

/-! ### The accept step (R130) -/

/-- A command word that passes checks 1 and 2 of R130: its opcode, RSV, and the fields that R123 marks 0. -/
structure LegalFields (w : Word) : Prop where
  op : ¬ ((cmdOp w).toNat < 1 ∨ 5 < (cmdOp w).toNat)
  rsv : ¬ cmdRsv w ≠ 0
  ch2 : ¬ ((cmdOp w).toNat ≤ 3 ∧ (cmdCh2 w).toNat ≠ 0)
  count : ¬ (((cmdOp w).toNat = 1 ∨ (cmdOp w).toNat = 4) ∧ (cmdCount w).toNat ≠ 0)
  low : ¬ ((cmdOp w).toNat = 5 ∧ w.extractLsb' 0 28 ≠ 0)

/-- The 28 bits below the opcode are the fields below it. -/
theorem lowBits_eq_zero_iff (w : Word) :
    w.extractLsb' 0 28 = 0 ↔ cmdCh w = 0 ∧ cmdCh2 w = 0 ∧ cmdRsv w = 0 ∧ cmdCount w = 0 := by
  simp only [BitVec.ofNat_eq_ofNat, ← BitVec.toNat_inj, BitVec.extractLsb'_toNat, Nat.shiftRight_eq_div_pow,
    pow_zero, Nat.div_one, Nat.reducePow, BitVec.toNat_ofNat, Nat.zero_mod, cmdCh, cmdCh2, cmdRsv, cmdCount]
  omega

/-- A word with legal fields and a payload that fits spells an instruction. -/
theorem LegalFields.decodeCommand_ok {w : Word} {payload : List Word} (h : LegalFields w) (hfit : payloadFits w payload = true) :
    ∃ i, decodeCommand w payload = .ok i := by
  obtain ⟨hop, hrsv, hch2, hcount, hlow⟩ := h
  have ops : cmdOp w = 1 ∨ cmdOp w = 2 ∨ cmdOp w = 3 ∨ cmdOp w = 4 ∨ cmdOp w = 5 := by bv_omega
  rw [not_not] at hrsv
  have hch2 : (cmdOp w).toNat ≤ 3 → cmdCh2 w = 0 := fun h => by bv_omega
  have hcount : (cmdOp w).toNat = 1 ∨ (cmdOp w).toNat = 4 → cmdCount w = 0 := fun h => by bv_omega
  have hlow : (cmdOp w).toNat = 5 → w.extractLsb' 0 28 = 0 := fun h => not_not.1 fun hne => hlow ⟨h, hne⟩
  rcases ops with e | e | e | e | e <;> rw [e] at hch2 hcount hlow
  · exact ⟨.qInit (cmdCh w), by simp [decodeCommand, e, hrsv, hch2 (by decide), hcount (by decide)]⟩
  · exact ⟨.qRead (cmdCh w) (cmdCount w), by simp [decodeCommand, e, hrsv, hch2 (by decide)]⟩
  · exact ⟨.qWrite (cmdCh w) payload, by simp [decodeCommand, e, hrsv, hch2 (by decide)]⟩
  · have hlen : payload.length = 1 := by rw [(payloadFits_iff w payload).1 hfit]; simp [payloadLength, e]
    obtain ⟨ctx, rfl⟩ := List.length_eq_one_iff.1 hlen
    exact ⟨.openPair (cmdCh w) (cmdCh2 w) ctx, by simp [decodeCommand, e, hrsv, hcount (by decide)]⟩
  · obtain ⟨hch, hch2, _, hcount⟩ := (lowBits_eq_zero_iff w).1 (hlow (by decide))
    exact ⟨.shutdown, by simp [decodeCommand, e, hrsv, hch, hch2, hcount]⟩

/-- The words of an instruction have legal fields. -/
theorem LegalFields.of_decodeCommand {w : Word} {payload : List Word} {i : Instr} (h : decodeCommand w payload = .ok i) :
    LegalFields w := by
  have hspell := spelledBy_of_decodeCommand h
  cases i with
  | qInit c =>
    obtain rfl : w = _ := hspell
    constructor <;> simp
  | qRead c n =>
    obtain rfl : w = _ := hspell
    constructor <;> simp
  | qWrite c words =>
    rw [hspell.1]
    constructor <;> simp
  | openPair tx rx ctx =>
    rw [hspell.1]
    constructor <;> simp
  | shutdown =>
    obtain rfl : w = _ := hspell
    constructor <;> decide
  | busRd16 a => exact hspell.elim
  | busWr16 a v => exact hspell.elim

/-- Checks 3 and 4 of R130 over a command word's fields: channels, then the count. -/
def rangeChecks (p : Params) (w : Word) : Option FaultCode :=
  if (cmdOp w).toNat ≤ 4 ∧ p.nCh ≤ (cmdCh w).toNat then some .channelRange
  else if (cmdOp w).toNat = 4 ∧ p.nCh ≤ (cmdCh2 w).toNat then some .channelRange
  else if ((cmdOp w).toNat = 2 ∨ (cmdOp w).toNat = 3) ∧ (cmdCount w).toNat = 0 then some .zeroCount
  else none

/-- The operand checks of the instruction a packet spells are those of its word's fields. -/
theorem operandFault_eq_rangeChecks {p : Params} {w : Word} {payload : List Word} {i : Instr}
    (h : decodeCommand w payload = .ok i) (hfit : payloadFits w payload = true) : operandFault p i = rangeChecks p w := by
  have hspell := spelledBy_of_decodeCommand h
  cases i with
  | qInit c =>
    obtain rfl : w = _ := hspell
    simp [operandFault, rangeChecks]
  | qRead c n =>
    obtain rfl : w = _ := hspell
    simp [operandFault, rangeChecks, ← BitVec.toNat_inj]
  | qWrite c words =>
    obtain ⟨hw, rfl⟩ := hspell
    have hlen : (cmdCount w).toNat = payload.length := by
      rw [(payloadFits_iff w payload).1 hfit, hw]; simp [payloadLength]
    cases payload <;> rw [hw] <;> simp [operandFault, rangeChecks, hlen]
  | openPair tx rx ctx =>
    obtain ⟨rfl, _⟩ := hspell
    by_cases htx : p.nCh ≤ tx.toNat <;> simp [operandFault, rangeChecks, htx]
  | shutdown =>
    obtain rfl : w = _ := hspell
    simp [operandFault, rangeChecks]
  | busRd16 a => exact hspell.elim
  | busWr16 a v => exact hspell.elim

/-- All checks of R130 over a command word's fields, in their order. -/
def acceptChecks (p : Params) (w : Word) : Option FaultCode :=
  if (cmdOp w).toNat < 1 ∨ 5 < (cmdOp w).toNat then some .illegalCommand
  else if cmdRsv w ≠ 0 then some .illegalCommand
  else if (cmdOp w).toNat ≤ 3 ∧ (cmdCh2 w).toNat ≠ 0 then some .illegalCommand
  else if ((cmdOp w).toNat = 1 ∨ (cmdOp w).toNat = 4) ∧ (cmdCount w).toNat ≠ 0 then some .illegalCommand
  else if (cmdOp w).toNat = 5 ∧ w.extractLsb' 0 28 ≠ 0 then some .illegalCommand
  else rangeChecks p w

theorem acceptChecks_legal {w : Word} (p : Params) (h : LegalFields w) : acceptChecks p w = rangeChecks p w := by
  rw [acceptChecks, if_neg h.op, if_neg h.rsv, if_neg h.ch2, if_neg h.count, if_neg h.low]

theorem acceptChecks_illegal {w : Word} (p : Params) (h : ¬ LegalFields w) : acceptChecks p w = some .illegalCommand := by
  unfold acceptChecks
  split; · rfl
  rename_i hop
  split; · rfl
  rename_i hrsv
  split; · rfl
  rename_i hch2
  split; · rfl
  rename_i hcount
  split; · rfl
  rename_i hlow
  exact absurd ⟨hop, hrsv, hch2, hcount, hlow⟩ h

/-- The accept step finds the fault that the checks of R130 find in the word's fields. -/
theorem acceptFault_eq {p : Params} {w : Word} {payload : List Word} (hfit : payloadFits w payload = true) :
    acceptFault p w payload = acceptChecks p w := by
  unfold acceptFault
  cases hd : decodeCommand w payload with
  | ok i => rw [acceptChecks_legal p (.of_decodeCommand hd)]; exact operandFault_eq_rangeChecks hd hfit
  | error e =>
    refine (acceptChecks_illegal p fun hl => ?_).symm
    obtain ⟨i, hok⟩ := hl.decodeCommand_ok hfit
    rw [hd] at hok; cases hok

/-- What an accept step does once its checks are made: a fault, or the command waits for the lock. -/
def State.afterChecks (s : State) (p : PortId) (cmd : Word) (payload : List Word) : Option FaultCode → State
  | some code => s.raiseOn code p cmd
  | none => (s.setPortState p (.executing cmd payload)).addWaiting (.port p)

theorem State.accept_requested {s : State} {p : PortId} {cmd : Word} {payload : List Word} (hh : s.halted = false)
    (hp : (s.port p).state = .requested cmd payload) :
    s.accept p = s.afterChecks p cmd payload (acceptFault s.cfg cmd payload) := by
  simp only [State.accept, hh, hp, Bool.false_eq_true, if_false]
  cases acceptFault s.cfg cmd payload <;> rfl

/-- Settles O4: the accept step's end, taken into each branch of the checks. -/
theorem acceptChecksInOrder : Obligations.AcceptChecksInOrder := by
  intro s p cmd payload hh hp hfit op ch ch2 count
  rw [step_cons, State.perform, State.accept_requested hh hp, acceptFault_eq hfit]
  simp only [acceptChecks, rangeChecks, apply_ite (s.afterChecks p cmd payload)]
  rfl

/-! ### A client takes its response (R124) -/

/-- A take step on a port that shows a response. -/
theorem State.take_responded {s : State} {p : PortId} {resp : Word} {data : List Word}
    (h : (s.port p).state = .responded resp data) :
    s.take p = s.setPort p { state := .empty, prog := progAfter (s.port p).prog resp data } := by
  simp only [State.take, h]

/-- Settles O49: the take step writes that one port. -/
theorem takingTheResponse : Obligations.TakingTheResponse := by
  intro s p resp data h
  have hport : s.hasPort p = true := s.hasPort_of_state (by simp [h])
  refine ⟨s.take p, step_cons s _, ?_, fun q hq => ?_, ?_⟩ <;> rw [State.take_responded h]
  · rw [State.setPort_port_same _ _ _ hport]
  · exact State.setPort_port_other _ _ _ _ hq.symm
  · cases p <;> rfl

/-! ### The client-side loops (R134, R255) -/

/-- A response word carries its status. -/
theorem respStatus_respWord (st : Status) (n : Nat) : respStatus (respWord st n) = some st := by
  have hbits : (respWord st n).extractLsb' 28 4 = st.bits := by
    apply BitVec.eq_of_getLsbD_eq
    intro i hi
    simp only [respWord, BitVec.getLsbD_extractLsb', BitVec.getLsbD_append]
    simp (disch := omega) only [if_neg, hi, decide_true, Bool.true_and]
    congr 1; omega
  rw [respStatus, hbits]
  cases st <;> rfl

/-- FRAME_READ keeps the words of an OK response and ends with any other status (R255). -/
theorem progAfter_reading (c : BitVec 4) (got data : List Word) (ready : Bool) (st : Status) (n : Nat) :
    progAfter (.reading c got ready) (respWord st n) data = if st = .ok then .reading c (got ++ data) true else .done st got := by
  simp only [progAfter, respStatus_respWord]
  cases st <;> rfl

/-- q.write_retry goes on after WOULD_BLOCK and ends with any other status (R134). -/
theorem progAfter_retrying (c : BitVec 4) (words data : List Word) (ready : Bool) (st : Status) (n : Nat) :
    progAfter (.retrying c words ready) (respWord st n) data =
      if st = .wouldBlock then .retrying c words true else .done st [] := by
  simp only [progAfter, respStatus_respWord]
  cases st <;> rfl

/-- Of two writes to a port the second stays. -/
theorem State.setPort_setPort (s : State) (p : PortId) (v v' : Port) : (s.setPort p v).setPort p v' = s.setPort p v' := by
  cases p with
  | handler => rfl
  | client k => simp [State.setPort, List.set_set]

theorem State.setPort_hasPort (s : State) (p q : PortId) (v : Port) : (s.setPort p v).hasPort q = s.hasPort q := by
  cases q with
  | handler => rfl
  | client k =>
    cases p with
    | handler => rfl
    | client j => simp [State.hasPort, State.setPort]

/-- A client whose port is empty sets its loop. -/
theorem State.setProg_empty {s : State} {p : PortId} (hempty : (s.port p).state = .empty) (g : Prog) :
    s.setProg p g = s.setPort p { state := .empty, prog := g } := by
  simp only [State.setProg, hempty]

/-- A client whose port is empty sets its loop and presents an instruction with it. -/
theorem State.setProg_presentInstr {s : State} {p : PortId} {i : Instr} {w : Word} {payload : List Word} (g : Prog)
    (hport : s.hasPort p = true) (hempty : (s.port p).state = .empty) (hi : i.encodable = true) (he : encode i = .command w payload) :
    (s.setProg p g).presentInstr p i = s.setPort p { state := .requested w payload, prog := g } := by
  have hfit := payloadFits_of_encode hi he
  have hstill (v : Port) : (s.setPort p v).hasPort p = true := (s.setPort_hasPort p p v).trans hport
  rw [State.setProg_empty hempty, State.presentInstr, he]
  simp only [State.present, State.setPortState, hstill, State.setPort_port_same _ _ _ hport, hfit, and_self, if_true,
    State.setPort_setPort]

/-- A command word without CH2 and RSV, in the fields of R121 that are left. -/
theorem mkCmd_noCh2 (op ch : BitVec 4) (n : BitVec 16) : mkCmd op ch 0 0 n = op ++ ch ++ (0 : BitVec 8) ++ n := by
  apply BitVec.eq_of_toNat_eq
  simp only [mkCmd, BitVec.toNat_append, BitVec.ofNat_eq_ofNat, BitVec.toNat_ofNat, Nat.zero_mod, Nat.or_zero, ← Nat.shiftLeft_add]

/-- A client with an empty port and no loop in progress may start one. -/
theorem State.clientFree_of_inactive {s : State} {p : PortId} (hport : s.hasPort p = true) (hempty : (s.port p).state = .empty)
    (hprog : (s.port p).prog = .idle ∨ ∃ st got, (s.port p).prog = .done st got) : s.clientFree p = true := by
  have hidle : (s.port p).prog.active = false := by
    obtain e | ⟨st, got, e⟩ := hprog <;> rw [e] <;> rfl
  simp [State.clientFree, hport, hempty, hidle]

/-- Settles O60: `progAfter` for a response, the loop's own packet for a re-issue. -/
theorem clientLoopsTakeResponses : Obligations.ClientLoopsTakeResponses := by
  refine ⟨fun s p c got words data ready st n hport hresp => ⟨fun hprog => ?_, fun hprog => ?_⟩,
    fun s p c words ready hport hempty hlen => ⟨fun hprog => ?_, fun hprog => ?_⟩⟩
  · rw [step_cons, State.perform, State.take_responded hresp, hprog, progAfter_reading]
  · rw [step_cons, State.perform, State.take_responded hresp, hprog, progAfter_retrying]
  · have hgo : s.progress p = (s.setProg p (.retrying c words false)).presentInstr p (.qWrite c words) := by
      simp only [State.progress, hport, hempty, hprog, and_self, if_true]
    have henc : (Instr.qWrite c words).encodable = true := decide_eq_true hlen
    rw [step_cons, State.perform, hgo, State.setProg_presentInstr _ hport hempty henc rfl, mkCmd_noCh2]
  · have hfree := State.clientFree_of_inactive hport hempty hprog
    rw [step_cons, State.perform, State.writeRetry, if_pos ⟨hfree, hlen⟩, State.setProg_empty hempty]

/-! ### What a completed Q_INIT answers (R205) -/

/-- Status and descriptor that a Q_INIT of `c` ends with when all goes well, of the four fields it reads. -/
def State.initEnd (s : State) (c : BitVec 4) : Status × Chan :=
  if descInvalid (s.word (descField s.cfg c 0)) (s.word (descField s.cfg c 1)) (s.word (descField s.cfg c 2))
    (s.word (descField s.cfg c 3)) then (.invalidChannel, Chan.zero)
  else (.ok, descLoaded (s.word (descField s.cfg c 0)) (s.word (descField s.cfg c 1)))

/-- The conditions on a descriptor's fields under which a Q_INIT fails (R205). -/
theorem descInvalid_iff (f b rv wv : Word) :
    descInvalid f b rv wv = true ↔ b = 0 ∨ f = 0 ∨ rv ≠ 0 ∨ wv ≠ 0 ∨ f.extractLsb' 16 16 = 0 := by
  have hsize : flagsSize f = 0 ↔ f.extractLsb' 16 16 = 0 := BitVec.toNat_inj (y := 0)
  simp only [descInvalid, Bool.or_eq_true, decide_eq_true_eq, hsize, or_assoc]

section Init
variable {s : State} {c : BitVec 4}

/-- Q_INIT from its first poll to its response. -/
theorem init_reaches (hh : s.halted = false) (hready : s.Ready) (hc : c.toNat < s.cfg.nCh) :
    Reaches (initTurn c) (s.setChan c.toNat Chan.zero) (.poll false 0) 9 (s.setChan c.toNat (s.initEnd c).2)
      (.respond (s.initEnd c).1 0 []) := by
  have isBody : IsBodyTurn (initTurn c) false c (fun t => t.goto (.respond .ok 0 [])) .invalidChannel := fun _ _ => rfl
  refine body_reaches (s := s.setChan c.toNat Chan.zero) isBody hh hready.cfg hc hready.idle 0 fun u b => ⟨u, b, ?_⟩
  unfold State.initEnd
  split
  · exact if_pos ‹_›
  · refine (if_neg ‹_›).trans ?_
    rw [State.mid_setChan, State.setChan_setChan]
    rfl

/-- Q_INIT, all going well, answers by the descriptor that it reads. -/
theorem exec_qInit_smooth {p : PortId} (he : s.AtEntry p) (hserves : s.Serving) (hready : s.Ready) (hc : c.toNat < s.cfg.nCh)
    (hsmooth : s.smooth = true) (hturns : 10 ≤ s.turns.length) :
    ∃ u b, exec (.qInit c) s = .next
      ((State.mid (State.setChan { s with turns := [] } c.toNat (s.initEnd c).2) (.respond (s.initEnd c).1 0 []) u b).respond
        (s.initEnd c).1 0 []) := by
  have hop : operandFault s.cfg (.qInit c) = none := if_neg (Nat.not_le.2 hc)
  have hbegin : ({ s.enter (.qInit c) (commandBody (.qInit c)) with turns := [] } : State) =
      State.mid (State.setChan { s with turns := [] } c.toNat Chan.zero) (.poll false 0) s.draw s.busResult := by
    simp only [State.enter, hop, hserves.isOpen, hserves.wedged, checkedChannel, Bool.false_eq_true, false_and, if_false]
    rfl
  have run := init_reaches (s := { s with turns := [] }) he.running ⟨hready.cfg, hready.table, hready.idle⟩ hc
  exact exec_smooth rfl he hsmooth hbegin run (by omega) he.running fun _ _ => commandTurn_respond rfl rfl

end Init

section Responded
variable (s : State) (st : Status) (n : Nat) (data : List Word)

@[simp] theorem State.respond_word (a : Word) : (s.respond st n data).word a = s.word a := State.word_congr (by simp) a

@[simp] theorem State.respond_chan (k : Nat) : (s.respond st n data).chan k = s.chan k := State.chan_congr (by simp) k

end Responded

/-- Settles O17: the response and the descriptor by whether the four fields are in order. -/
theorem initResult : Obligations.InitResult := by
  intro s p c he hserves hready hc hsmooth hturns f b rv wv bad
  obtain ⟨_, _, hx⟩ := exec_qInit_smooth he hserves hready hc hsmooth hturns
  have hinvalid : descInvalid f b rv wv = true ↔ bad := descInvalid_iff f b rv wv
  have hchan (d : Chan) : (s.setChan c.toNat d).chan c.toNat = d := s.setChan_chan_same _ _ (hready.table ▸ hc)
  refine ⟨_, hx, fun hbad => ?_, fun hgood => ?_, by simp, fun i hi => ?_⟩
  · have e : s.initEnd c = (.invalidChannel, Chan.zero) := if_pos (hinvalid.2 hbad)
    rw [e]
    exact ⟨State.respond_answered he.owner he.port, (State.respond_chan _ _ _ _ _).trans (hchan _)⟩
  · have e : s.initEnd c = (.ok, descLoaded f b) := if_neg (mt hinvalid.1 hgood)
    rw [e]
    exact ⟨State.respond_answered he.owner he.port, (State.respond_chan _ _ _ _ _).trans (hchan _)⟩
  · exact (State.respond_chan _ _ _ _ _).trans (s.setChan_chan_other _ _ _ hi.symm)

/-! ### What a completed Q_READ answers (R210, R211) -/

section Took
variable {s : State} {c : BitVec 4} {d : Chan} {w n : Nat} (hd : s.chan c.toNat = d)
include hd

theorem State.took_chan (hc : c.toNat < s.ch.length) :
    (s.took c w n).chan c.toNat = { d with wr := w, rd := (d.rd + n) % d.size } := by
  rw [State.took, hd]
  exact State.setChan_chan_same _ _ _ hc

/-- The companion's read offset after a completed Q_READ. -/
theorem State.took_rdOff (hs : s.MemInv) :
    (s.took c w n).word (rdOffAddr s.cfg c) = BitVec.ofNat 32 ((d.rd + n) % d.size) := by
  rw [State.took, hd]
  exact State.setWord_word_same _ _ _ hs

end Took

/-- The words queued are those of the slots from the read offset on. -/
theorem State.queued_eq (s : State) (c : BitVec 4) (n : Nat) :
    s.queued c n = (List.range n).map fun j =>
      s.word (slotAddr (s.chan c.toNat).base (((s.chan c.toNat).rd + j) % (s.chan c.toNat).size)) := by
  simp only [State.queued, ringSlots, List.map_map, Function.comp_def]

/-- Settles O18: the run of `exec_qRead_ok`, and what `State.took` leaves. -/
theorem readResult : Obligations.ReadResult := by
  intro s p c count w he hserves hready hmem hc hcount hv hb hring hw d n hsmooth hturns
  obtain ⟨_, _, hx⟩ := exec_qRead_ok rfl hready hc hb hring he hserves hv hcount hw rfl hsmooth hturns
  let s0 : State := { s with turns := [] }
  refine ⟨_, hx, ?_, ?_, ?_, ?_, ?_, ?_, ?_⟩
  · rw [← State.queued_eq]
    exact State.respond_answered he.owner he.port
  · exact (State.respond_chan _ _ _ _ _).trans (State.took_chan (s := s0) rfl (hready.table ▸ hc))
  · exact (State.respond_word _ _ _ _ _).trans (State.took_rdOff (s := s0) rfl hmem)
  · rw [State.respond_comp]; rfl
  · rw [State.respond_comp]; rfl
  · rw [State.respond_sess]; exact hserves.wedged
  · rw [State.respond_flt]; rfl

/-! ### What a completed Q_WRITE answers (R220, R221) -/

/-- A completed Q_WRITE has rung the doorbell. -/
theorem State.wrote_bell (s : State) (c : BitVec 4) (words : List Word) (r : Nat) :
    (s.wrote c words r).comp.h2c = 0 ∧ (s.wrote c words r).comp.irqFromHost = s.comp.irqFromHost + 1 := by
  obtain ⟨m, e⟩ := s.setSlots_same (s.chan c.toNat).base
    ((ringSlots (s.chan c.toNat).wr words.length (s.chan c.toNat).size).zip words)
  rw [State.wrote, e]
  exact ⟨rfl, rfl⟩

theorem ringSlots_map_getD {α : Type} {r n S j : Nat} (f : Nat → α) (x : α) (hj : j < n) :
    ((ringSlots r n S).map f).getD j x = f ((r + j) % S) := by
  simp [ringSlots, List.getD, hj]

/-- Word `j` of a completed Q_WRITE is in the `j`-th slot from the write offset on (R221). -/
theorem State.wrote_slot {s : State} {c : BitVec 4} {d : Chan} {words : List Word} {r j : Nat} (hd : s.chan c.toNat = d)
    (hs : s.MemInv) (hc : c.toNat < s.cfg.nCh) (hb : d.bounded) (hring : ringPlaced s.cfg d = true) (hn : words.length ≤ d.size)
    (hj : j < words.length) : (s.wrote c words r).word (slotAddr d.base ((d.wr + j) % d.size)) = words.getD j 0 := by
  have h := ringSlots_map_getD (r := d.wr) (S := d.size) (fun k => (s.wrote c words r).word (slotAddr d.base k)) 0 hj
  rw [State.wrote_slots hd hs hc hb hring hn] at h
  exact h.symm

/-- Settles O19: the run of `exec_qWrite_ok`, and what `State.wrote` leaves. -/
theorem writeResult : Obligations.WriteResult := by
  intro s p c words r he hserves hready hmem hc hne _ hv hb hring hr d n hfree hsmooth hturns
  obtain ⟨_, _, hx⟩ := exec_qWrite_ok rfl hready hc hb hring he hserves hv hne hr hfree hsmooth hturns
  let s0 : State := { s with turns := [] }
  obtain ⟨_, _, hsame, _⟩ := State.wrote_same s0 c words r
  obtain ⟨hh2c, hirq⟩ := State.wrote_bell s0 c words r
  have hsize : words.length ≤ d.size := hfree.trans ((Nat.sub_le _ _).trans (Nat.sub_le _ _))
  refine ⟨_, hx, ?_, ?_, fun j hj => ?_, ?_, ?_, ?_, ?_, ?_⟩
  · exact State.respond_answered (by rw [hsame]; exact he.owner) (by rw [hsame]; exact he.port)
  · exact (State.respond_chan _ _ _ _ _).trans (State.wrote_chan (s := s0) rfl (hready.table ▸ hc))
  · exact (State.respond_word _ _ _ _ _).trans (State.wrote_slot (s := s0) rfl hmem hc hb hring hsize hj)
  · exact (State.respond_word _ _ _ _ _).trans (State.wrote_wrOff (s := s0) rfl hmem)
  · rw [State.respond_comp]; exact hh2c
  · rw [State.respond_comp]; exact hirq
  · rw [State.respond_sess, State.mid_sess, hsame]; exact hserves.wedged
  · rw [State.respond_flt, State.mid_flt, hsame]

end Sys2Proof.Machine

/-! PROOFS. The statements of spec/40_bus_driver.md: the worker's two mailbox transactions (R159, R160), one poll of WaitIdle (R156),
the ReenableWait (R161, R197) and the doorbell's three writes (R158, R162, R163). -/

namespace Sys2Proof.Machine

/-! ### The worker's mailbox transactions (R159, R160, R290) -/

/-- With the lock held in phase ReadMbox the worker reads the C2H mailbox. -/
theorem State.workerStep_readMbox {s : State} (d : Draw) (hh : s.halted = false) (hs : s.wk.state = .dispatching)
    (ho : s.seq.owner = some .worker) (hp : s.wk.phase = .readMbox) :
    s.workerStep d =
      let t := State.busRead s.cfg.regC2H { s with draw := d }
      if t.halted then t else t.afterMboxRead := by
  simp only [State.workerStep, hh, hs, hp, ho, Bool.false_eq_true, reduceCtorEq, or_self, if_false, if_true]
  rfl

/-- With the lock held in phase ClearMbox the worker writes the bits it read back to the C2H mailbox. -/
theorem State.workerStep_clearMbox {s : State} (d : Draw) {m : Half} (hh : s.halted = false) (hs : s.wk.state = .dispatching)
    (ho : s.seq.owner = some .worker) (hp : s.wk.phase = .clearMbox m) :
    s.workerStep d =
      let t := State.busWrite s.cfg.regC2H m { s with draw := d }
      if t.halted then t else t.afterMboxClear m := by
  simp only [State.workerStep, hh, hs, hp, ho, Bool.false_eq_true, reduceCtorEq, or_self, if_false, if_true]
  rfl

/-- Settles O8: the worker holds the lock of a running block, so exec of the bus instruction is the transaction of its step. -/
theorem workerRunsBusInstructions : Obligations.WorkerRunsBusInstructions := by
  intro s d hh hs ho
  refine ⟨fun hp => ?_, fun m hp => ?_⟩
  · have hexec : exec (.busRd16 s.cfg.regC2H) { s with draw := d } = .next (State.busRead s.cfg.regC2H { s with draw := d }) :=
      State.asLockHolder_eq ho hh
    rw [step_cons, State.perform, State.workerStep_readMbox d hh hs ho hp, hexec]
  · have hexec : exec (.busWr16 s.cfg.regC2H m) { s with draw := d } = .next (State.busWrite s.cfg.regC2H m { s with draw := d }) :=
      State.asLockHolder_eq ho hh
    rw [step_cons, State.perform, State.workerStep_clearMbox d hh hs ho hp, hexec]

/-! ### One poll of WaitIdle (R156, R275) -/

/-- What follows a poll whose value shows BUSY as `busy`: the wait is over, or it ends at the bound, or it goes on. -/
theorem State.afterPoll_outcome {s : State} {second busy : Bool} {polls : Nat} {v : Half} {next : Label}
    (hv : busySeen s.cfg v = busy) :
    let t := s.afterPoll second polls v next
    t.comp = s.comp ∧ t.ch = s.ch ∧
      (if busy = false then t.seq.step = next ∧ t.sess = s.sess
       else if ∃ m, s.cfg.idleMaxPolls = some m ∧ m ≤ polls + 1 then
        t.seq.step = .respond .timeout 0 [] ∧ t.sess = { s.sess with wedged := true }
       else t.seq.step = .poll second (polls + 1) ∧ t.sess = s.sess) := by
  unfold State.afterPoll
  rw [hv]
  cases busy with
  | false => exact ⟨rfl, rfl, rfl, rfl⟩
  | true =>
    cases hmax : s.cfg.idleMaxPolls with
    | none => simp
    | some m => by_cases hle : m ≤ polls + 1 <;> simp [hle, State.wedge]

/-- What comes after the WaitIdle of a command: the refresh of Q_READ and Q_WRITE, the descriptor of Q_INIT and OPEN. -/
def afterWaitIdle (second : Bool) : Instr → Option Label
  | .qInit _ => some (.descLow second [])
  | .qRead _ _ => some .offLow
  | .qWrite _ _ => some .offLow
  | .openPair _ _ _ => some (.descLow second [])
  | .shutdown => none
  | .busRd16 _ => none
  | .busWr16 _ _ => none

/-- Every command with a WaitIdle polls the status register there and goes on by `State.afterPoll`. -/
theorem commandTurn_poll {i : Instr} {s : State} {second : Bool} {polls : Nat} {next : Label}
    (hi : afterWaitIdle second i = some next) : ∃ onValue onWritten,
      (∀ d b, commandTurn i (s.mid (.poll second polls) d b) =
        (s.mid (.poll second polls) d b).turnWith (some (pollRecord s.cfg)) onValue onWritten) ∧
      ∀ v (u : State), u.seq.step = .poll second polls → onValue v u = u.afterPoll second polls v next := by
  cases i with
  | qInit c =>
    cases hi
    exact ⟨State.bodyValue c (fun t => t.goto (.respond .ok 0 [])) .invalidChannel, fun t => t, fun _ _ => rfl,
      fun v u hu => by rw [State.bodyValue, hu]⟩
  | qRead c n =>
    cases hi
    exact ⟨State.readValue c n.toNat, _, fun _ _ => rfl, fun v u hu => by rw [State.readValue, hu]⟩
  | qWrite c words =>
    cases hi
    exact ⟨State.writeValue c words, _, fun _ _ => rfl, fun v u hu => by rw [State.writeValue, hu]⟩
  | openPair tx rx ctx =>
    cases hi
    exact ⟨State.bodyValue (if second then rx else tx) (State.openNext tx rx ctx second) .channelUnavailable, fun t => t,
      fun _ _ => rfl, fun v u hu => by rw [State.bodyValue, hu]⟩
  | _ => cases hi

/-- One good poll of a command in progress: what follows it, with the status read's value. -/
theorem exec_poll {i : Instr} {s : State} {p : PortId} {second : Bool} {polls : Nat} {next : Label} {d : Draw}
    (hi : afterWaitIdle second i = some next) (hwf : s.cfg.wf = true) (ho : s.seq.owner = some (.port p)) (hh : s.halted = false)
    (hs : s.seq.step = .poll second polls) (ht : s.turns = [{ before := [], draw := d }]) (hf : d.fail = false) :
    let v := statusRead s.cfg s.comp.busy d.noise
    exec i s = .next ((State.mid { s with turns := [] } (.poll second polls) d (.value v)).afterPoll second polls v next) := by
  have hcmd : isCommand i = true := by cases i <;> first | rfl | cases hi
  have hmid : ({ s with turns := [], draw := d } : State) =
      State.mid { s with turns := [] } (.poll second polls) d s.busResult := by rw [← hs]; rfl
  obtain ⟨onValue, onWritten, hturn, hvalue⟩ := commandTurn_poll (s := { s with turns := [] }) (polls := polls) hi
  rw [exec_oneTurn hcmd ho hh (by simp [hs]) (by simp [hs]) ht, hmid, hturn,
    turnWith_poll (s := { s with turns := [] }) hh (Params.wf_registers hwf).statusEven hf, hvalue _ _ rfl]

/-- Settles O27: the poll's value shows BUSY as it is (R33), and `State.afterPoll` chooses among the three outcomes. -/
theorem idleWaitPoll : Obligations.IdleWaitPoll := by
  intro s p c i second polls noise landed late next hwf ho hh hs ht hcmd
  have hi : afterWaitIdle second i = some next := by
    rcases hcmd with ⟨⟨_, rfl⟩, rfl⟩ | ⟨⟨_, rfl⟩, rfl⟩ | ⟨rfl, rfl⟩ | ⟨⟨_, _, rfl⟩, rfl⟩ <;> rfl
  exact ⟨_, exec_poll hi hwf ho hh hs ht rfl, State.afterPoll_outcome (busySeen_statusRead s.cfg s.comp.busy noise)⟩

/-! ### The ReenableWait (R161, R197) -/

/-- Only `c_reenable` moves the sequencer. -/
theorem State.companionStep_seq (s : State) {a : CompAct} (ha : a ≠ .reenable) : (s.companionStep a).seq = s.seq := by
  cases a with
  | reenable => exact absurd rfl ha
  | mem a v => unfold State.companionStep; dsimp only; split <;> rfl
  | irq => unfold State.companionStep State.interruptInput; dsimp only; split <;> rfl
  | _ => rfl

theorem State.companionSteps_seq (s : State) {acts : List CompAct} (h : .reenable ∉ acts) : (s.companionSteps acts).seq = s.seq := by
  induction acts generalizing s with
  | nil => rfl
  | cons a rest ih =>
    obtain ⟨ha, hrest⟩ := not_or.1 (mt List.mem_cons.2 h)
    exact (ih (s.companionStep a) hrest).trans (s.companionStep_seq (Ne.symm ha))

/-- No companion step looks at the coming turns. -/
theorem State.companionStep_setTurns (s : State) (ts : List Turn) (a : CompAct) :
    State.companionStep { s with turns := ts } a = { s.companionStep a with turns := ts } := by
  have hh : State.halted { s with turns := ts } = s.halted := rfl
  cases a with
  | mem a v => simp only [State.companionStep]; split <;> rfl
  | irq => simp only [State.companionStep, State.interruptInput, hh]; split <;> rfl
  | reenable =>
    simp only [State.companionStep, State.reenable, hh]
    split
    · rfl
    · cases s.seq.step <;> rfl
  | _ => rfl

theorem State.companionSteps_setTurns (s : State) (ts : List Turn) (acts : List CompAct) :
    State.companionSteps { s with turns := ts } acts = { s.companionSteps acts with turns := ts } := by
  induction acts generalizing s with
  | nil => rfl
  | cons a rest ih =>
    calc State.companionSteps { s with turns := ts } (a :: rest)
        = State.companionSteps (State.companionStep { s with turns := ts } a) rest := rfl
      _ = State.companionSteps { s.companionStep a with turns := ts } rest := by rw [s.companionStep_setTurns]
      _ = { s.companionSteps (a :: rest) with turns := ts } := ih (s.companionStep a)

/-- One turn of a command in progress, after steps of the companion. -/
theorem exec_turnAfter {i : Instr} {s : State} {p : PortId} {acts : List CompAct} {d : Draw} (hi : isCommand i = true)
    (ho : s.seq.owner = some (.port p)) (hh : s.halted = false) (hoff : s.seq.step ≠ .off) (hentry : s.seq.step ≠ .entry)
    (ht : s.turns = [{ before := acts, draw := d }]) :
    exec i s = .next (commandTurn i { s.companionSteps acts with turns := [], draw := d }) := by
  have running : ({ s with turns := [] } : State).ended = false := by
    simp only [State.ended, Bool.or_eq_false_iff, decide_eq_false_iff_not]
    exact ⟨hh, hoff⟩
  rw [exec_command hi, State.runCommand_eq ho hh hoff, if_neg hentry, ht, State.runTurns_cons running,
    State.companionSteps_setTurns]
  rfl

/-- Only Q_READ and Q_WRITE have their channel checked at the grant, and both are commands (R200). -/
theorem isCommand_of_checkedChannel {i : Instr} {c : BitVec 4} (hi : checkedChannel i = some c) : isCommand i = true := by
  cases i with
  | qRead c' n => rfl
  | qWrite c' words => rfl
  | _ => cases hi

/-- A turn in the ReenableWait: a timeout that is allowed and drawn wedges the session and ends the command, else it holds. -/
theorem commandTurn_hold {i : Instr} {c : BitVec 4} {s : State} {n : Nat} {out : List Word} (hi : checkedChannel i = some c)
    (hs : s.seq.step = .hold n out) :
    commandTurn i s = if s.cfg.reenableTimeout ∧ s.draw.timeout then s.wedge.goto (.respond .timeout n out) else s := by
  have hlocal : s.localTurn = if s.cfg.reenableTimeout ∧ s.draw.timeout then s.wedge.goto (.respond .timeout n out) else s := by
    simp only [State.localTurn, hs]
  rw [← hlocal]
  cases i with
  | qRead c' m => rw [commandTurn, readTurn, hs]; rfl
  | qWrite c' words => rw [commandTurn, writeTurn, hs]; rfl
  | _ => cases hi

/-- While a command holds the lock only its own turns, `c_reenable` and a reset move the sequencer. -/
theorem State.perform_seq_of_held {e : Event} {s t : State} {p : PortId} (h : s.perform e = .next t) (hl : s.sess.lock ≠ none)
    (ho : s.seq.owner = some (.port p)) (hre : e ≠ .companion .reenable) (hturns : ∀ ts, e ≠ .turns ts)
    (hreset : ∀ b, e ≠ .reset b) : t.seq = s.seq := by
  by_cases he : otherAgent e = true ∨ ∃ q, e = .lockTimeout q
  · exact State.perform_seq he h hl ho
  · obtain ⟨hother, hlate⟩ := not_or.1 he
    cases e with
    | companion a => injection h with h; subst h; exact s.companionStep_seq fun ha => hre (congrArg _ ha)
    | turns ts => exact absurd rfl (hturns ts)
    | reset b => exact absurd rfl (hreset b)
    | lockTimeout q => exact absurd ⟨q, rfl⟩ hlate
    | grant q ts =>
      have hc : ¬ s.canGrant q = true := by simp [State.canGrant, hl]
      simp only [State.perform, State.grant, if_neg hc] at h
      injection h with h
      rw [h]
    | _ => exact absurd rfl hother

/-- Settles O28: `c_reenable` is the companion's step, a turn is `commandTurn_hold`, and every other step leaves the sequencer alone. -/
theorem reenableWaitHolds : Obligations.ReenableWaitHolds := by
  intro s p i c n out acts d hi ho hh hs
  refine ⟨?_, fun ht hacts => ?_, fun t hlock hstep hre hturns hreset => ?_⟩
  · have hnext : s.companionStep .reenable = s.goto (.bellSet n out) := by
      simp [State.companionStep, State.reenable, hh, hs]
    rw [step_cons, State.perform, hnext]
    rfl
  · have same := s.companionSteps_companionSame acts
    have hheld : (s.companionSteps acts).seq.step = .hold n out := by rw [s.companionSteps_seq hacts, hs]
    refine ⟨_, exec_turnAfter (isCommand_of_checkedChannel hi) ho hh (by simp [hs]) (by simp [hs]) ht, ?_⟩
    rw [commandTurn_hold (s := { s.companionSteps acts with turns := [], draw := d }) hi hheld]
    dsimp only
    rw [same.cfg]
    split
    · exact ⟨rfl, same.ch, rfl, congrArg (fun x : Session => { x with wedged := true }) same.sess⟩
    · exact ⟨rfl, same.ch, hheld, same.sess⟩
  · obtain ⟨rest, k, hperform⟩ := step_next hstep
    have hl : s.sess.lock ≠ none := by simp [hlock.holder, ho]
    have hseq : t.seq = s.seq :=
      State.perform_seq_of_held (s := { s with inputs := rest, clock := k }) hperform hl ho hre hturns hreset
    exact hseq ▸ ⟨hs, ho⟩

/-! ### The doorbell (R158, R162, R163) -/

/-- One good doorbell write of a command in progress: the companion takes the write, and the doorbell goes on. -/
theorem exec_bell {i : Instr} {c : BitVec 4} {s : State} {p : PortId} {l l' : Label} {a : Word} {v : Half}
    (hi : checkedChannel i = some c) (ho : s.seq.owner = some (.port p)) (hh : s.halted = false) (ht : s.turns = [Turn.quiet])
    (hs : s.seq.step = l) (ha : oddAddress a = false) (hr : bellRecord s.cfg c l = some (wr16 a v))
    (hnext : ∀ u : State, u.seq.step = l → u.afterBell = u.goto l') :
    ∃ t, exec i s = .next t ∧ t.seq.step = l' ∧ t.comp = s.comp.write16 s.cfg a v := by
  have hmid : ({ s with turns := [], draw := Draw.good } : State) = State.mid { s with turns := [] } l Draw.good s.busResult := by
    rw [← hs]; rfl
  obtain ⟨onValue, onWritten, hturn, hwritten⟩ := commandTurn_bell (s := { s with turns := [] }) hi hr
  have hoff : s.seq.step ≠ .off := by rintro e; rw [← hs, e] at hr; cases hr
  have hentry : s.seq.step ≠ .entry := by rintro e; rw [← hs, e] at hr; cases hr
  refine ⟨_, exec_oneTurn (isCommand_of_checkedChannel hi) ho hh hoff hentry ht, ?_⟩
  rw [hmid, hturn, turnWith_wr16 (s := { s with turns := [] }) hh ha rfl, hwritten _ rfl, hnext _ rfl]
  exact ⟨rfl, rfl⟩

/-- MBOX_H2C_WRITE sets the H2C mailbox and nothing else (R158). -/
theorem Comp.write16_regH2C {p : Params} (h : RegistersApart p) (m : Half) (c : Comp) :
    c.write16 p p.regH2C m = { c with h2c := m } := by
  simp [Comp.write16, h.statusH2C.symm]

/-- TRIGGER_IRQ counts one interrupt and changes nothing else (R162). -/
theorem Comp.write16_irqMask (p : Params) (c : Comp) :
    c.write16 p p.regStatus (irqMask p) = { c with irqFromHost := c.irqFromHost + 1 } := by
  simp [Comp.write16, irqWritten_irqMask]

/-- Settles O29: each of the three is `exec_bell`, with what the written register makes of the companion. -/
theorem doorbellSequence : Obligations.DoorbellSequence := by
  intro s p i c n out hi hwf ho hh ht
  have regs := Params.wf_registers hwf
  refine ⟨fun hs => ?_, fun hs => ?_, fun hs => ?_⟩
  · rw [← bellMask, ← Comp.write16_regH2C regs]
    exact exec_bell hi ho hh ht hs regs.h2cEven rfl fun u hu => by rw [State.afterBell, hu]
  · rw [← Comp.write16_regH2C regs]
    exact exec_bell hi ho hh ht hs regs.h2cEven rfl fun u hu => by rw [State.afterBell, hu]
  · rw [← Comp.write16_irqMask s.cfg]
    exact exec_bell hi ho hh ht hs regs.statusEven rfl fun u hu => by rw [State.afterBell, hu]

end Sys2Proof.Machine

/-! PROOFS. The statements of spec/41_queue_engine.md: the ring arithmetic (R191-R196), what Q_WRITE, Q_READ, OPEN and SHUTDOWN
answer (R195, R200, R220, R226, R230), and what each command leaves alone (R197, R205, R210, R220, R226, R230). -/

namespace Sys2Proof.Machine

/-! ### The ring's offsets (R191-R196) -/

/-- `used` and `free` share out the S - 1 words a ring holds (R191, R192). -/
theorem used_add_free {r w S : Nat} (hr : r < S) (hw : w < S) : used r w S + free r w S = S - 1 := by
  rw [used_eq hr hw, free_eq hr hw]
  split <;> omega

/-- No word is queued exactly where the offsets are equal (R191, R193). -/
theorem used_eq_zero_iff {r w S : Nat} (hr : r < S) (hw : w < S) : used r w S = 0 ↔ r = w := by
  rw [used_eq hr hw]
  split <;> omega

/-- No slot is free exactly where the write offset stands one before the read offset, around the ring's end too (R192, R193). -/
theorem free_eq_zero_iff {r w S : Nat} (hr : r < S) (hw : w < S) : free r w S = 0 ↔ (w + 1) % S = r := by
  rw [free_eq hr hw]
  rcases Nat.lt_or_ge (w + 1) S with hin | hend
  · rw [Nat.mod_eq_of_lt hin]
    split <;> omega
  · rw [show w + 1 = S by omega, Nat.mod_self]
    split <;> omega

/-- An offset above the size has no normal value (R195). -/
theorem norm_above {v S : Nat} (h : S < v) : norm v S = none := by
  rw [norm, if_neg (by omega), if_neg (by omega)]

/-- Settles O14: `used` and `free` without their remainders, and `norm` range by range. -/
theorem ringOffsetArithmetic : Obligations.RingOffsetArithmetic := by
  refine ⟨fun r w S hr hw => ⟨used_add_free hr hw, used_eq_zero_iff hr hw, ?_, free_eq_zero_iff hr hw, ?_⟩, fun v S _ => ⟨?_, ?_, ?_⟩⟩
  · simp [ringEmpty]
  · simp [ringFull, free_eq_zero_iff hr hw]
  · intro hv; rw [norm, if_pos hv]
  · rintro rfl; simp [norm]
  · exact norm_above

/-- Settles O15: `readSpans` is the queued slots from the read offset on, and the offset after them. -/
theorem readSpansLaw : Obligations.ReadSpansLaw := by
  intro r w S max hr hw n
  rw [readSpans_eq max hr hw]
  exact ⟨rfl, rfl⟩

/-- Settles O16: `writeSpans` is free slots from the write offset on, and filling them uses as many more. -/
theorem writeSpansLaw : Obligations.WriteSpansLaw := by
  intro r w S N hr hw hN
  have hsum := used_add_free hr hw
  rw [writeSpans_eq hr hw hN]
  exact ⟨rfl, rfl, used_add hr hw hN, by omega⟩

/-! ### A Closed session (R230, R287, R340) -/

/-- What a Closed session keeps from `s` on: no timer and no pass, and it stays Closed. -/
structure State.StaysClosed (s t : State) : Prop where
  quiet : t.ClosedInv
  closed : s.sess.isOpen = false → t.sess.isOpen = false

/-- A step that leaves the session as Open or Closed as it was, and on a Closed one starts neither timer nor pass. -/
theorem State.StaysClosed.next {s t u : State} (h : s.StaysClosed t) (hopen : u.sess.isOpen = t.sess.isOpen)
    (hquiet : t.sess.isOpen = false → (t.armed = false → u.armed = false) ∧ (t.wk.pending = false → u.wk.pending = false)) :
    s.StaysClosed u where
  quiet := fun hc => by
    have hc := hopen ▸ hc
    exact ⟨(hquiet hc).1 (h.quiet hc).1, (hquiet hc).2 (h.quiet hc).2⟩
  closed := fun hc => hopen.trans (h.closed hc)

theorem State.StaysClosed.companion {s t u : State} (h : s.StaysClosed t) (k : CompanionSame t u) : s.StaysClosed u :=
  h.next (by rw [k.sess]) fun hc => ⟨fun ha => k.armed.trans ha, fun hp => (k.closed hc).trans hp⟩

/-- A command leaves a Closed session Closed, and SHUTDOWN closes it with neither timer nor pass (R230). -/
theorem exec_staysClosed {i : Instr} {s t u : State} (hi : isCommand i = true) (h : exec i t = .next u) (hs : s.StaysClosed t) :
    s.StaysClosed u := by
  refine exec_keeps (P := s.StaysClosed) hi h hs ?_ ?_ (fun _ _ k c => k.companion c) ?_ ?_ ?_
  · exact fun _ k => ⟨k.quiet, k.closed⟩
  · exact fun _ _ k => ⟨k.quiet, k.closed⟩
  · exact fun _ _ k c => k.next c.isOpen fun _ => ⟨fun ha => c.armed.trans ha, fun hp => (congrArg _ c.wk).trans hp⟩
  · exact fun _ _ _ _ k => k.next (by simp) fun _ => by simp
  · exact fun _ _ _ => ⟨fun _ => ⟨rfl, rfl⟩, fun _ => rfl⟩

/-- Every agent's step but the platform's leaves a Closed session Closed. -/
theorem State.perform_staysClosed {e : Event} {s t : State} (hs : s.ClosedInv) (h : s.perform e = .next t) (he : ∀ b, e ≠ .reset b) :
    s.StaysClosed t := by
  have start : s.StaysClosed s := ⟨hs, id⟩
  rcases State.perform_cases h with ⟨p, ts, i, _, _, _, hi, hx⟩ | ⟨p, ts, i, _, _, _, _, hi, hx⟩ | ⟨a, _, rfl⟩ | ⟨b, rfl, _⟩ |
    ⟨q, _, rfl⟩ | k
  · exact exec_staysClosed (t := s.grantedPort p ts) hi hx ⟨hs, id⟩
  · exact exec_staysClosed (t := { s with turns := ts }) hi hx ⟨hs, id⟩
  · exact start.companion (s.companionStep_companionSame a)
  · exact absurd rfl (he b)
  · have k := s.lockTimeout_same q
    exact start.next k.isOpen k.closed
  · exact start.next k.isOpen k.closed

/-- Settles O38: of all agents only the platform opens a session, and its reset opens it. -/
theorem closedUntilReset : Obligations.ClosedUntilReset := by
  intro s t hs h
  obtain ⟨rest, k, hp⟩ := step_next h
  by_cases hreset : ∃ b, s.event = .reset b
  · obtain ⟨b, hb⟩ := hreset
    rw [hb, State.perform] at hp
    injection hp with hp
    have hopen : t.sess.isOpen = true := by rw [← hp]; rfl
    exact ⟨fun hc => by simp [hopen] at hc, fun _ he => absurd hb (he b)⟩
  · have k := State.perform_staysClosed (s := { s with inputs := rest, clock := k }) hs hp fun b hb => hreset ⟨b, hb⟩
    exact ⟨k.quiet, fun hc _ => k.closed hc⟩

/-! ### Commands that make no transaction (R200, R230) -/

/-- A command whose beginning goes straight to its response answers with it in its first turn, if the companion is silent. -/
theorem exec_answersAtOnce {i : Instr} {s s' : State} {p : PortId} {st : Status} (hi : isCommand i = true) (he : s.AtEntry p)
    (hsilent : s.companionSilent = true) (hturns : 1 ≤ s.turns.length)
    (hbegin : s.enter i (commandBody i) = s'.goto (.respond st 0 [])) (hh : s'.halted = false) :
    ∃ d b, exec i s = .next ((State.mid { s' with turns := [] } (.respond st 0 []) d b).respond st 0 []) := by
  obtain ⟨x, rest, hx⟩ := List.exists_cons_of_length_pos hturns
  have hacts : ∀ a ∈ x.before, a = .reenable := by
    simp only [State.companionSilent, hx, List.all_cons, Bool.and_eq_true, List.all_eq_true, decide_eq_true_eq] at hsilent
    exact hsilent.1
  let u : State := State.mid { s' with turns := [] } (.respond st 0 []) s'.draw s'.busResult
  have hstill : u.companionSteps x.before = u := by
    rcases u.companionSteps_silent x.before hacts with e | ⟨_, _, _, e, _⟩
    · exact e
    · cases e
  have hrun : u.ended = false := by simp only [State.ended, Bool.or_eq_false_iff, decide_eq_false_iff_not]; exact ⟨hh, nofun⟩
  refine ⟨x.draw, s'.busResult, ?_⟩
  rw [exec_command hi, State.runCommand_eq he.owner he.running (by simp [he.entry]), if_pos he.entry, hbegin, hx]
  show Host.Outcome.next (State.runTurns (commandTurn i) (x :: rest) u) = _
  rw [State.runTurns_cons hrun, hstill, commandTurn_respond hi rfl, State.runTurns_ended (by simp [State.ended])]
  rfl

/-- SHUTDOWN clears every descriptor (R230). -/
theorem State.shutDown_chan (s : State) (i : Nat) : s.shutDown.chan i = Chan.zero := by
  show (s.ch.map fun _ => Chan.zero).getD i Chan.zero = Chan.zero
  rw [List.map_const', List.getD_eq_getElem?_getD, List.getElem?_getD_replicate_default_eq]

/-- Settles O23: SHUTDOWN ends the session in its grant's own step and answers in the next. -/
theorem shutdownResult : Obligations.ShutdownResult := by
  intro s p he hopen hsilent hturns
  have hbegin : s.enter .shutdown (commandBody .shutdown) = s.shutDown.goto (.respond .ok 0 []) := by
    rw [shutdownBegin_cases, if_pos hopen]
    rfl
  obtain ⟨_, _, hx⟩ := exec_answersAtOnce rfl he hsilent hturns hbegin he.running
  refine ⟨_, hx, State.respond_answered he.owner he.port, fun i => ?_, ?_, ?_, ?_, ?_, ?_, ?_⟩
  · exact (State.respond_chan _ _ _ _ _).trans (s.shutDown_chan i)
  all_goals simp [State.shutDown, State.mid]

/-- The first check of R200: a Closed session turns every command away. -/
theorem State.enter_closed {i : Instr} {s : State} (hop : operandFault s.cfg i = none) (hclosed : s.sess.isOpen = false)
    (body : State → State) : s.enter i body = s.turnedAway i .noSession := by
  simp only [State.enter, hop, hclosed, if_true]

/-- The second check of R200: a wedged session turns every command but SHUTDOWN away. -/
theorem State.enter_wedged {i : Instr} {s : State} (hop : operandFault s.cfg i = none) (hopen : s.sess.isOpen = true)
    (hwedged : s.sess.wedged = true) (hi : i ≠ .shutdown) (body : State → State) : s.enter i body = s.turnedAway i .timeout := by
  simp [State.enter, hop, hopen, hwedged, hi]

/-- A command turned away touches no descriptor but a Q_INIT's own, which it leaves invalidated (R205). -/
theorem State.failInit_same (i : Instr) (s : State) : ∃ ch, s.failInit i = { s with ch := ch } ∧
    ∀ k, ((∃ c : BitVec 4, i = .qInit c ∧ k = c.toNat) → (s.failInit i).chan k = (s.chan k).invalidated) ∧
      (¬ (∃ c : BitVec 4, i = .qInit c ∧ k = c.toNat) → (s.failInit i).chan k = s.chan k) := by
  rcases s.failInit_cases i with ⟨e, hi⟩ | ⟨c, rfl, e⟩ <;> rw [e]
  · exact ⟨s.ch, rfl, fun k => ⟨fun ⟨c, hc, _⟩ => absurd hc (hi c), fun _ => rfl⟩⟩
  · refine ⟨_, rfl, fun k => ⟨?_, fun hk => ?_⟩⟩
    · rintro ⟨c', hc, rfl⟩
      cases hc
      exact s.setChan_invalidated_chan _
    · exact s.setChan_chan_other _ _ _ fun e => hk ⟨c, rfl, e.symm⟩

/-- Settles O24: the check that turns a command away goes straight to its response. -/
theorem closedOrWedgedAnswers : Obligations.ClosedOrWedgedAnswers := by
  intro s p i hrd hwr hop he hsilent hturns failed ends
  have hi : isCommand i = true := by
    cases i <;> first | rfl | exact absurd rfl (hrd _) | exact absurd rfl (hwr _ _)
  obtain ⟨ch, hsame, hchan⟩ := s.failInit_same i
  have away {st : Status} (hbegin : s.enter i (commandBody i) = s.turnedAway i st) : ∃ t, exec i s = .next t ∧ ends t st := by
    obtain ⟨_, _, hx⟩ := exec_answersAtOnce hi he hsilent hturns hbegin (by rw [hsame]; exact he.running)
    refine ⟨_, hx, State.respond_answered ?_ ?_, ?_, ?_, ?_, fun k => ?_⟩
    · rw [hsame]; exact he.owner
    · rw [hsame]; exact he.port
    · rw [State.respond_comp, hsame]; rfl
    · rw [State.respond_flt, hsame]; rfl
    · rw [State.respond_sess, hsame]; rfl
    · rw [State.respond_chan]
      exact hchan k
  exact ⟨fun hclosed => away (State.enter_closed hop hclosed _),
    fun hopen hwedged hne => away (State.enter_wedged hop hopen hwedged hne _)⟩

/-! ### Accesses that end at the refresh (R195, R220) -/

/-- An access of a valid channel of a serving session begins with its WaitIdle, and answers what its turns lead to. -/
theorem exec_access_smooth {i : Instr} {c : BitVec 4} {s s' : State} {p : PortId} {st : Status} {n : Nat} {data : List Word} {k : Nat}
    (hi : checkedChannel i = some c) (hop : operandFault s.cfg i = none) (he : s.AtEntry p) (hserves : s.Serving)
    (hv : (s.chan c.toNat).valid = true) (hsmooth : s.smooth = true)
    (run : Reaches (commandTurn i) { s with turns := [] } (.poll false 0) k s' (.respond st n data)) (hk : k + 1 ≤ s.turns.length)
    (hh : s'.halted = false) : ∃ d b, exec i s = .next ((s'.mid (.respond st n data) d b).respond st n data) := by
  have hcmd := isCommand_of_checkedChannel hi
  refine exec_smooth hcmd he hsmooth ?_ run hk hh fun _ _ => commandTurn_respond hcmd rfl
  rw [State.enter_access hi hop hserves hv]
  cases i with
  | qRead c' m => rfl
  | qWrite c' words => rfl
  | _ => cases hi

/-- The operand checks of a Q_WRITE of words to a channel of the table (R130). -/
theorem operandFault_qWrite {p : Params} {c : BitVec 4} {words : List Word} (hc : c.toNat < p.nCh) (hne : words ≠ []) :
    operandFault p (.qWrite c words) = none := by
  cases words with
  | nil => exact absurd rfl hne
  | cons _ _ => exact if_neg (Nat.not_le.2 hc)

/-- The operand checks of a Q_READ of a channel of the table (R130). -/
theorem operandFault_qRead {p : Params} {c : BitVec 4} {count : BitVec 16} (hc : c.toNat < p.nCh) (hne : count ≠ 0) :
    operandFault p (.qRead c count) = none := by
  rw [operandFault, if_neg (Nat.not_le.2 hc), if_neg hne]

/-- Settles O20: the refresh finds too little room, and the response comes next. -/
theorem writeWouldBlock : Obligations.WriteWouldBlock := by
  intro s p c words r he hserves hready hc hne hv hr d hfull hsmooth hturns
  have hlen : c.toNat < s.ch.length := hready.table ▸ hc
  have run : Reaches (writeTurn c words) { s with turns := [] } (.poll false 0) 3
      (State.setChan { s with turns := [] } c.toNat { d with rd := r }) (.respond .wouldBlock 0 []) :=
    write_refresh (s := { s with turns := [] }) he.running hready.cfg hc hready.idle fun _ _ =>
      State.writeRefreshed_full (c := c) (words := words) hr hfull
  obtain ⟨_, _, hx⟩ := exec_access_smooth rfl (operandFault_qWrite hc hne) he hserves hv hsmooth run hturns he.running
  refine ⟨_, hx, State.respond_answered he.owner he.port, ?_, by simp, fun i hi => ?_⟩ <;> rw [State.respond_chan]
  · exact s.setChan_chan_same _ _ hlen
  · exact s.setChan_chan_other _ _ _ hi.symm

/-- Settles O21: an offset above S has no normal value, and the refresh goes straight to the response. -/
theorem offsetAboveSizeIsProtocolError : Obligations.OffsetAboveSizeIsProtocolError := by
  intro s p c count words he hserves hready hc hcount hne hv hsmooth hturns
  refine ⟨fun hw => ?_, fun hr => ?_⟩
  · have run : Reaches (readTurn c count.toNat) { s with turns := [] } (.poll false 0) 3 { s with turns := [] }
        (.respond .protocolError 0 []) :=
      read_refresh (s := { s with turns := [] }) he.running hready.cfg hc hready.idle fun _ _ =>
        State.readRefreshed_none (c := c) (norm_above hw)
    obtain ⟨_, _, hx⟩ := exec_access_smooth (i := .qRead c count) rfl (operandFault_qRead hc hcount) he hserves hv hsmooth run
      hturns he.running
    exact ⟨_, hx, State.respond_answered he.owner he.port, by simp, by simp, by simp, by simp⟩
  · have run : Reaches (writeTurn c words) { s with turns := [] } (.poll false 0) 3 { s with turns := [] }
        (.respond .protocolError 0 []) :=
      write_refresh (s := { s with turns := [] }) he.running hready.cfg hc hready.idle fun _ _ =>
        State.writeRefreshed_none (c := c) (norm_above hr)
    obtain ⟨_, _, hx⟩ := exec_access_smooth (i := .qWrite c words) rfl (operandFault_qWrite hc hne) he hserves hv hsmooth run
      hturns he.running
    exact ⟨_, hx, State.respond_answered he.owner he.port, by simp, by simp, by simp, by simp⟩

/-! ### What OPEN answers (R226) -/

/-- Whether the descriptor the companion shows for `c` is invalid (R205). -/
def State.descBad (s : State) (c : BitVec 4) : Bool :=
  descInvalid (s.word (descField s.cfg c 0)) (s.word (descField s.cfg c 1)) (s.word (descField s.cfg c 2))
    (s.word (descField s.cfg c 3))

/-- The descriptor that a Q_INIT body of `c` stores (R205). -/
def State.descRead (s : State) (c : BitVec 4) : Chan :=
  descLoaded (s.word (descField s.cfg c 0)) (s.word (descField s.cfg c 1))

section Body
variable {turn : State → State} {second : Bool} {c : BitVec 4} {onOk : State → State} {bad : Status}
  (ht : IsBodyTurn turn second c onOk bad) {s : State} (hh : s.halted = false) (hready : s.Ready) (hc : c.toNat < s.cfg.nCh)
include ht hh hready hc

/-- A Q_INIT body that reads an invalid descriptor ends its command, with its channel ZeroDesc (R205). -/
theorem body_reaches_bad (hbad : s.descBad c = true) :
    Reaches turn (s.setChan c.toNat Chan.zero) (.poll second 0) 9 (s.setChan c.toNat Chan.zero) (.respond bad 0 []) :=
  body_reaches (s := s.setChan c.toNat Chan.zero) ht hh hready.cfg hc hready.idle 0 fun u b => ⟨u, b, if_pos hbad⟩

/-- A Q_INIT body that reads a valid descriptor stores it, and its command goes on (R205). -/
theorem body_reaches_good {s' : State} {l' : Label} (hgood : s.descBad c = false)
    (hok : ∀ l d b, onOk ((s.setChan c.toNat (s.descRead c)).mid l d b) = s'.mid l' d b) :
    Reaches turn (s.setChan c.toNat Chan.zero) (.poll second 0) 9 s' l' := by
  refine body_reaches (s := s.setChan c.toNat Chan.zero) ht hh hready.cfg hc hready.idle 0 fun u b => ⟨u, b, ?_⟩
  refine (if_neg (ne_true_of_eq_false hgood)).trans ?_
  rw [State.mid_setChan, State.setChan_setChan]
  exact hok _ u b

end Body

/-- OPEN's turns are those of its two Q_INIT bodies (R226). -/
theorem openTurn_isBody (tx rx : BitVec 4) (ctx : Word) (second : Bool) :
    IsBodyTurn (openTurn tx rx ctx) second (if second then rx else tx) (State.openNext tx rx ctx second) .channelUnavailable := by
  intro s hs
  have hsecond : inSecondBody s.seq.step = second := by
    rcases hs with ⟨_, e⟩ | ⟨_, e⟩ | ⟨_, _, e⟩ <;> rw [e] <;> rfl
  rw [openTurn, hsecond]

/-- Status and state before its response that an OPEN ends with when all goes well, by the descriptors it reads (R226). -/
def State.openEnd (s : State) (tx rx : BitVec 4) (ctx : Word) : Status × State :=
  if s.descBad tx then (.channelUnavailable, s.setChan tx.toNat Chan.zero)
  else
    let t := s.setChan tx.toNat (s.descRead tx)
    if s.descBad rx then (.channelUnavailable, t.setChan rx.toNat Chan.zero)
    else (.ok, ((t.setChan rx.toNat (s.descRead rx)).register tx ctx).register rx ctx)

/-- An OPEN of valid descriptors registers the callback on both, `tx` = `rx` included. -/
theorem State.openEnd_ok {s : State} {tx rx : BitVec 4} {ctx : Word} (htx : s.descBad tx = false) (hrx : s.descBad rx = false) :
    s.openEnd tx rx ctx =
      (.ok, (((s.setChan tx.toNat (s.descRead tx)).setChan rx.toNat (s.descRead rx)).register tx ctx).register rx ctx) := by
  simp [State.openEnd, htx, hrx]

/-- An OPEN writes no descriptor but its two, and nothing else before its response. -/
theorem State.openEnd_same (s : State) (tx rx : BitVec 4) (ctx : Word) : ∃ ch, (s.openEnd tx rx ctx).2 = { s with ch := ch } ∧
    ∀ i, i ≠ tx.toNat → i ≠ rx.toNat → (s.openEnd tx rx ctx).2.chan i = s.chan i := by
  have other (u : State) (d : Chan) {i : Nat} {x : BitVec 4} (hi : i ≠ x.toNat) : (u.setChan x.toNat d).chan i = u.chan i :=
    u.setChan_chan_other _ _ _ hi.symm
  unfold State.openEnd
  split
  · exact ⟨_, rfl, fun i htx _ => other _ _ htx⟩
  · dsimp only
    split
    · exact ⟨_, rfl, fun i htx hrx => by rw [other _ _ hrx, other _ _ htx]⟩
    · refine ⟨_, rfl, fun i htx hrx => ?_⟩
      dsimp only
      unfold State.register
      rw [other _ _ hrx, other _ _ htx, other _ _ hrx, other _ _ htx]

section OpenPair
variable {s : State} {tx rx : BitVec 4} {ctx : Word}

/-- OPEN from its first poll to its response. -/
theorem open_reaches (hh : s.halted = false) (hready : s.Ready) (htx : tx.toNat < s.cfg.nCh) (hrx : rx.toNat < s.cfg.nCh) :
    ∃ k, k ≤ 18 ∧ Reaches (openTurn tx rx ctx) (s.setChan tx.toNat Chan.zero) (.poll false 0) k (s.openEnd tx rx ctx).2
      (.respond (s.openEnd tx rx ctx).1 0 []) := by
  let t := s.setChan tx.toNat (s.descRead tx)
  have hready' : t.Ready := ⟨hready.cfg, by simpa [t] using hready.table, hready.idle⟩
  have first := openTurn_isBody tx rx ctx false
  have second := openTurn_isBody tx rx ctx true
  unfold State.openEnd
  split
  · exact ⟨9, by omega, body_reaches_bad first hh hready htx ‹_›⟩
  · rename_i hgood
    have htxdone : Reaches (openTurn tx rx ctx) (s.setChan tx.toNat Chan.zero) (.poll false 0) 9 (t.setChan rx.toNat Chan.zero)
        (.poll true 0) := body_reaches_good first hh hready htx (eq_false_of_ne_true hgood) fun _ _ _ => rfl
    refine ⟨9 + 9, le_rfl, htxdone.trans ?_⟩
    dsimp only
    split
    · exact body_reaches_bad (s := t) second hh hready' hrx ‹_›
    · rename_i hgood'
      exact body_reaches_good (s := t) second hh hready' hrx (eq_false_of_ne_true hgood') fun _ _ _ => rfl

/-- OPEN, all going well, answers by the descriptors that it reads. -/
theorem exec_openPair_smooth {p : PortId} (he : s.AtEntry p) (hserves : s.Serving) (hready : s.Ready) (htx : tx.toNat < s.cfg.nCh)
    (hrx : rx.toNat < s.cfg.nCh) (hsmooth : s.smooth = true) (hturns : 19 ≤ s.turns.length) :
    let t := State.openEnd { s with turns := [] } tx rx ctx
    ∃ d b, exec (.openPair tx rx ctx) s = .next ((t.2.mid (.respond t.1 0 []) d b).respond t.1 0 []) := by
  have hop : operandFault s.cfg (.openPair tx rx ctx) = none := if_neg (by omega)
  have hbegin : ({ s.enter (.openPair tx rx ctx) (commandBody (.openPair tx rx ctx)) with turns := [] } : State) =
      State.mid (State.setChan { s with turns := [] } tx.toNat Chan.zero) (.poll false 0) s.draw s.busResult := by
    simp only [State.enter, hop, hserves.isOpen, hserves.wedged, checkedChannel, Bool.false_eq_true, false_and, if_false]
    rfl
  obtain ⟨k, hk, run⟩ := open_reaches (s := { s with turns := [] }) (tx := tx) (rx := rx) (ctx := ctx) he.running
    ⟨hready.cfg, hready.table, hready.idle⟩ htx hrx
  have hrunning : (State.openEnd { s with turns := [] } tx rx ctx).2.halted = false := by
    obtain ⟨_, e, _⟩ := State.openEnd_same { s with turns := [] } tx rx ctx
    rw [e]; exact he.running
  exact exec_smooth rfl he hsmooth hbegin run (by omega) hrunning fun _ _ => commandTurn_respond rfl rfl

end OpenPair

/-- A descriptor with a callback registered (R226). -/
def Chan.registered (d : Chan) (p : PortId) (ctx : Word) : Chan := { d with cbValid := true, cbClient := p, cbCtx := ctx }

/-- Both channels of an OPEN show the descriptor read with the callback, the same channel twice included. -/
theorem State.openEnd_ok_chan {s : State} {tx rx : BitVec 4} {ctx : Word} (htx : tx.toNat < s.ch.length)
    (hrx : rx.toNat < s.ch.length) (hgood : s.descBad tx = false) (hgood' : s.descBad rx = false) :
    (s.openEnd tx rx ctx).2.chan tx.toNat = (s.descRead tx).registered s.commandPort ctx ∧
      (s.openEnd tx rx ctx).2.chan rx.toNat = (s.descRead rx).registered s.commandPort ctx := by
  rw [State.openEnd_ok hgood hgood']
  dsimp only
  by_cases e : tx = rx
  · subst e
    simp [State.setChan_chan, htx, Chan.registered, State.register]
  · have hne : tx.toNat ≠ rx.toNat := fun h => e (BitVec.eq_of_toNat_eq h)
    simp [State.setChan_chan, htx, hrx, hne, hne.symm, State.register, Chan.registered]

/-- Settles O22: the response and the two descriptors by whether the fields read are in order. -/
theorem openResult : Obligations.OpenResult := by
  intro s p tx rx ctx he hserves hready htx hrx hsmooth hturns bad loaded registered
  obtain ⟨_, _, hx⟩ := exec_openPair_smooth (ctx := ctx) he hserves hready htx hrx hsmooth hturns
  have hltx : tx.toNat < s.ch.length := hready.table ▸ htx
  have hlrx : rx.toNat < s.ch.length := hready.table ▸ hrx
  let s0 : State := { s with turns := [] }
  have hbad (x : BitVec 4) : s0.descBad x = true ↔ bad x := descInvalid_iff _ _ _ _
  have hgood {x : BitVec 4} (h : ¬ bad x) : s0.descBad x = false := by simpa using mt (hbad x).1 h
  obtain ⟨ch, hsame, hother⟩ := s0.openEnd_same tx rx ctx
  have answered {st : Status} (hst : (s0.openEnd tx rx ctx).1 = st) (d : Draw) (b : BusResult) :
      (((s0.openEnd tx rx ctx).2.mid (.respond (s0.openEnd tx rx ctx).1 0 []) d b).respond (s0.openEnd tx rx ctx).1 0 []).Answered
        p st 0 [] := by
    rw [hst, hsame]
    exact State.respond_answered he.owner he.port
  refine ⟨_, hx, by rw [State.respond_comp, State.mid_comp, hsame], fun htx' => ?_, fun htx' hrx' => ?_, fun htx' hrx' => ?_,
    fun i hi hi' => by rw [State.respond_chan]; exact hother i hi hi'⟩
  · have e : s0.openEnd tx rx ctx = (.channelUnavailable, s0.setChan tx.toNat Chan.zero) := if_pos ((hbad tx).2 htx')
    refine ⟨answered (by rw [e]) _ _, ?_, fun hne => ?_⟩ <;> rw [State.respond_chan, State.mid_chan, e]
    · exact State.setChan_chan_same _ _ _ hltx
    · exact State.setChan_chan_other _ _ _ _ fun h => hne (BitVec.eq_of_toNat_eq h.symm)
  · have e : s0.openEnd tx rx ctx =
        (.channelUnavailable, (s0.setChan tx.toNat (s0.descRead tx)).setChan rx.toNat Chan.zero) := by
      simp [State.openEnd, hgood htx', (hbad rx).2 hrx']
    have hne : rx.toNat ≠ tx.toNat := fun h => htx' (BitVec.eq_of_toNat_eq h ▸ hrx')
    refine ⟨answered (by rw [e]) _ _, ?_, ?_⟩ <;> rw [State.respond_chan, State.mid_chan, e]
    · exact State.setChan_chan_same _ _ _ (by simpa using hlrx)
    · exact (State.setChan_chan_other _ _ _ _ hne).trans (State.setChan_chan_same _ _ _ hltx)
  · have hcp : s0.commandPort = p := State.commandPort_eq he.owner
    obtain ⟨htxchan, hrxchan⟩ := State.openEnd_ok_chan (s := s0) (ctx := ctx) hltx hlrx (hgood htx') (hgood hrx')
    rw [hcp] at htxchan hrxchan
    refine ⟨answered (by rw [State.openEnd_ok (hgood htx') (hgood hrx')]) _ _, ?_, ?_⟩ <;> rw [State.respond_chan]
    · exact htxchan
    · exact hrxchan

/-! ### A command's run while the companion is silent -/

/-- What a command's beginning, `c_reenable` in a ReenableWait and every turn of a running command keep, its whole run keeps, if the
companion takes no other step. -/
theorem exec_frame {P : State → Prop} {i : Instr} {s t : State} (hi : isCommand i = true) (h : exec i s = .next t)
    (hsilent : s.companionSilent = true) (hs : P s) (hset : ∀ u ts d, P u → P { u with turns := ts, draw := d })
    (hbegin : s.seq.step = .entry → P (s.enter i (commandBody i)))
    (hbell : ∀ u n out, P u → u.seq.step = .hold n out → P (u.goto (.bellSet n out)))
    (hturn : ∀ u, P u → u.seq.step ≠ .off → P (commandTurn i u)) : P t := by
  have begun : P (if s.seq.step = .entry then s.enter i (commandBody i) else s) := by
    split
    · exact hbegin ‹_›
    · exact hs
  refine exec_ind hi h (hset _ [] _ begun) fun u d acts ⟨x, hx, hbefore, _⟩ hu hrun => ?_
  have hacts : ∀ a ∈ acts, a = .reenable := by
    simp only [State.companionSilent, List.all_eq_true, decide_eq_true_eq] at hsilent
    exact hbefore ▸ hsilent x hx
  rcases u.companionSteps_silent acts hacts with e | ⟨n, out, _, hhold, e⟩ <;> rw [e]
  · exact hturn _ (hset u u.turns d hu) (u.step_of_running hrun)
  · exact hturn _ (hset _ u.turns d (hbell u n out hu hhold)) nofun

/-! ### What is outside a command (R205, R210, R220, R226) -/

/-- The response step leaves every port but the lock holder's alone. -/
theorem State.respond_port_other {s : State} {p q : PortId} (ho : s.seq.owner = some (.port p)) (hq : q ≠ p) (st : Status) (n : Nat)
    (data : List Word) : (s.respond st n data).port q = s.port q := by
  have hport : (s.respond st n data).port q = (s.setPortState s.commandPort (.responded (respWord st n) data)).port q := by
    cases q <;> rfl
  rw [hport, State.commandPort_eq ho]
  exact s.setPort_port_other _ _ _ hq.symm

/-- The response step leaves every port's client program alone. -/
theorem State.respond_prog (s : State) (st : Status) (n : Nat) (data : List Word) (q : PortId) :
    ((s.respond st n data).port q).prog = (s.port q).prog := by
  have hport : (s.respond st n data).port q = (s.setPortState s.commandPort (.responded (respWord st n) data)).port q := by
    cases q <;> rfl
  rw [hport, State.setPortState, State.setPort_port]
  split
  · rename_i e; rw [e.1]
  · rfl

theorem State.SameOutside.refl (s : State) : s.SameOutside s := by constructor <;> simp

theorem State.SameOutside.trans {s t u : State} (h : s.SameOutside t) (k : t.SameOutside u) : s.SameOutside u where
  cfg := k.cfg.trans h.cfg
  waiting := k.waiting.trans h.waiting
  wk := k.wk.trans h.wk
  armed := k.armed.trans h.armed
  rx := k.rx.trans h.rx
  log := k.log.trans h.log
  inputs := k.inputs.trans h.inputs
  clock := k.clock.trans h.clock
  isOpen := k.isOpen.trans h.isOpen
  bus := k.bus.trans h.bus
  lastC2H := k.lastC2H.trans h.lastC2H
  wedged := fun w => k.wedged (h.wedged w)
  lock := k.lock.elim (fun e => e ▸ h.lock) .inr
  owner := k.owner.elim (fun e => e ▸ h.owner) .inr
  cmd := k.cmd.trans h.cmd
  flt := fun hu => by
    have e := k.flt hu
    exact e.trans (h.flt (by rw [State.halted, ← e]; exact hu))
  otherPorts := fun q hq => (k.otherPorts q (by rcases h.owner with e | e <;> rw [e]; exacts [hq, nofun])).trans (h.otherPorts q hq)
  progs := fun q => (k.progs q).trans (h.progs q)
  busy := k.busy.trans h.busy

/-- The coming turns and the draw are no part of what is outside a command. -/
theorem State.SameOutside.withRun (s : State) (ts : List Turn) (d : Draw) : s.SameOutside { s with turns := ts, draw := d } :=
  ⟨rfl, rfl, rfl, rfl, rfl, rfl, rfl, rfl, rfl, rfl, rfl, id, .inl rfl, .inl rfl, rfl, fun _ => rfl, fun _ _ => rfl, fun _ => rfl, rfl⟩

/-- What no turn touches before the response is outside the command. -/
theorem TurnSame.sameOutside {s t : State} (h : TurnSame s t) : s.SameOutside t where
  cfg := h.cfg
  waiting := h.waiting
  wk := h.wk
  armed := h.armed
  rx := h.rx
  log := h.log
  inputs := h.inputs
  clock := h.clock
  isOpen := h.isOpen
  bus := h.bus
  lastC2H := h.lastC2H
  wedged := h.wedged
  lock := .inl h.lock
  owner := .inl h.owner
  cmd := h.cmd
  flt := h.flt
  otherPorts := fun q _ => h.port q
  progs := fun q => by rw [h.port]
  busy := h.busy

/-- The response step touches the lock and its holder's port alone. -/
theorem State.SameOutside.respond {s : State} {p : PortId} (ho : s.seq.owner = some (.port p)) (st : Status) (n : Nat)
    (data : List Word) : s.SameOutside (s.respond st n data) := by
  have hport (q : PortId) (hq : s.seq.owner ≠ some (.port q)) : (s.respond st n data).port q = s.port q :=
    State.respond_port_other ho (by rintro rfl; exact hq ho) st n data
  have hprog := s.respond_prog st n data
  constructor <;> simp [hprog]
  exact hport

/-- A command answers only for the port that holds the lock. -/
theorem exec_owner {i : Instr} {s t : State} (hi : isCommand i = true) (h : exec i s = .next t) :
    ∃ p, s.seq.owner = some (.port p) := by
  rw [exec_command hi] at h
  obtain ⟨p, ho, _⟩ := State.runCommand_next h
  exact ⟨p, ho⟩

/-- No command but SHUTDOWN changes anything outside it. -/
theorem exec_sameOutside {i : Instr} {s t : State} (hi : isCommand i = true) (hne : i ≠ .shutdown) (h : exec i s = .next t)
    (hsilent : s.companionSilent = true) : s.SameOutside t := by
  obtain ⟨p, ho⟩ := exec_owner hi h
  have next {u v : State} (hu : s.SameOutside u ∧ (u.seq.step ≠ .off → u.seq.owner = some (.port p))) (hrun : u.seq.step ≠ .off)
      (k : TurnSame u v) : s.SameOutside v ∧ (v.seq.step ≠ .off → v.seq.owner = some (.port p)) :=
    ⟨hu.1.trans k.sameOutside, fun _ => k.owner.trans (hu.2 hrun)⟩
  refine (exec_frame (P := fun u => s.SameOutside u ∧ (u.seq.step ≠ .off → u.seq.owner = some (.port p))) hi h hsilent
    ⟨.refl s, fun _ => ho⟩ ?_ ?_ ?_ ?_).1
  · rintro u ts d ⟨hu, hown⟩
    exact ⟨hu.trans (.withRun u ts d), hown⟩
  · intro he
    exact next ⟨.refl s, fun _ => ho⟩ (by simp [he]) (commandBegin_same hne s)
  · intro u n out hu hhold
    exact next hu (by simp [hhold]) (.goto u (by simp))
  · intro u hu hrun
    rcases commandTurn_cases i u with ⟨st, n, data, _, e⟩ | k
    · rw [e]
      exact ⟨hu.1.trans (.respond (hu.2 hrun) st n data), by simp⟩
    · exact next hu hrun k

/-! ### Q_INIT and OPEN (R205, R226) -/

/-- What a Q_INIT body's read is followed by: no descriptor changes, or the one read is stored and the command goes on. -/
theorem State.bodyValue_cases (c : BitVec 4) (onOk : State → State) (bad : Status) (v : Half) (s : State) :
    (s.bodyValue c onOk bad v).ch = s.ch ∨ ∃ d, s.bodyValue c onOk bad v = onOk (s.setChan c.toNat d) := by
  unfold State.bodyValue
  split
  · rename_i second n _
    rcases s.afterPoll_cases second n v (.descLow second []) with e | e | e <;> exact .inl (by rw [e]; rfl)
  · exact .inl rfl
  · dsimp only
    split
    · exact .inl rfl
    · unfold State.finishBody
      split
      · split
        · exact .inl rfl
        · exact .inr ⟨_, rfl⟩
      · exact .inl rfl
  · exact .inl rfl

theorem State.localTurn_ch (s : State) : s.localTurn.ch = s.ch := by
  unfold State.localTurn State.respondTurn
  (repeat' split) <;> simp

theorem State.endEarly_ch (st : Status) (s : State) : (s.endEarly st).ch = s.ch := by
  obtain ⟨n, data, e⟩ := s.endEarly_eq st
  rw [e]; rfl

/-- What follows a turn's transaction decides alone what the turn makes of the descriptors. -/
theorem State.turnWith_ch {P : State → Prop} {record : Option BusRec} {onValue : Half → State → State} {onWritten : State → State}
    {s : State} (hsame : ∀ t : State, t.ch = s.ch → P t) (hv : ∀ v t, t.ch = s.ch → P (onValue v t))
    (hw : ∀ t, t.ch = s.ch → P (onWritten t)) : P (s.turnWith record onValue onWritten) := by
  apply State.turnWith_ind (P := P)
  · exact fun _ => hsame _ s.localTurn_ch
  · exact fun r _ _ => hsame _ (s.transact_ch r)
  · exact fun r _ _ => hsame _ (s.transact_ch r)
  · exact fun r _ _ => hsame _ ((State.endEarly_ch _ _).trans (s.transact_ch r))
  · exact fun r v _ _ _ _ => hv v _ (s.transact_ch r)
  · exact fun r _ _ _ => hw _ (s.transact_ch r)

/-- A turn of Q_INIT or OPEN changes none but its own channels. -/
theorem initTurn_chan (c : BitVec 4) (s : State) {k : Nat} (hk : k ≠ c.toNat) : (initTurn c s).chan k = s.chan k := by
  refine State.turnWith_ch (P := fun t => t.chan k = s.chan k) (fun t ht => State.chan_congr ht k) (fun v t ht => ?_)
    fun t ht => State.chan_congr ht k
  rcases t.bodyValue_cases c (fun t => t.goto (.respond .ok 0 [])) .invalidChannel v with e | ⟨d, e⟩
  · exact State.chan_congr (e.trans ht) k
  · rw [e, State.goto_chan, State.setChan_chan_other _ _ _ _ hk.symm]
    exact State.chan_congr ht k

theorem State.openNext_chan (tx rx : BitVec 4) (ctx : Word) (second : Bool) (s : State) {k : Nat} (htx : k ≠ tx.toNat)
    (hrx : k ≠ rx.toNat) : (s.openNext tx rx ctx second).chan k = s.chan k := by
  unfold State.openNext State.register State.startBody
  split
  · rw [State.goto_chan, State.setChan_chan_other _ _ _ _ hrx.symm, State.setChan_chan_other _ _ _ _ htx.symm]
  · rw [State.goto_chan, State.setChan_chan_other _ _ _ _ hrx.symm]

theorem openTurn_chan (tx rx : BitVec 4) (ctx : Word) (s : State) {k : Nat} (htx : k ≠ tx.toNat) (hrx : k ≠ rx.toNat) :
    (openTurn tx rx ctx s).chan k = s.chan k := by
  refine State.turnWith_ch (P := fun t => t.chan k = s.chan k) (fun t ht => State.chan_congr ht k) (fun v t ht => ?_)
    fun t ht => State.chan_congr ht k
  generalize inSecondBody s.seq.step = second
  have hown : k ≠ (if second = true then rx else tx).toNat := by split <;> assumption
  rcases t.bodyValue_cases (if second = true then rx else tx) (State.openNext tx rx ctx second) .channelUnavailable v with e | ⟨d, e⟩
  · exact State.chan_congr (e.trans ht) k
  · rw [e, State.openNext_chan _ _ _ _ _ htx hrx, State.setChan_chan_other _ _ _ _ hown.symm]
    exact State.chan_congr ht k

/-- A turn of Q_INIT or OPEN changes no descriptor but those of its own channels (R205, R226). -/
theorem commandTurn_otherChan {i : Instr} (hi : initChannels i ≠ []) (s : State) {k : Nat} (hk : ∀ c ∈ initChannels i, k ≠ c.toNat) :
    (commandTurn i s).chan k = s.chan k := by
  cases i with
  | qInit c => exact initTurn_chan c s (hk c (by simp [initChannels]))
  | openPair tx rx ctx => exact openTurn_chan tx rx ctx s (hk tx (by simp [initChannels])) (hk rx (by simp [initChannels]))
  | _ => exact absurd rfl hi

/-- The beginning of Q_INIT or OPEN changes no other channel's descriptor either. -/
theorem commandBegin_otherChan {i : Instr} (hi : initChannels i ≠ []) (s : State) {k : Nat} (hk : ∀ c ∈ initChannels i, k ≠ c.toNat) :
    (s.enter i (commandBody i)).chan k = s.chan k := by
  have own {c : BitVec 4} (hc : c ∈ initChannels i) (d : Chan) : (s.setChan c.toNat d).chan k = s.chan k :=
    s.setChan_chan_other _ _ _ (hk c hc).symm
  apply State.enter_ind (P := fun t => t.chan k = s.chan k)
  · exact fun _ _ => rfl
  · intro st
    unfold State.turnedAway
    rcases s.failInit_cases i with ⟨e, _⟩ | ⟨c, rfl, e⟩ <;> rw [e]
    · rfl
    · exact own (c := c) (by simp [initChannels]) _
  · intro _ _ _
    cases i with
    | qInit c => exact own (c := c) (by simp [initChannels]) _
    | openPair tx rx ctx => exact own (c := tx) (by simp [initChannels]) _
    | _ => exact absurd rfl hi

/-- Q_INIT and OPEN only read (R205, R226). -/
theorem bodyRecord_reads {p : Params} {c : BitVec 4} {l : Label} {r : BusRec} (h : bodyRecord p c l = some r) : r.write = false := by
  rcases bodyRecord_label h with ⟨_, _, rfl⟩ | ⟨_, _, rfl⟩ | ⟨_, _, _, rfl⟩ <;> cases h <;> rfl

theorem commandTurn_init_comp {i : Instr} (hi : initChannels i ≠ []) (s : State) : (commandTurn i s).comp = s.comp := by
  have reads {r : BusRec} (hr : turnRecord i s = some r) : r.write = false := by
    cases i with
    | qInit c => exact bodyRecord_reads hr
    | openPair tx rx ctx => exact bodyRecord_reads hr
    | _ => exact absurd rfl hi
  rw [commandTurn_comp]
  split
  · rfl
  · exact State.transact_read_comp (reads ‹_›) s

/-- What Q_INIT and OPEN leave alone. -/
theorem exec_init_frame {i : Instr} {s t : State} (hi : initChannels i ≠ []) (h : exec i s = .next t)
    (hsilent : s.companionSilent = true) :
    s.SameOutside t ∧ t.comp = s.comp ∧ ∀ k, (∀ c ∈ initChannels i, k ≠ c.toNat) → t.chan k = s.chan k := by
  have hcmd : isCommand i = true := by cases i <;> first | rfl | exact absurd rfl hi
  have hne : i ≠ .shutdown := by rintro rfl; exact hi rfl
  refine ⟨exec_sameOutside hcmd hne h hsilent, ?_⟩
  refine exec_frame (P := fun u => u.comp = s.comp ∧ ∀ k, (∀ c ∈ initChannels i, k ≠ c.toNat) → u.chan k = s.chan k) hcmd h hsilent
    ⟨rfl, fun _ _ => rfl⟩ (fun _ _ _ hu => hu) (fun _ => ?_) (fun _ _ _ hu _ => hu) fun u ⟨hcomp, hchan⟩ _ => ?_
  · exact ⟨commandBegin_comp i s, fun k hk => commandBegin_otherChan hi s hk⟩
  · exact ⟨(commandTurn_init_comp hi u).trans hcomp, fun k hk => (commandTurn_otherChan hi u hk).trans (hchan k hk)⟩

/-- Settles O31: no turn of Q_INIT or OPEN writes to the companion or to another channel's descriptor. -/
theorem initAndOpenFrame : Obligations.InitAndOpenFrame := by
  intro s t hsilent
  refine ⟨fun c h => ?_, fun tx rx ctx h => ?_⟩
  · obtain ⟨hout, hcomp, hchan⟩ := exec_init_frame (by simp [initChannels]) h hsilent
    exact ⟨hout, hcomp, fun k hk => hchan k (by simpa [initChannels] using hk)⟩
  · obtain ⟨hout, hcomp, hchan⟩ := exec_init_frame (by simp [initChannels]) h hsilent
    exact ⟨hout, hcomp, fun k htx hrx => hchan k (by simpa [initChannels] using ⟨htx, hrx⟩)⟩

/-! ### SHUTDOWN (R230) -/

/-- What SHUTDOWN leaves alone. -/
structure State.ShutdownSame (s t : State) : Prop where
  comp : t.comp = s.comp
  cfg : t.cfg = s.cfg
  waiting : t.waiting = s.waiting
  log : t.log = s.log
  rx : t.rx = s.rx
  worker : { t.wk with pending := s.wk.pending } = s.wk
  wedged : t.sess.wedged = s.sess.wedged
  bus : t.sess.bus = s.sess.bus
  flt : t.flt = s.flt
  otherPorts : ∀ q, s.seq.owner ≠ some (.port q) → t.port q = s.port q
  progs : ∀ q, (t.port q).prog = (s.port q).prog
  owner : t.seq.step ≠ .off → t.seq.owner = s.seq.owner

theorem State.ShutdownSame.refl (s : State) : s.ShutdownSame s := by constructor <;> simp

theorem State.ShutdownSame.goto {s u : State} (h : s.ShutdownSame u) (hrun : u.seq.step ≠ .off) (l : Label) :
    s.ShutdownSame (u.goto l) :=
  ⟨h.comp, h.cfg, h.waiting, h.log, h.rx, h.worker, h.wedged, h.bus, h.flt, h.otherPorts, h.progs, fun _ => h.owner hrun⟩

/-- SHUTDOWN's response step, as its other steps, touches its own port alone. -/
theorem State.ShutdownSame.respond {s u : State} {p : PortId} (h : s.ShutdownSame u) (ho : u.seq.owner = some (.port p))
    (hs : u.seq.owner = s.seq.owner) (st : Status) (n : Nat) (data : List Word) : s.ShutdownSame (u.respond st n data) := by
  have hport (q : PortId) (hq : s.seq.owner ≠ some (.port q)) : (u.respond st n data).port q = s.port q :=
    (State.respond_port_other ho (by rintro rfl; exact hq (hs ▸ ho)) st n data).trans (h.otherPorts q hq)
  have hprog (q : PortId) : ((u.respond st n data).port q).prog = (s.port q).prog := (u.respond_prog st n data q).trans (h.progs q)
  obtain ⟨hcomp, hcfg, hwaiting, hlog, hrx, hworker, hwedged, hbus, hflt, _, _, _⟩ := h
  refine ⟨?_, ?_, ?_, ?_, ?_, ?_, ?_, ?_, ?_, hport, hprog, ?_⟩ <;> simp [*]

/-- Settles O34: from its beginning to its response SHUTDOWN writes the session, the timer, the descriptors and its own port. -/
theorem shutdownFrame : Obligations.ShutdownFrame := by
  intro s t hsilent h
  obtain ⟨p, ho⟩ := exec_owner rfl h
  have same : s.ShutdownSame t := by
    refine exec_frame (P := s.ShutdownSame) rfl h hsilent (.refl s) (fun u ts d hu => ?_) (fun he => ?_)
      (fun u n out hu hhold => hu.goto (by simp [hhold]) _) fun u hu hrun => ?_
    · exact ⟨hu.comp, hu.cfg, hu.waiting, hu.log, hu.rx, hu.worker, hu.wedged, hu.bus, hu.flt, hu.otherPorts, hu.progs, hu.owner⟩
    · rw [shutdownBegin_cases]
      split
      · exact ⟨rfl, rfl, rfl, rfl, rfl, rfl, rfl, rfl, rfl, fun _ _ => rfl, fun _ => rfl, fun _ => rfl⟩
      · exact (State.ShutdownSame.refl s).goto (by simp [he]) _
    · have hown := hu.owner hrun
      show s.ShutdownSame u.respondTurn
      unfold State.respondTurn
      split
      · exact hu.respond (hown.trans ho) hown _ _ _
      · exact hu
  exact ⟨same.comp, same.cfg, same.waiting, same.log, same.rx, same.worker, same.wedged, same.bus, same.flt, same.otherPorts,
    same.progs⟩

/-! ### What an access makes of the descriptors (R197, R210, R220) -/

/-- A descriptor with its two offsets left out of account. -/
def Chan.sansOffsets (d : Chan) : Chan := { d with rd := 0, wr := 0 }

/-- Descriptors that differ in the two offsets only. -/
theorem Chan.eq_of_sansOffsets {d d' : Chan} (h : d'.sansOffsets = d.sansOffsets) : { d' with rd := d.rd, wr := d.wr } = d := by
  cases d
  cases d'
  simpa [Chan.sansOffsets] using h

/-- Of all descriptors only that of `c` may differ, and that in its two offsets only. -/
structure State.OffsetsOnly (c : BitVec 4) (s t : State) : Prop where
  others : ∀ k, k ≠ c.toNat → t.chan k = s.chan k
  own : (t.chan c.toNat).sansOffsets = (s.chan c.toNat).sansOffsets

section OffsetsOnly
variable {c : BitVec 4} {s t u : State}

theorem State.OffsetsOnly.ofCh (c : BitVec 4) (h : t.ch = s.ch) : State.OffsetsOnly c s t :=
  ⟨fun k _ => State.chan_congr h k, by rw [State.chan_congr h]⟩

theorem State.OffsetsOnly.trans (h : State.OffsetsOnly c s t) (k : State.OffsetsOnly c t u) : State.OffsetsOnly c s u :=
  ⟨fun j hj => (k.others j hj).trans (h.others j hj), k.own.trans h.own⟩

/-- Storing offsets, wherever the command goes next. -/
theorem State.OffsetsOnly.store (s : State) (r w : Nat) (l : Label) :
    s.OffsetsOnly c ((s.setChan c.toNat { s.chan c.toNat with rd := r, wr := w }).goto l) := by
  refine ⟨fun k hk => s.setChan_chan_other _ _ _ hk.symm, ?_⟩
  rw [State.goto_chan, State.setChan_chan]
  split <;> rfl

/-- Where only offsets differ, the base does not. -/
theorem State.OffsetsOnly.base (h : State.OffsetsOnly c s t) : (t.chan c.toNat).base = (s.chan c.toNat).base :=
  (congrArg Chan.base h.own : (t.chan c.toNat).sansOffsets.base = _)

end OffsetsOnly

theorem State.afterPoll_ch (second : Bool) (polls : Nat) (v : Half) (next : Label) (s : State) :
    (s.afterPoll second polls v next).ch = s.ch := by
  rcases s.afterPoll_cases second polls v next with e | e | e <;> rw [e] <;> rfl

theorem State.afterBell_ch (s : State) : s.afterBell.ch = s.ch := by
  rcases s.afterBell_cases with e | ⟨l, _, e⟩ <;> rw [e]; rfl

theorem State.readValue_offsets (c : BitVec 4) (max : Nat) (v : Half) (s : State) : s.OffsetsOnly c (s.readValue c max v) := by
  unfold State.readValue
  split
  case h_1 => exact .ofCh c (State.afterPoll_ch ..)
  case h_3 lo _ =>
    cases h : norm (joinHalves lo v).toNat (s.chan c.toNat).size with
    | none => rw [State.readRefreshed_none h]; exact .ofCh c rfl
    | some w => rw [State.readRefreshed_some h]; exact .store s _ _ _
  all_goals exact .ofCh c rfl

theorem State.readWritten_offsets (c : BitVec 4) (s : State) : s.OffsetsOnly c (s.readWritten c) := by
  unfold State.readWritten
  split
  · exact .ofCh c rfl
  · exact .store s _ _ _
  · exact .ofCh c s.afterBell_ch

theorem State.writeValue_offsets (c : BitVec 4) (words : List Word) (v : Half) (s : State) :
    s.OffsetsOnly c (s.writeValue c words v) := by
  unfold State.writeValue
  split
  case h_1 => exact .ofCh c (State.afterPoll_ch ..)
  case h_3 lo _ =>
    cases h : norm (joinHalves lo v).toNat (s.chan c.toNat).size with
    | none => rw [State.writeRefreshed_none h]; exact .ofCh c rfl
    | some r =>
      rcases Nat.lt_or_ge (free r (s.chan c.toNat).wr (s.chan c.toNat).size) words.length with hfull | hroom
      · rw [State.writeRefreshed_full h hfull]; exact .store s _ _ _
      · rw [State.writeRefreshed_some h hroom]; exact .store s _ _ _
  all_goals exact .ofCh c rfl

theorem State.writeWritten_offsets (c : BitVec 4) (words : List Word) (s : State) : s.OffsetsOnly c (s.writeWritten c words) := by
  unfold State.writeWritten
  split
  case h_4 => exact .store s _ _ _
  case h_5 => exact .ofCh c s.afterBell_ch
  all_goals exact .ofCh c rfl

/-- A turn of an access changes no descriptor but its own channel's, and of that the offsets only. -/
theorem commandTurn_offsets {i : Instr} {c : BitVec 4} (hi : checkedChannel i = some c) (s : State) :
    s.OffsetsOnly c (commandTurn i s) := by
  have next {t u : State} (ht : t.ch = s.ch) (h : t.OffsetsOnly c u) : s.OffsetsOnly c u := (State.OffsetsOnly.ofCh c ht).trans h
  cases i with
  | qRead c' n =>
    cases hi
    exact State.turnWith_ch (P := s.OffsetsOnly c) (fun t ht => .ofCh c ht) (fun v t ht => next ht (t.readValue_offsets c _ v))
      fun t ht => next ht (t.readWritten_offsets c)
  | qWrite c' words =>
    cases hi
    exact State.turnWith_ch (P := s.OffsetsOnly c) (fun t ht => .ofCh c ht) (fun v t ht => next ht (t.writeValue_offsets c words v))
      fun t ht => next ht (t.writeWritten_offsets c words)
  | _ => cases hi

/-- An access begins with a fault, or by going to its WaitIdle or its response. -/
theorem commandBegin_access {i : Instr} {c : BitVec 4} (hi : checkedChannel i = some c) (s : State) :
    (∃ code, s.enter i (commandBody i) = s.raise code) ∨ s.enter i (commandBody i) = s.goto (.poll false 0) ∨
      ∃ st, s.enter i (commandBody i) = s.goto (.respond st 0 []) := by
  apply State.enter_ind (P := fun t => (∃ code, t = s.raise code) ∨ t = s.goto (.poll false 0) ∨
    ∃ st, t = s.goto (.respond st 0 []))
  · exact fun code _ => .inl ⟨code, rfl⟩
  · refine fun st => .inr (.inr ⟨st, ?_⟩)
    cases i <;> first | rfl | cases hi
  · intro _ _ _
    refine .inr (.inl ?_)
    cases i <;> first | rfl | cases hi

/-! ### What an access makes of the companion (R163, R197, R210, R220) -/

/-- The companion differs at most in the half-words at `A`, in the H2C mailbox and the interrupts counted, and in the C2H mailbox
only if that lies at `A`. -/
structure State.StoresOnly (A : List Word) (s t : State) : Prop where
  cfg : t.cfg = s.cfg
  half : ∀ a, a ∉ A → t.half a = s.half a
  c2h : s.cfg.wf = true → s.cfg.regC2H ∉ A → t.comp.c2h = s.comp.c2h

theorem State.StoresOnly.ofComp {A : List Word} {s t : State} (hcfg : t.cfg = s.cfg) (h : t.comp = s.comp) : State.StoresOnly A s t :=
  ⟨hcfg, fun a _ => by rw [State.half, h]; rfl, fun _ _ => by rw [h]⟩

theorem State.StoresOnly.trans {A : List Word} {s t u : State} (h : State.StoresOnly A s t) (k : State.StoresOnly A t u) :
    State.StoresOnly A s u :=
  ⟨k.cfg.trans h.cfg, fun a ha => (k.half a ha).trans (h.half a ha),
    fun hwf ha => (k.c2h (h.cfg ▸ hwf) (h.cfg ▸ ha)).trans (h.c2h hwf ha)⟩

theorem State.StoresOnly.mono {A B : List Word} {s t : State} (h : State.StoresOnly A s t) (hAB : A ⊆ B) : State.StoresOnly B s t :=
  ⟨h.cfg, fun a ha => h.half a fun ha' => ha (hAB ha'), fun hwf ha => h.c2h hwf fun ha' => ha (hAB ha')⟩

/-- A transaction that stores within `A`, or rings the doorbell, changes the companion there at most. -/
theorem State.StoresOnly.transact {A : List Word} {c : BitVec 4} {s : State} {l : Label} {r : BusRec}
    (hr : r.write = true → r.addr ∈ A ∨ bellRecord s.cfg c l = some r) : State.StoresOnly A s (s.transact r) := by
  rcases s.transact_comp r with e | ⟨hw, e⟩
  · exact .ofComp (s.transact_cfg r) e
  rcases hr hw with hA | hbell
  · refine ⟨s.transact_cfg r, fun a ha => s.transact_half_other r a fun _ => ?_, fun _ hc => ?_⟩
    · rintro rfl; exact ha hA
    · rw [e]
      exact Comp.write16_c2h _ _ _ _ (by rintro h; exact hc (h ▸ hA))
  · have hreg : r.addr = s.cfg.regStatus ∨ r.addr = s.cfg.regH2C := by
      cases l <;> cases hbell
      · exact .inr rfl
      · exact .inr rfl
      · exact .inl rfl
    refine ⟨s.transact_cfg r, fun a _ => ?_, fun hwf _ => ?_⟩
    · rw [State.half, e, Comp.write16_register_mem _ _ _ _ (hreg.elim .inl fun h => .inr (.inl h))]
      rfl
    · have regs := Params.wf_registers hwf
      rw [e]
      exact Comp.write16_c2h _ _ _ _ (hreg.elim (fun h => h ▸ regs.statusC2H) fun h => h ▸ regs.h2cC2H)

theorem commandTurn_cfg (i : Instr) (s : State) : (commandTurn i s).cfg = s.cfg := by
  rcases commandTurn_cases i s with ⟨st, n, data, _, e⟩ | k
  · rw [e, State.respond_cfg]
  · exact k.cfg

/-- A turn whose transaction stores within `A`, or rings the doorbell, changes the companion there at most. -/
theorem commandTurn_stores {A : List Word} {i : Instr} {c : BitVec 4} {s : State}
    (h : ∀ r, turnRecord i s = some r → r.write = true → r.addr ∈ A ∨ bellRecord s.cfg c s.seq.step = some r) :
    s.StoresOnly A (commandTurn i s) := by
  have hcomp := commandTurn_comp i s
  split at hcomp
  · exact .ofComp (commandTurn_cfg i s) hcomp
  · rename_i r hr
    have k : State.StoresOnly A s (s.transact r) := .transact (h r hr)
    have same : State.StoresOnly A (s.transact r) (commandTurn i s) :=
      .ofComp ((commandTurn_cfg i s).trans (s.transact_cfg r).symm) hcomp
    exact k.trans same

/-! ### Q_READ (R210) -/

/-- The half-words a Q_READ stores to: RD_OFF's two. -/
def readStores (p : Params) (c : BitVec 4) : List Word := [rdOffAddr p c, rdOffAddr p c + 2]

theorem not_mem_readStores {p : Params} {c : BitVec 4} {a : Word} (hlow : a ≠ rdOffAddr p c) (hhigh : a ≠ rdOffAddr p c + 2) :
    a ∉ readStores p c := by
  simp only [readStores, List.mem_cons, List.not_mem_nil, or_false, not_or]
  exact ⟨hlow, hhigh⟩

/-- Q_READ writes to RD_OFF and to the doorbell's registers only. -/
theorem readRecord_stores {p : Params} {c : BitVec 4} {base : Word} {l : Label} {r : BusRec} (h : readRecord p c base l = some r)
    (hw : r.write = true) : r.addr ∈ readStores p c ∨ bellRecord p c l = some r := by
  unfold readRecord at h
  split at h
  case h_6 => cases h; exact .inl (by simp [readStores, wr32Low])
  case h_7 => cases h; exact .inl (by simp [readStores, wr32High])
  case h_8 => exact .inr h
  all_goals cases h; cases hw

/-- Settles O32: of the descriptors a turn of Q_READ changes its own channel's offsets, of the companion RD_OFF and the doorbell. -/
theorem readFrame : Obligations.ReadFrame := by
  intro s t c count hsilent h
  have frame : s.OffsetsOnly c t ∧ s.StoresOnly (readStores s.cfg c) t := by
    refine exec_frame (P := fun u => s.OffsetsOnly c u ∧ s.StoresOnly (readStores s.cfg c) u) rfl h hsilent
      ⟨.ofCh c rfl, .ofComp rfl rfl⟩ (fun u _ _ ⟨hch, hcomp⟩ => ⟨hch.trans (.ofCh c rfl), hcomp.trans (.ofComp rfl rfl)⟩) (fun _ => ?_)
      (fun u _ _ ⟨hch, hcomp⟩ _ => ⟨hch.trans (.ofCh c rfl), hcomp.trans (.ofComp rfl rfl)⟩) fun u ⟨hch, hcomp⟩ _ => ?_
    · rcases commandBegin_access (i := .qRead c count) rfl s with ⟨_, e⟩ | e | ⟨_, e⟩ <;> rw [e] <;>
        exact ⟨.ofCh c rfl, .ofComp rfl rfl⟩
    · refine ⟨hch.trans (commandTurn_offsets rfl u), hcomp.trans (commandTurn_stores (c := c) fun r hr hw => ?_)⟩
      rw [← hcomp.cfg]
      exact readRecord_stores hr hw
  obtain ⟨hch, hcomp⟩ := frame
  refine ⟨exec_sameOutside rfl (by simp) h hsilent, hch.others, Chan.eq_of_sansOffsets hch.own, fun a hlow hhigh => ?_, fun hwf hc => ?_⟩
  · exact hcomp.half a (not_mem_readStores hlow hhigh)
  · obtain ⟨hlow, hhigh⟩ := rdOffAddr_plain hwf hc
    exact hcomp.c2h hwf (not_mem_readStores hlow.c2h.symm hhigh.c2h.symm)

/-! ### Q_WRITE (R220) -/

/-- The half-words of some slots and of WR_OFF. -/
def storesAt (p : Params) (c : BitVec 4) (base : Word) (slots : List Nat) : List Word :=
  slots.flatMap (fun j => [slotAddr base j, slotAddr base j + 2]) ++ [wrOffAddr p c, wrOffAddr p c + 2]

theorem storesAt_mono {p : Params} {c : BitVec 4} {base : Word} {slots slots' : List Nat} (h : slots ⊆ slots') :
    storesAt p c base slots ⊆ storesAt p c base slots' := by
  intro a ha
  simp only [storesAt, List.mem_append, List.mem_flatMap] at ha ⊢
  exact ha.imp_left fun ⟨j, hj, hja⟩ => ⟨j, h hj, hja⟩

/-- The slots that a Q_WRITE's refresh chooses, of the read offset it gets (R195, R196). -/
def refreshSlots (d : Chan) (words : List Word) (rv : Word) : List Nat :=
  match norm rv.toNat d.size with
  | none => []
  | some r => (writeSpans r d.wr d.size words.length).1

/-- The slots a Q_WRITE has still to write, by its position. -/
def State.slotsLeft (s : State) (c : BitVec 4) (words : List Word) : Label → List Nat
  | .entry => refreshSlots (s.chan c.toNat) words (s.word (rdOffAddr s.cfg c))
  | .poll _ _ => refreshSlots (s.chan c.toNat) words (s.word (rdOffAddr s.cfg c))
  | .offLow => refreshSlots (s.chan c.toNat) words (s.word (rdOffAddr s.cfg c))
  | .offHigh lo => refreshSlots (s.chan c.toNat) words (joinHalves lo (s.half (rdOffAddr s.cfg c + 2)))
  | .putLow todo _ => todo.map Prod.fst
  | .putHigh todo _ => todo.map Prod.fst
  | _ => []

theorem State.writeStores_eq (s : State) (c : BitVec 4) (words : List Word) :
    s.writeStores c words = storesAt s.cfg c (s.chan c.toNat).base (s.slotsLeft c words s.seq.step) := by
  cases h : s.seq.step <;> simp only [State.writeStores, h] <;> rfl

section SlotsLeft
variable {c : BitVec 4} {words : List Word} {s t : State}

theorem State.slotsLeft_congr (hcfg : t.cfg = s.cfg) (hchan : t.chan c.toNat = s.chan c.toNat) (hcomp : t.comp = s.comp) (l : Label) :
    t.slotsLeft c words l = s.slotsLeft c words l := by
  have hhalf (a : Word) : t.half a = s.half a := by rw [State.half, hcomp]; rfl
  cases l <;> simp only [State.slotsLeft, hcfg, hchan, hhalf, State.word]

theorem State.slotsLeft_afterPut (s : State) (todo : List (Nat × Word)) (w n : Nat) :
    s.slotsLeft c words (afterPut todo w n) = todo.map Prod.fst := by
  cases todo <;> rfl

/-- Only where a Q_WRITE reads do its remaining slots rest on memory, and there its transaction changes none. -/
theorem State.transact_slotsLeft {r : BusRec} (hr : writeRecord s.cfg c (s.chan c.toNat).base s.seq.step = some r) :
    (s.transact r).slotsLeft c words s.seq.step = s.slotsLeft c words s.seq.step := by
  cases hw : r.write with
  | false => exact State.slotsLeft_congr (s.transact_cfg r) (s.transact_chan r _) (State.transact_read_comp hw s) _
  | true =>
    cases hs : s.seq.step <;> rw [hs] at hr
    case entry => cases hr
    case poll => cases hr; cases hw
    case offLow => cases hr; cases hw
    case offHigh => cases hr; cases hw
    all_goals rfl

/-- A refresh by the read offset at the companion chooses the slots that were left; one that gets none, or too little room, leaves
none. -/
theorem State.writeRefreshed_slots (rv : Word) (s : State) :
    (s.writeRefreshed c words rv).slotsLeft c words (s.writeRefreshed c words rv).seq.step ⊆ refreshSlots (s.chan c.toNat) words rv := by
  cases h : norm rv.toNat (s.chan c.toNat).size with
  | none => rw [State.writeRefreshed_none h]; exact List.nil_subset _
  | some r =>
    rcases Nat.lt_or_ge (free r (s.chan c.toNat).wr (s.chan c.toNat).size) words.length with hfull | hroom
    · rw [State.writeRefreshed_full h hfull]; exact List.nil_subset _
    · rw [State.writeRefreshed_some h hroom, State.goto_step, State.slotsLeft_afterPut, refreshSlots, h]
      intro j hj
      obtain ⟨x, hx, rfl⟩ := List.mem_map.1 hj
      exact (List.of_mem_zip hx).1

/-- What follows a read of Q_WRITE adds no slot, if the value read of RD_OFF is the one there. -/
theorem State.writeValue_slots {v : Half} (hlow : s.seq.step = .offLow → v = s.half (rdOffAddr s.cfg c))
    (hhigh : ∀ lo, s.seq.step = .offHigh lo → v = s.half (rdOffAddr s.cfg c + 2)) :
    (s.writeValue c words v).slotsLeft c words (s.writeValue c words v).seq.step ⊆ s.slotsLeft c words s.seq.step := by
  cases hs : s.seq.step <;> simp only [State.writeValue, hs]
  case poll second n =>
    rcases s.afterPoll_cases second n v .offLow with e | e | e <;> rw [e]
    · exact List.Subset.refl _
    · exact List.Subset.refl _
    · exact List.nil_subset _
  case offLow => rw [hlow hs]; exact List.Subset.refl _
  case offHigh lo => rw [hhigh lo hs]; exact s.writeRefreshed_slots _
  all_goals exact List.Subset.refl _

/-- What follows a write of Q_WRITE adds no slot. -/
theorem State.writeWritten_slots (s : State) :
    (s.writeWritten c words).slotsLeft c words (s.writeWritten c words).seq.step ⊆ s.slotsLeft c words s.seq.step := by
  cases hs : s.seq.step <;> simp only [State.writeWritten, State.afterBell, hs]
  case putHigh todo w =>
    cases todo with
    | nil => simp only [hs]; exact List.Subset.refl _
    | cons x rest =>
      rw [State.goto_step, State.slotsLeft_afterPut]
      exact List.subset_cons_self _ _
  case backLow => exact List.nil_subset _
  case backHigh => exact List.nil_subset _
  case bellSet => exact List.nil_subset _
  case bellClear => exact List.nil_subset _
  case bellIrq => exact List.nil_subset _
  all_goals exact List.Subset.refl _

/-- A turn that makes no transaction adds no slot. -/
theorem State.localTurn_slots (s : State) :
    s.localTurn.slotsLeft c words s.localTurn.seq.step ⊆ s.slotsLeft c words s.seq.step := by
  cases hs : s.seq.step <;> simp only [State.localTurn, State.respondTurn, hs]
  case hold =>
    split
    · exact List.nil_subset _
    · rw [hs]; exact List.Subset.refl _
  case respond => rw [State.respond_seq]; exact List.nil_subset _
  all_goals exact List.Subset.refl _

/-- A good read of plain memory answers the half-word there. -/
theorem State.transact_value {a : Word} {v : Half} (ha : PlainAddr s.cfg a) (hv : (s.transact (rd16 a)).busResult = .value v) :
    v = s.half a := by
  rcases State.transact_cases (rd16 a) s with ⟨hodd, _⟩ | ⟨_, _, e⟩ | ⟨_, _, _, e⟩ | ⟨_, _, hw, _⟩
  · exact absurd hodd (by simp [ha.even])
  · rw [e] at hv; cases hv
  · rw [e] at hv
    cases hv
    exact Comp.read16_plain _ _ _ _ ha.status ha.h2c ha.c2h
  · cases hw

/-- A turn of Q_WRITE adds no slot to those it has still to write. -/
theorem writeTurn_slots (hwf : s.cfg.wf = true) (hc : c.toNat < s.cfg.nCh) :
    (writeTurn c words s).slotsLeft c words (writeTurn c words s).seq.step ⊆ s.slotsLeft c words s.seq.step := by
  obtain ⟨hlow, hhigh⟩ := rdOffAddr_plain hwf hc
  have kept {r : BusRec} (hr : writeRecord s.cfg c (s.chan c.toNat).base s.seq.step = some r) :
      (s.transact r).slotsLeft c words (s.transact r).seq.step = s.slotsLeft c words s.seq.step := by
    rw [State.transact_seq, State.transact_slotsLeft hr]
  have same {r : BusRec} (hr : writeRecord s.cfg c (s.chan c.toNat).base s.seq.step = some r) :
      (s.transact r).slotsLeft c words (s.transact r).seq.step ⊆ s.slotsLeft c words s.seq.step := by
    rw [kept hr]
    exact List.Subset.refl _
  refine State.turnWith_ind (P := fun t => t.slotsLeft c words t.seq.step ⊆ s.slotsLeft c words s.seq.step)
    (fun _ => s.localTurn_slots) (fun r hr _ => same hr) (fun r hr _ => same hr) (fun r hr _ => ?_) (fun r v hr _ hread hv => ?_)
    fun r hr _ _ => (kept hr) ▸ State.writeWritten_slots _
  · obtain ⟨n, data, e⟩ := (s.transact r).endEarly_eq .busError
    rw [e]
    exact List.nil_subset _
  · have here (a : Word) : (s.transact r).half a = s.half a := by rw [State.half, State.transact_read_comp hread s]; rfl
    rw [← kept hr]
    refine State.writeValue_slots (fun hs => ?_) fun lo hs => ?_ <;> rw [State.transact_seq] at hs <;>
      rw [State.transact_cfg, here]
    · rw [hs] at hr; cases hr
      exact State.transact_value hlow hv
    · rw [hs] at hr; cases hr
      exact State.transact_value hhigh hv

/-- A Q_WRITE writes to a slot it has still to write, to WR_OFF, and to the doorbell's registers only. -/
theorem writeRecord_stores {r : BusRec} {l : Label} (h : writeRecord s.cfg c (s.chan c.toNat).base l = some r) (hw : r.write = true) :
    r.addr ∈ storesAt s.cfg c (s.chan c.toNat).base (s.slotsLeft c words l) ∨ bellRecord s.cfg c l = some r := by
  unfold writeRecord at h
  split at h
  case h_4 => cases h; exact .inl (by simp [storesAt, State.slotsLeft, wr32Low])
  case h_5 => cases h; exact .inl (by simp [storesAt, State.slotsLeft, wr32High])
  case h_6 => cases h; exact .inl (by simp [storesAt, wr32Low])
  case h_7 => cases h; exact .inl (by simp [storesAt, wr32High])
  case h_8 => exact .inr h
  all_goals cases h; cases hw

/-- A state with the same parameters and base, and no more slots left, has no more to store to. -/
theorem State.writeStores_mono (hcfg : t.cfg = s.cfg) (hbase : (t.chan c.toNat).base = (s.chan c.toNat).base)
    (hslots : t.slotsLeft c words t.seq.step ⊆ s.slotsLeft c words s.seq.step) : t.writeStores c words ⊆ s.writeStores c words := by
  rw [State.writeStores_eq, State.writeStores_eq, hcfg, hbase]
  exact storesAt_mono hslots

end SlotsLeft

/-- What a Q_WRITE that began at `s` has kept at `t`: all but the offsets of its channel and what it had to store to, and it has
nothing else to store to. -/
structure State.WriteKeeps (c : BitVec 4) (words : List Word) (s t : State) : Prop where
  chans : s.OffsetsOnly c t
  comp : s.StoresOnly (s.writeStores c words) t
  left : t.writeStores c words ⊆ s.writeStores c words

/-- A step that touches neither descriptors nor companion and adds no slot. -/
theorem State.WriteKeeps.next {c : BitVec 4} {words : List Word} {s t u : State} (h : s.WriteKeeps c words t) (hcfg : u.cfg = t.cfg)
    (hch : u.ch = t.ch) (hcomp : u.comp = t.comp) (hslots : u.slotsLeft c words u.seq.step ⊆ t.slotsLeft c words t.seq.step) :
    s.WriteKeeps c words u where
  chans := h.chans.trans (.ofCh c hch)
  comp := h.comp.trans (.ofComp hcfg hcomp)
  left := List.Subset.trans (State.writeStores_mono hcfg (by rw [State.chan_congr hch]) hslots) h.left

/-- A turn of Q_WRITE stores to what it has to store to. -/
theorem State.WriteKeeps.turn {c : BitVec 4} {words : List Word} {s t : State} (h : s.WriteKeeps c words t) (hwf : s.cfg.wf = true)
    (hc : c.toNat < s.cfg.nCh) : s.WriteKeeps c words (writeTurn c words t) := by
  have hoffsets : t.OffsetsOnly c (writeTurn c words t) := commandTurn_offsets (i := .qWrite c words) rfl t
  have hstores : t.StoresOnly (t.writeStores c words) (writeTurn c words t) :=
    commandTurn_stores (i := .qWrite c words) (c := c) fun r hr hw => by
      rw [State.writeStores_eq]
      exact writeRecord_stores hr hw
  have hslots := writeTurn_slots (words := words) (h.comp.cfg ▸ hwf : t.cfg.wf = true) (h.comp.cfg ▸ hc)
  exact ⟨h.chans.trans hoffsets, h.comp.trans (hstores.mono h.left),
    List.Subset.trans (State.writeStores_mono hstores.cfg hoffsets.base hslots) h.left⟩

/-- Settles O33: every turn of Q_WRITE stores to what it has still to store to, and adds nothing to that. -/
theorem writeFrame : Obligations.WriteFrame := by
  intro s t c words hsilent hwf hc h
  have start : s.WriteKeeps c words s := ⟨.ofCh c rfl, .ofComp rfl rfl, List.Subset.refl _⟩
  have keeps : s.WriteKeeps c words t := by
    refine exec_frame (P := s.WriteKeeps c words) rfl h hsilent start (fun u _ _ hu => hu.next rfl rfl rfl (List.Subset.refl _))
      (fun he => ?_) (fun u n out hu _ => hu.next rfl rfl rfl (List.nil_subset _)) fun u hu _ => hu.turn hwf hc
    rcases commandBegin_access (i := .qWrite c words) rfl s with ⟨_, e⟩ | e | ⟨_, e⟩ <;> rw [e]
    · exact start.next rfl rfl rfl (List.Subset.refl _)
    · exact start.next rfl rfl rfl (by rw [he]; exact List.Subset.refl _)
    · exact start.next rfl rfl rfl (List.nil_subset _)
  exact ⟨exec_sameOutside rfl (by simp) h hsilent, keeps.chans.others, Chan.eq_of_sansOffsets keeps.chans.own, keeps.comp.half,
    keeps.comp.c2h hwf⟩

end Sys2Proof.Machine

/-! PROOFS. The statements of spec/42_framing.md: FRAME_WRITE's expansion (R254) and FRAME_READ's loop (R255), and from
spec/60_exceptions.md the callback return (R296), which such a loop of the handler holds up (R256). -/

namespace Sys2Proof.Machine

/-! ### A frame's header and FRAME_WRITE (R251, R254) -/

/-- LEN is the header's low half. -/
theorem frameHeader_len (len : BitVec 16) (grp typ : BitVec 8) : (frameHeader len grp typ).extractLsb' 0 16 = len :=
  BitVec.extractLsb'_append_eq_right

/-- GRP stands above LEN. -/
theorem frameHeader_grp (len : BitVec 16) (grp typ : BitVec 8) : (frameHeader len grp typ).extractLsb' 16 8 = grp := by
  rw [frameHeader, BitVec.extractLsb'_append_eq_of_le (Nat.le_refl 16)]
  exact BitVec.extractLsb'_append_eq_right

/-- TYPE is the header's high byte. -/
theorem frameHeader_typ (len : BitVec 16) (grp typ : BitVec 8) : (frameHeader len grp typ).extractLsb' 24 8 = typ := by
  rw [frameHeader, BitVec.extractLsb'_append_eq_of_le (by decide : 16 ≤ 24)]
  exact BitVec.extractLsb'_append_eq_left

/-- Writing back what a port holds changes nothing. -/
@[simp] theorem State.setPort_self (s : State) (p : PortId) : s.setPort p (s.port p) = s := by
  cases p with
  | handler => rfl
  | client k =>
    have hset : s.clients.set k (s.clients.getD k Port.reset) = s.clients := by
      by_cases hk : k < s.clients.length
      · simp [List.getD, hk]
      · exact List.set_eq_of_length_le (Nat.le_of_not_lt hk)
    simp only [State.setPort, State.port, hset]

/-- A client whose port is empty presents an instruction; its loop, if any, stays. -/
theorem State.presentInstr_empty {s : State} {p : PortId} {i : Instr} {w : Word} {payload : List Word} (hport : s.hasPort p = true)
    (hempty : (s.port p).state = .empty) (hi : i.encodable = true) (he : encode i = .command w payload) :
    s.presentInstr p i = s.setPortState p (.requested w payload) := by
  have hsame : s.setProg p (s.port p).prog = s := s.setPort_self p
  have hpresent := State.setProg_presentInstr (s.port p).prog hport hempty hi he
  rwa [hsame] at hpresent

/-- Settles O58: the client is free, and the header's fields are the three it is put together from. -/
theorem frameWriteExpands : Obligations.FrameWriteExpands := by
  intro s p c grp typ ws hport hempty hidle hlen
  have hfree : s.clientFree p = true := by simp [State.clientFree, hport, hempty, hidle]
  have henc : (frameWriteInstr c grp typ ws).encodable = true := decide_eq_true (Nat.lt_succ_of_le (Nat.succ_le_succ hlen))
  refine ⟨frameHeader (BitVec.ofNat 16 (1 + ws.length)) grp typ, frameHeader_len .., frameHeader_grp .., frameHeader_typ .., ?_⟩
  rw [step_cons, State.perform, State.frameWrite, if_pos ⟨hlen, hfree⟩, State.presentInstr_empty hport hempty henc rfl,
    mkCmd_noCh2, List.length_cons, Nat.add_comm ws.length 1]

/-! ### FRAME_READ's loop (R253, R255) -/

/-- With a header the loop checks LEN, then reads what is missing, then ends. -/
theorem frameNext_cons (p : Params) (hdr : Word) (rest : List Word) :
    frameNext p (hdr :: rest) =
      if frameLen hdr = 0 ∨ (∃ m, p.maxFrameWords = some m ∧ m < frameLen hdr) then .finish .protocolError
      else if (hdr :: rest).length < frameLen hdr then .read (frameLen hdr - (hdr :: rest).length) else .finish .ok := by
  by_cases hzero : frameLen hdr = 0
  · simp [frameNext, hzero]
  · cases hmax : p.maxFrameWords with
    | none => simp [frameNext, hzero, hmax]
    | some m => simp [frameNext, hzero, hmax]

section Reading
variable {s : State} {p : PortId} {c : BitVec 4} {got : List Word} {ready : Bool}

/-- The loop goes on with a read: its Q_READ is presented. -/
theorem State.progress_read {n : Nat} (hport : s.hasPort p = true) (hempty : (s.port p).state = .empty)
    (hprog : (s.port p).prog = .reading c got ready) (hnext : frameNext s.cfg got = .read n) :
    s.progress p = s.setPort p
      { state := .requested ((2 : BitVec 4) ++ c ++ (0 : BitVec 8) ++ BitVec.ofNat 16 n) [], prog := .reading c got false } := by
  have hgo : s.progress p = (s.setProg p (.reading c got false)).presentInstr p (.qRead c (BitVec.ofNat 16 n)) := by
    simp only [State.progress, hport, hempty, hprog, hnext, and_self, if_true]
  rw [hgo, State.setProg_presentInstr _ hport hempty rfl rfl, mkCmd_noCh2]

/-- The loop ends with a status and the words got. -/
theorem State.progress_finish {st : Status} (hport : s.hasPort p = true) (hempty : (s.port p).state = .empty)
    (hprog : (s.port p).prog = .reading c got ready) (hnext : frameNext s.cfg got = .finish st) :
    s.progress p = s.setPort p { state := .empty, prog := .done st got } := by
  rw [← State.setProg_empty hempty]
  simp only [State.progress, hport, hempty, hprog, hnext, and_self, if_true]

/-- With FRAME_DEADLINE the loop may time out after one of its reads, else never. -/
theorem State.frameDeadline_reading (hempty : (s.port p).state = .empty) (hprog : (s.port p).prog = .reading c got ready) :
    s.frameDeadline p =
      if s.cfg.frameDeadline = true ∧ ready = true then s.setPort p { state := .empty, prog := .done .timeout got } else s := by
  rw [← State.setProg_empty hempty]
  cases ready <;> simp [State.frameDeadline, hempty, hprog]

end Reading

/-- Settles O59: `frameNext` says what the loop does next, and each of its answers is a read or an end. -/
theorem frameReadLoop : Obligations.FrameReadLoop := by
  refine ⟨fun s p c got ready hport hempty hprog => ⟨?_, ?_⟩, fun s p c hport hempty hprog => ?_⟩
  · have reads {n : Nat} := State.progress_read (n := n) hport hempty hprog
    have ends {st : Status} := State.progress_finish (st := st) hport hempty hprog
    rw [step_cons, State.perform]
    congr 1
    cases got with
    | nil => exact reads rfl
    | cons hdr rest =>
      have hnext := frameNext_cons s.cfg hdr rest
      rw [if_neg (List.cons_ne_nil hdr rest)]
      split <;> rename_i hbad
      · exact ends (hnext.trans (if_pos hbad))
      · split <;> rename_i hmore
        · exact reads (hnext.trans ((if_neg hbad).trans (if_pos hmore)))
        · exact ends (hnext.trans ((if_neg hbad).trans (if_neg hmore)))
  · rw [step_cons, State.perform, State.frameDeadline_reading hempty hprog]
  · have hfree := State.clientFree_of_inactive hport hempty hprog
    rw [step_cons, State.perform, State.frameRead, if_pos hfree, State.setProg_empty hempty]

/-! ### The callback return (R296) -/

/-- With no set bit at or above `k` the scan finds none. -/
theorem lowestBit_eq_none {b : Half} {k : Nat} (h : ∀ i, k ≤ i → i < 16 → b.getLsbD i = false) : lowestBit b k = none := by
  simp only [lowestBit, List.find?_eq_none, List.mem_range, Bool.and_eq_true, decide_eq_true_eq, not_and, Bool.not_eq_true]
  exact fun i hi hk => h i hk hi

/-- With a set bit at or above `k` the scan finds one. -/
theorem lowestBit_isSome {b : Half} {k i : Nat} (hk : k ≤ i) (hi : i < 16) (h : b.getLsbD i = true) : ∃ j, lowestBit b k = some j := by
  rw [← Option.isSome_iff_exists, lowestBit, List.find?_isSome]
  exact ⟨i, List.mem_range.2 hi, by simp [hk, h]⟩

/-- A scan step goes to the bit it finds. -/
theorem State.workerStep_scanBit {s : State} (d : Draw) {k j : Nat} (hh : s.halted = false) (hs : s.wk.state = .dispatching)
    (hp : s.wk.phase = .scan k) (hj : lowestBit s.wk.bitmap k = some j) : s.workerStep d = s.scanBit j := by
  simp [State.workerStep, hh, hs, hp, hj]

/-- The worker has no step while the callback runs. -/
theorem State.workerStep_await {s : State} (d : Draw) {k : Nat} (hp : s.wk.phase = .await k) : s.workerStep d = s := by
  simp [State.workerStep, hp]

/-- The callback of channel `k` ended: the pass stands behind the channel, and a failure is logged. -/
def State.returned (s : State) (ok : Bool) (k : Nat) : State :=
  { s with wk := { s.wk with phase := .scan (k + 1) }, rx := none,
           log := if ok then s.log else s.log ++ [{ kind := .callbackFailed, ch := some k }] }

/-- A return step ends the callback and goes on with the scan. -/
theorem State.handlerReturn_await {s : State} (ok : Bool) {k : Nat} (hh : s.halted = false) (hp : s.wk.phase = .await k)
    (hprog : s.handlerPort.prog.active = false) :
    s.handlerReturn ok = ((lowestBit s.wk.bitmap (k + 1)).map (s.returned ok k).scanBit).getD (s.returned ok k) := by
  cases ok <;> cases hb : lowestBit s.wk.bitmap (k + 1) <;> simp [State.handlerReturn, State.returned, State.emit, hh, hp, hprog, hb]

/-- A loop the handler runs holds the return up (R256). -/
theorem State.handlerReturn_held {s : State} (ok : Bool) (hprog : s.handlerPort.prog.active = true) : s.handlerReturn ok = s := by
  simp [State.handlerReturn, hprog]

/-! ### What holds the return up leaves the pass where it is (R256) -/

/-- The port whose client takes its own step in an event. -/
def clientPort : Event → Option PortId
  | .present p _ _ | .take p | .frameWrite p _ _ _ _ | .frameRead p _ | .writeRetry p _ _ | .progress p | .frameDeadline p => some p
  | _ => none

/-- `t` is `s` but for one port. -/
def State.PortOnly (p : PortId) (s t : State) : Prop := ∃ v, t = s.setPort p v

theorem State.PortOnly.refl (p : PortId) (s : State) : s.PortOnly p s := ⟨_, (s.setPort_self p).symm⟩

theorem State.PortOnly.trans {p : PortId} {s t u : State} (h : s.PortOnly p t) (k : t.PortOnly p u) : s.PortOnly p u := by
  obtain ⟨v, rfl⟩ := h
  obtain ⟨w, rfl⟩ := k
  exact ⟨w, s.setPort_setPort p v w⟩

theorem State.PortOnly.present (p : PortId) (cmd : Word) (payload : List Word) (s : State) : s.PortOnly p (s.present p cmd payload) := by
  unfold State.present
  split
  · exact ⟨_, rfl⟩
  · exact .refl p s

theorem State.PortOnly.presentInstr (p : PortId) (i : Instr) (s : State) : s.PortOnly p (s.presentInstr p i) := by
  unfold State.presentInstr
  split
  · exact .present p _ _ s
  · exact .refl p s

theorem State.PortOnly.progress (p : PortId) (s : State) : s.PortOnly p (s.progress p) := by
  have next (g : Prog) (i : Instr) : s.PortOnly p ((s.setProg p g).presentInstr p i) := .trans ⟨_, rfl⟩ (.presentInstr p i _)
  unfold State.progress
  split
  · split
    · split
      · exact next _ _
      · exact ⟨_, rfl⟩
    · exact next _ _
    · exact .refl p s
  · exact .refl p s

/-- A client's own step writes its port at most (R29, R134, R255). -/
theorem State.perform_client {e : Event} {p : PortId} {s t : State} (he : clientPort e = some p) (h : s.perform e = .next t) :
    s.PortOnly p t := by
  cases e <;> cases he <;> cases h
  case present cmd payload =>
    unfold State.clientPresent
    split
    · exact .refl p s
    · exact .present p cmd payload s
  case take =>
    unfold State.take
    split
    · exact ⟨_, rfl⟩
    · exact .refl p s
  case frameWrite c grp typ words =>
    unfold State.frameWrite
    split
    · exact .presentInstr p _ s
    · exact .refl p s
  case frameRead c =>
    unfold State.frameRead
    split
    · exact ⟨_, rfl⟩
    · exact .refl p s
  case writeRetry c words =>
    unfold State.writeRetry
    split
    · exact ⟨_, rfl⟩
    · exact .refl p s
  case progress => exact .progress p s
  case frameDeadline =>
    unfold State.frameDeadline
    split
    · split
      · exact ⟨_, rfl⟩
      · exact .refl p s
    · exact .refl p s

/-- Where the worker's pass is: its phase, what it has still to dispatch, and the event the handler runs on. -/
def State.passPlace (s : State) : Phase × Half × Option RxEvent := (s.wk.phase, s.wk.bitmap, s.rx)

theorem State.passPlace_eq {s t : State} (hphase : t.wk.phase = s.wk.phase) (hbitmap : t.wk.bitmap = s.wk.bitmap) (hrx : t.rx = s.rx) :
    t.passPlace = s.passPlace := by
  simp only [State.passPlace, hphase, hbitmap, hrx]

theorem State.passPlace_of_wk {s t : State} (hwk : t.wk = s.wk) (hrx : t.rx = s.rx) : t.passPlace = s.passPlace :=
  State.passPlace_eq (by rw [hwk]) (by rw [hwk]) hrx

theorem State.PortOnly.passPlace {p : PortId} {s t : State} (h : s.PortOnly p t) : t.passPlace = s.passPlace := by
  obtain ⟨v, rfl⟩ := h
  exact State.passPlace_of_wk (by simp) (by simp)

theorem CompanionSame.passPlace {s t : State} (h : CompanionSame s t) : t.passPlace = s.passPlace :=
  State.passPlace_eq h.phase h.bitmap h.rx

/-- No command moves the pass: SHUTDOWN only takes what is pending (R230). -/
theorem exec_passPlace {i : Instr} {s t : State} (hi : isCommand i = true) (h : exec i s = .next t) : t.passPlace = s.passPlace :=
  exec_keeps (P := fun u => u.passPlace = s.passPlace) hi h rfl (fun _ k => k) (fun _ _ k => k) (fun _ _ k same => same.passPlace.trans k)
    (fun _ _ k same => (State.passPlace_of_wk same.wk same.rx).trans k)
    (fun u st n data k => (State.passPlace_of_wk (u.respond_wk st n data) (u.respond_rx st n data)).trans k) fun _ k _ => k

/-- A port that times out leaves the pass where it is (R105). -/
theorem State.lockTimeout_passPlace (p : PortId) (s : State) : (s.lockTimeout (.port p)).passPlace = s.passPlace := by
  by_cases h : s.cfg.lockTimeout = true ∧ s.waiting.contains (.port p) = true ∧ s.halted = false
  · rw [State.lockTimeout_port h]
    exact State.passPlace_of_wk (by simp) (by simp)
  · rw [State.lockTimeout, if_neg h]

/-- While the handler runs a loop in its callback no agent moves the pass, but the platform by a reset. -/
theorem State.perform_passPlace {e : Event} {s t : State} {k : Nat} (hl : s.LockInv) (hp : s.wk.phase = .await k)
    (hprog : s.handlerPort.prog.active = true) (he : ∀ b, e ≠ .reset b) (h : s.perform e = .next t) : t.passPlace = s.passPlace := by
  have hwaits : Requester.worker ∉ s.waiting := fun hw => absurd (hl.waits.2 hw) (by simp [hp])
  have hbusy : s.wk.state ≠ .idle := fun hs => absurd (hl.idle.1 hs) (by simp [hp])
  cases e
  case grant q ts =>
    rcases State.grant_next h with ⟨_, rfl⟩ | ⟨hc, rfl, _⟩ | ⟨p, i, _, _, _, hi, hx⟩
    · rfl
    · exact absurd (List.contains_iff_mem.1 ((s.canGrant_iff _).1 hc).2.1) hwaits
    · exact exec_passPlace (s := s.grantedPort p ts) hi hx
  case turns ts =>
    rcases State.takeTurns_next h with rfl | ⟨p, i, _, _, _, hi, hx⟩
    · rfl
    · exact exec_passPlace (s := { s with turns := ts }) hi hx
  case reset b => exact absurd rfl (he b)
  case companion a => injection h with h; subst h; exact (s.companionStep_companionSame a).passPlace
  case lockTimeout q =>
    injection h with h
    subst h
    cases q with
    | port p => exact State.lockTimeout_passPlace p _
    | worker => rw [State.lockTimeout, if_neg (by simp [hwaits])]
  case accept p =>
    injection h with h
    subst h
    unfold State.accept
    (repeat' split) <;> exact State.passPlace_of_wk (by simp) (by simp)
  case passStart => injection h with h; subst h; rw [State.passStart, if_neg (by simp [hbusy])]
  case worker d => injection h with h; subst h; rw [State.workerStep_await d hp]
  case handlerReturn ok => injection h with h; subst h; rw [State.handlerReturn_held ok hprog]
  case timerFire =>
    injection h with h
    subst h
    unfold State.timerFire
    split <;> rfl
  all_goals exact (State.perform_client rfl h).passPlace

/-- Settles O46: the return's scan is the worker's scan step, and a FRAME_READ of the handler holds the pass where it is. -/
theorem callbackReturn : Obligations.CallbackReturn := by
  refine ⟨fun s ok k hh hp hprog => ⟨fun hnone => ?_, fun d i hk hi hbit hs => ?_⟩,
    fun s k c got ready hl hp hprog => ⟨fun ok => ?_, fun t hstep hreset => ?_⟩⟩
  · rw [step_cons, State.perform, State.handlerReturn_await ok hh hp hprog, lowestBit_eq_none hnone]
    rfl
  · obtain ⟨j, hj⟩ := lowestBit_isSome hk hi hbit
    have hscan : (s.returned ok k).workerStep d = (s.returned ok k).scanBit j := State.workerStep_scanBit d hh hs rfl hj
    calc step { s with inputs := .handlerReturn ok :: s.inputs }
        = .next (s.handlerReturn ok) := step_cons s _
      _ = .next ((s.returned ok k).scanBit j) := by rw [State.handlerReturn_await ok hh hp hprog, hj]; rfl
      _ = (s.returned ok k).perform (.worker d) := by rw [State.perform, hscan]
      _ = _ := (step_cons (s.returned ok k) _).symm
  · rw [step_cons, State.perform, State.handlerReturn_held ok (by rw [hprog]; rfl)]
  · obtain ⟨rest, n, h⟩ := step_next hstep
    have hplace : t.passPlace = s.passPlace :=
      State.perform_passPlace (s := { s with inputs := rest, clock := n }) (hl.withTape rest n) hp (by rw [hprog]; rfl) hreset h
    injection hplace with hphase hrest
    injection hrest with hbitmap hrx
    exact ⟨hphase.trans hp, hbitmap, hrx⟩

end Sys2Proof.Machine

/-! PROOFS. The statements of spec/60_exceptions.md: what only a reset clears (R275, R282), the halted block (R281), the interrupt
input and the timer (R287), and the worker's locked phase, scan and pass end (R290-R297). -/

namespace Sys2Proof.Machine

/-! ### The fault record and `wedged` until a reset (R275, R282) -/

/-- Only the platform's reset touches the fault record of a halted block. -/
theorem State.perform_haltedFlt {e : Event} {s t : State} (hh : s.halted = true) (h : s.perform e = .next t) (he : ∀ b, e ≠ .reset b) :
    t.flt = s.flt := by
  rcases State.perform_cases h with ⟨p, ts, i, _, hc, _⟩ | ⟨p, ts, i, _, _, hrun, _⟩ | ⟨a, _, rfl⟩ | ⟨b, rfl, _⟩ | ⟨q, _, rfl⟩ | same
  · obtain ⟨_, _, hrun⟩ := (s.canGrant_iff _).1 hc
    cases hh.symm.trans hrun
  · cases hh.symm.trans hrun
  · exact (s.companionStep_companionSame a).flt
  · exact absurd rfl (he b)
  · exact (s.lockTimeout_same q).flt hh
  · exact same.flt hh

/-- Settles O36: a halted block runs no command, and no other agent but the platform writes the fault record. -/
theorem onlyResetClearsTheFault : Obligations.OnlyResetClearsTheFault := by
  intro s t hh h he
  obtain ⟨rest, k, h⟩ := step_next h
  exact State.perform_haltedFlt (s := { s with inputs := rest, clock := k }) hh h he

/-- No command clears `wedged`, SHUTDOWN neither (R230, R275). -/
theorem exec_staysWedged {i : Instr} {s t : State} (hi : isCommand i = true) (h : exec i s = .next t) (hw : s.sess.wedged = true) :
    t.sess.wedged = true :=
  exec_keeps (P := fun u => u.sess.wedged = true) hi h hw (fun _ k => k) (fun _ _ k => k)
    (fun u v k same => by rw [same.sess, k]) (fun _ _ k same => same.wedged k)
    (fun u st n data k => by rw [State.respond_sess, k]) fun _ k _ => k

/-- Only the platform's reset clears `wedged`. -/
theorem State.perform_staysWedged {e : Event} {s t : State} (hw : s.sess.wedged = true) (h : s.perform e = .next t)
    (he : ∀ b, e ≠ .reset b) : t.sess.wedged = true := by
  rcases State.perform_cases h with ⟨p, ts, i, _, _, _, hi, hx⟩ | ⟨p, ts, i, _, _, _, _, hi, hx⟩ | ⟨a, _, rfl⟩ | ⟨b, rfl, _⟩ |
    ⟨q, _, rfl⟩ | same
  · exact exec_staysWedged (s := s.grantedPort p ts) hi hx hw
  · exact exec_staysWedged (s := { s with turns := ts }) hi hx hw
  · rw [(s.companionStep_companionSame a).sess, hw]
  · exact absurd rfl (he b)
  · exact (s.lockTimeout_same q).wedged hw
  · exact same.wedged hw

/-- Settles O37: a wedged session stays wedged through a command's run and through every other agent's step. -/
theorem onlyResetUnwedges : Obligations.OnlyResetUnwedges := by
  intro s t hw h he
  obtain ⟨rest, k, h⟩ := step_next h
  exact State.perform_staysWedged (s := { s with inputs := rest, clock := k }) hw h he

/-! ### A halted block (R281) -/

/-- Settles O35: the guard of each of these steps asks for a running block. -/
theorem haltedBlockStands : Obligations.HaltedBlockStands := by
  intro s p q ts d ok e hh he
  rw [step_cons]
  simp only [List.mem_cons, List.not_mem_nil, or_false] at he
  rcases he with rfl | rfl | rfl | rfl | rfl | rfl | rfl | rfl | rfl <;> rw [State.perform]
  case inl => rw [State.accept, if_pos hh]
  · unfold State.grant
    rw [if_neg (by simp [State.canGrant, hh])]
  · unfold State.takeTurns
    split
    · rw [if_pos hh]
    · rfl
  · rw [State.lockTimeout, if_neg (by simp [hh])]
  · rw [State.passStart, if_neg (by simp [hh])]
  · rw [State.workerStep, if_pos (.inl hh)]
  · rw [State.handlerReturn, if_pos (.inl hh)]
  · rw [State.timerFire, if_neg (by simp [hh])]
  · rw [State.companionStep, State.interruptInput, if_neg (by simp [hh])]

/-! ### The interrupt input and the timer (R287) -/

theorem State.halted_eq_false_iff (s : State) : s.halted = false ↔ s.flt.code = .none := by
  simp [State.halted]

/-- Settles O41: the conditions are the steps' own guards. -/
theorem interruptAndTimer : Obligations.InterruptAndTimer := by
  intro s
  constructor <;> rw [step_cons]
  · simp only [State.perform, State.companionStep, State.interruptInput, State.halted_eq_false_iff]
  · simp only [State.perform, State.timerFire, State.halted_eq_false_iff]

/-! ### The worker's locked phase (R290-R292) -/

/-- REG_C2H_MBOX reads as the C2H mailbox (R159). -/
theorem Comp.read16_regC2H {p : Params} (h : RegistersApart p) (noise : Half) (c : Comp) : c.read16 p noise p.regC2H = c.c2h := by
  simp [Comp.read16, h.statusC2H.symm, h.h2cC2H.symm]

/-- A write to REG_C2H_MBOX clears the bits it names (R160). -/
theorem Comp.write16_regC2H {p : Params} (h : RegistersApart p) (m : Half) (c : Comp) :
    c.write16 p p.regC2H m = { c with c2h := c.c2h &&& ~~~m } := by
  simp [Comp.write16, h.statusC2H.symm, h.h2cC2H.symm]

/-- In `t` the worker of `s` has given the lock back with nothing to dispatch, and its next step is the pass end (R297, log 6). -/
def State.PassEndsAt (s t : State) : Prop :=
  t.sess.lock = none ∧ t.seq.owner = none ∧ t.wk = { s.wk with phase := .scan 0, bitmap := 0 } ∧
    ∀ e, step { t with inputs := .worker e :: t.inputs } =
      .next { t with armed := (if s.sess.isOpen then true else s.armed)
                     wk := { s.wk with state := .idle, phase := .idle, bitmap := 0 } }

/-- A state that differs from `s` only in what the locked phase writes ends the pass by giving the lock back. -/
theorem State.passEndsAt_release {s u : State} (hh : u.halted = false) (hs : s.wk.state = .dispatching) (hwk : u.wk = s.wk)
    (hopen : u.sess.isOpen = s.sess.isOpen) (harmed : u.armed = s.armed) : s.PassEndsAt u.release.noDispatch := by
  refine ⟨rfl, rfl, by rw [← hwk]; rfl, fun e => ?_⟩
  have hend := State.workerStep_noDispatch (s := u.release) e hh (by simp [hwk, hs])
  rw [step_cons, State.perform, hend, ← hwk, ← hopen, ← harmed]
  rfl

section Locked
variable {s : State} {d : Draw} (hwf : s.cfg.wf = true) (hh : s.halted = false) (hs : s.wk.state = .dispatching)
  (ho : s.seq.owner = some .worker)
include hwf hh hs ho

/-- A failed mailbox read. -/
theorem State.workerStep_readMbox_fail (hp : s.wk.phase = .readMbox) (hf : d.fail = true) :
    s.workerStep d = State.workerBusError { s with draw := d, busResult := .busError } := by
  have regs := Params.wf_registers hwf
  simp only [State.workerStep_readMbox d hh hs ho hp, State.busRead, regs.c2hEven, hf, Bool.false_eq_true, if_false, if_true]
  exact if_neg (ne_true_of_eq_false hh)

/-- A good mailbox read: the bitmap is stored; empty it ends the locked phase, else its clear comes next. -/
theorem State.workerStep_readMbox_good (hp : s.wk.phase = .readMbox) (hf : d.fail = false) :
    s.workerStep d =
      let t := { s with draw := d, busResult := .value s.comp.c2h, sess := { s.sess with lastC2H := s.comp.c2h } }
      if s.comp.c2h = 0 then t.release.noDispatch else { t with wk := { s.wk with phase := .clearMbox s.comp.c2h } } := by
  have regs := Params.wf_registers hwf
  simp only [State.workerStep_readMbox d hh hs ho hp, State.busRead, regs.c2hEven, hf, Comp.read16_regC2H regs, Bool.false_eq_true,
    if_false]
  exact (if_neg (ne_true_of_eq_false hh)).trans (State.afterMboxRead_value rfl)

/-- A failed mailbox clear, which may have cleared the bits all the same (R87). -/
theorem State.workerStep_clearMbox_fail {m : Half} (hp : s.wk.phase = .clearMbox m) (hf : d.fail = true) :
    s.workerStep d = State.workerBusError { s with
      draw := d, busResult := .busError
      comp := if d.landed then { s.comp with c2h := s.comp.c2h &&& ~~~m } else s.comp } := by
  have regs := Params.wf_registers hwf
  simp only [State.workerStep_clearMbox d hh hs ho hp, State.busWrite, regs.c2hEven, hf, Comp.write16_regC2H regs,
    Bool.false_eq_true, if_false, if_true]
  exact if_neg (ne_true_of_eq_false hh)

/-- A good mailbox clear: the lock is given back and the scan of the bitmap begins. -/
theorem State.workerStep_clearMbox_good {m : Half} (hp : s.wk.phase = .clearMbox m) (hf : d.fail = false) :
    s.workerStep d = { State.release { s with
      draw := d, busResult := .written, comp := { s.comp with c2h := s.comp.c2h &&& ~~~m } } with
        wk := { s.wk with bitmap := m, phase := .scan 0 } } := by
  have regs := Params.wf_registers hwf
  simp only [State.workerStep_clearMbox d hh hs ho hp, State.busWrite, regs.c2hEven, hf, Comp.write16_regC2H regs,
    Bool.false_eq_true, if_false]
  exact if_neg (ne_true_of_eq_false hh)

end Locked

/-- Settles O43: both transactions, good and failed; an empty mailbox and a failure leave nothing to dispatch. -/
theorem workerMailboxSteps : Obligations.WorkerMailboxSteps := by
  intro s d hwf hh hs ho
  refine ⟨fun hp => ⟨s.workerStep d, step_cons s _, ?_⟩, fun m hp => ⟨s.workerStep d, step_cons s _, ?_⟩⟩
  · cases hf : d.fail with
    | true =>
      rw [State.workerStep_readMbox_fail hwf hh hs ho hp hf]
      exact ⟨rfl, fun _ => ⟨rfl, State.passEndsAt_release hh hs rfl rfl rfl⟩, nofun⟩
    | false =>
      rw [State.workerStep_readMbox_good hwf hh hs ho hp hf]
      by_cases hm : s.comp.c2h = 0
      · rw [if_pos hm]
        exact ⟨rfl, nofun, fun _ => ⟨rfl, rfl, fun _ => State.passEndsAt_release hh hs rfl rfl rfl, fun hne => absurd hm hne⟩⟩
      · rw [if_neg hm]
        exact ⟨rfl, nofun, fun _ => ⟨rfl, rfl, fun he => absurd he hm, fun _ => ⟨rfl, rfl, rfl⟩⟩⟩
  · cases hf : d.fail with
    | true =>
      rw [State.workerStep_clearMbox_fail hwf hh hs ho hp hf]
      refine ⟨?_, fun _ => ⟨rfl, State.passEndsAt_release hh hs rfl rfl rfl⟩, nofun⟩
      cases hl : d.landed <;> simp [State.workerBusError, State.noDispatch]
    | false =>
      rw [State.workerStep_clearMbox_good hwf hh hs ho hp hf]
      exact ⟨rfl, nofun, fun _ => ⟨rfl, rfl, rfl, rfl⟩⟩

/-! ### The scan and the pass end (R293, R297) -/

/-- The scan finds a set bit with none set between `k` and it. -/
theorem lowestBit_eq_some {b : Half} {k j : Nat} (hj : j < 16) (hk : k ≤ j) (hbit : b.getLsbD j = true)
    (hlow : ∀ i, k ≤ i → i < j → b.getLsbD i = false) : lowestBit b k = some j := by
  rw [lowestBit, List.find?_range_eq_some]
  refine ⟨by simp [hk, hbit], List.mem_range.2 hj, fun i hi => ?_⟩
  by_cases hki : k ≤ i
  · simp [hlow i hki hi]
  · simp [hki]

/-- With no bit left a scan step is the pass end. -/
theorem State.workerStep_passEnd {s : State} (d : Draw) {k : Nat} (hh : s.halted = false) (hs : s.wk.state = .dispatching)
    (hp : s.wk.phase = .scan k) (hnone : lowestBit s.wk.bitmap k = none) : s.workerStep d = s.passEnd := by
  simp [State.workerStep, hh, hs, hp, hnone]

/-- Settles O44: the lowest set bit is the one scanned, and `scanBit` is the statement's chain of cases. -/
theorem scanStep : Obligations.ScanStep := by
  intro s d k j hh hs hp hj hk hbit hlow
  rw [step_cons, State.perform, State.workerStep_scanBit d hh hs hp (lowestBit_eq_some hj hk hbit hlow)]
  rfl

/-- Settles O45: with no bit left the scan finds none. -/
theorem passEndStep : Obligations.PassEndStep := by
  intro s d k hh hs hp hnone
  rw [step_cons, State.perform, State.workerStep_passEnd d hh hs hp (lowestBit_eq_none hnone)]
  rfl

end Sys2Proof.Machine

/-! PROOFS. The statements of spec/70_reset_and_hazards.md: the reset step's values and those of the state a run starts in (R340, R341,
R343). -/

namespace Sys2Proof.Machine

/-- A reset step leaves every port of the table as the reset state has it: the handle, the companion, the log and the tape, which it
sets apart, hold no port. -/
@[simp] theorem State.resetStep_port (s : State) (b : Nat) (q : PortId) :
    (s.resetStep b).port q = (State.resetWith s.cfg).port q := by
  cases q <;> rfl

theorem State.resetStep_port_state (s : State) (b : Nat) (q : PortId) : ((s.resetStep b).port q).state = .empty := by
  rw [State.resetStep_port, State.resetWith_port]

/-- Settles O39: the step is `State.resetStep`, whose fields are those of the reset state but for the new handle, the companion and the
log; only that every port is empty takes a lemma, since it speaks of ports the table does not hold too. -/
theorem resetStepValues : Obligations.ResetStepValues := by
  intro s b
  exact ⟨s.resetStep b, step_cons s _, rfl, rfl, rfl, rfl, rfl, s.resetStep_port_state b, rfl, rfl, rfl, rfl, rfl, rfl⟩

/-- Settles O40: a channel or a port outside its table reads as its reset value too, so both clauses hold at any index; the other
fields are the reset state's own. -/
theorem resetStateValues : Obligations.ResetStateValues := by
  intro p i q
  exact ⟨rfl, rfl, rfl, rfl, rfl, State.resetWith_chan p i, rfl, rfl, rfl, rfl, State.resetWith_port p q, rfl, rfl, rfl, rfl, rfl⟩

end Sys2Proof.Machine
